-- ==== Sys2Proof/Word.lean ====
section
/-! DEFINITION. The word types of FFTB: bytes of DMEM, 32-bit register words, 64-bit data words. -/

namespace Sys2Proof

/-- One byte of DMEM (20_memory.md R44). -/
abbrev Byte := BitVec 8

/-- A 32-bit register or command word (10_state.md R21). -/
abbrev Word := BitVec 32

/-- A 64-bit DMEM word: the encoding of one binary64 value (00_scope.md R9, 20_memory.md R48). -/
abbrev F64 := BitVec 64

end Sys2Proof
end

