-- ==== Sys2Proof/Syntax.lean ====
section
/-! DEFINITION. The command set FFTB-CMD version 1 (00_scope.md R2): one constructor for each row of
spec/opcode_table.json. -/

namespace Sys2Proof

/-- A command (30_encoding.md R67). `forward` is the field D, `q` the field Q (includeNyquist), `stage` the field S
(30_encoding.md R65). -/
inductive Instr where
  /-- 43_dispatch.md R105 -/
  | nop
  /-- 43_dispatch.md R104 -/
  | fft (forward : Bool)
  /-- 41_radix2.md R89 -/
  | r2fft
  /-- 42_bluestein.md R99 -/
  | bluestein
  /-- 41_radix2.md R87 -/
  | bitrev
  /-- 41_radix2.md R88 -/
  | bfstage (stage : Nat)
  /-- 40_units.md R83 -/
  | twtab
  /-- 42_bluestein.md R98 -/
  | chirptab
  /-- 44_real_codec.md R107 -/
  | fftreal
  /-- 44_real_codec.md R109 -/
  | fftrealhalf (q : Bool)
  /-- 44_real_codec.md R110 -/
  | fftrealspec (q : Bool)
  /-- 44_real_codec.md R116 -/
  | ifftreal (q : Bool)
  /-- 44_real_codec.md R114 -/
  | ifftreals (q : Bool)
  /-- 44_real_codec.md R115 -/
  | ifftrealo (q : Bool)
  /-- 44_real_codec.md R117 -/
  | fftshift
deriving DecidableEq, Repr

end Sys2Proof
end

