-- ==== Sys2Proof/WellFormed.lean ====
section
/-! DEFINITION. Which commands the encoding can carry (30_encoding.md R66). -/

namespace Sys2Proof

/-- The stage index of `BFSTAGE` is an integer 0 to 31 (30_encoding.md R66, R71); every other command is well formed. -/
def Instr.wellFormed : Instr → Bool
  | .bfstage t => t < 32
  | .nop | .fft _ | .r2fft | .bluestein | .bitrev | .twtab | .chirptab | .fftreal | .fftrealhalf _ | .fftrealspec _
  | .ifftreal _ | .ifftreals _ | .ifftrealo _ | .fftshift => true

end Sys2Proof
end

