-- ==== Sys2Proof/Decode.lean ====
section
/-! DEFINITION. Decoding and encoding of command words (30_encoding.md). -/

namespace Sys2Proof

/-- Why a word is illegal (30_encoding.md R69), or that fewer than four bytes were given. -/
inductive Reject where
  /-- The opcode is 0x0F to 0x3F (R69). -/
  | reservedOpcode
  /-- A bit is set outside OP and the opcode's allowed mask (R68, R69). -/
  | strayBits
  /-- Fewer than the 32 bits a decoder always consumes (R64). -/
  | truncated
deriving DecidableEq, Repr

/-- One row of spec/opcode_table.json: its pattern and mask. -/
structure OpcodeRow where
  mnemonic : String
  pattern : Word
  mask : Word
deriving DecidableEq, Repr

/-- The match and mask pairs of spec/opcode_table.json (30_encoding.md R68), in the table's order. -/
def opcodeTable : List OpcodeRow :=
  [ ⟨"NOP", 0x00000000#32, 0xFFFFFFFF#32⟩,
    ⟨"FFT", 0x00000001#32, 0xFFFFFFBF#32⟩,
    ⟨"R2FFT", 0x00000002#32, 0xFFFFFFFF#32⟩,
    ⟨"BLUESTEIN", 0x00000003#32, 0xFFFFFFFF#32⟩,
    ⟨"BITREV", 0x00000004#32, 0xFFFFFFFF#32⟩,
    ⟨"BFSTAGE", 0x00000005#32, 0xFFFFE0FF#32⟩,
    ⟨"TWTAB", 0x00000006#32, 0xFFFFFFFF#32⟩,
    ⟨"CHIRPTAB", 0x00000007#32, 0xFFFFFFFF#32⟩ ] ++
  [ ⟨"FFTREAL", 0x00000008#32, 0xFFFFFFFF#32⟩,
    ⟨"FFTREALHALF", 0x00000009#32, 0xFFFFFF7F#32⟩,
    ⟨"FFTREALSPEC", 0x0000000A#32, 0xFFFFFF7F#32⟩,
    ⟨"IFFTREAL", 0x0000000B#32, 0xFFFFFF7F#32⟩,
    ⟨"IFFTREALS", 0x0000000C#32, 0xFFFFFF7F#32⟩,
    ⟨"IFFTREALO", 0x0000000D#32, 0xFFFFFF7F#32⟩,
    ⟨"FFTSHIFT", 0x0000000E#32, 0xFFFFFFFF#32⟩ ]

/-- A word belongs to a row when it agrees with the row's pattern under the row's mask (30_encoding.md R68). -/
def OpcodeRow.selects (r : OpcodeRow) (w : Word) : Bool := w &&& r.mask = r.pattern

/-- `OP = w[5:0]` (30_encoding.md R65, R66). -/
def opField (w : Word) : Nat := w.toNat % 64

/-- `D = w[6]`. -/
def dField (w : Word) : Bool := w.getLsbD 6

/-- `Q = w[7]`. -/
def qField (w : Word) : Bool := w.getLsbD 7

/-- `S = zext(w[12:8])`. -/
def sField (w : Word) : Nat := w.toNat / 256 % 32

/-- The allowed mask of an opcode that uses D, Q or S, and of one that uses no field (30_encoding.md R68). -/
def maskD : Word := 0x40#32
def maskQ : Word := 0x80#32
def maskS : Word := 0x1F00#32
def maskNone : Word := 0x0#32

/-- The command `i`, if no bit of `w` outside OP and the opcode's allowed mask is set (30_encoding.md R68). -/
def ifOnly (w allowed : Word) (i : Instr) : Except Reject Instr :=
  if w &&& ~~~allowed &&& 0xFFFFFFC0#32 = 0#32 then .ok i else .error .strayBits

/-- Decoding, total on all 2^32 words (30_encoding.md R70): one legal command with its field values, or illegal. -/
def decodeWord (w : Word) : Except Reject Instr :=
  match opField w with
  | 0x00 => ifOnly w maskNone .nop
  | 0x01 => ifOnly w maskD (.fft (dField w))
  | 0x02 => ifOnly w maskNone .r2fft
  | 0x03 => ifOnly w maskNone .bluestein
  | 0x04 => ifOnly w maskNone .bitrev
  | 0x05 => ifOnly w maskS (.bfstage (sField w))
  | 0x06 => ifOnly w maskNone .twtab
  | 0x07 => ifOnly w maskNone .chirptab
  | 0x08 => ifOnly w maskNone .fftreal
  | 0x09 => ifOnly w maskQ (.fftrealhalf (qField w))
  | 0x0A => ifOnly w maskQ (.fftrealspec (qField w))
  | 0x0B => ifOnly w maskQ (.ifftreal (qField w))
  | 0x0C => ifOnly w maskQ (.ifftreals (qField w))
  | 0x0D => ifOnly w maskQ (.ifftrealo (qField w))
  | 0x0E => ifOnly w maskNone .fftshift
  | _ => .error .reservedOpcode

/-- The command word stored at the head of a list of bytes, little-endian (20_memory.md R47), and the bytes after it:
a decoder always consumes 32 bits (30_encoding.md R64). -/
def decodeBytes : List Byte → Except Reject (Instr × List Byte)
  | b0 :: b1 :: b2 :: b3 :: rest =>
    match decodeWord (b3 ++ b2 ++ b1 ++ b0) with
    | .ok i => .ok (i, rest)
    | .error r => .error r
  | [] | [_] | [_, _] | [_, _, _] => .error .truncated

/-- `OP | D<<6 | Q<<7 | S<<8` (30_encoding.md R71). -/
def assembleFields (op : Nat) (d q : Bool) (stage : Nat) : Word :=
  BitVec.ofNat 32 op ||| BitVec.ofNat 32 d.toNat <<< 6 ||| BitVec.ofNat 32 q.toNat <<< 7 ||| BitVec.ofNat 32 stage <<< 8

/-- The one word of a well-formed command (30_encoding.md R67, R70). -/
def encode : Instr → Word
  | .nop => assembleFields 0x00 false false 0
  | .fft forward => assembleFields 0x01 forward false 0
  | .r2fft => assembleFields 0x02 false false 0
  | .bluestein => assembleFields 0x03 false false 0
  | .bitrev => assembleFields 0x04 false false 0
  | .bfstage t => assembleFields 0x05 false false t
  | .twtab => assembleFields 0x06 false false 0
  | .chirptab => assembleFields 0x07 false false 0
  | .fftreal => assembleFields 0x08 false false 0
  | .fftrealhalf q => assembleFields 0x09 false q 0
  | .fftrealspec q => assembleFields 0x0A false q 0
  | .ifftreal q => assembleFields 0x0B false q 0
  | .ifftreals q => assembleFields 0x0C false q 0
  | .ifftrealo q => assembleFields 0x0D false q 0
  | .fftshift => assembleFields 0x0E false false 0

/-- The mnemonic of a command, as spec/opcode_table.json spells it (30_encoding.md R67). -/
def Instr.mnemonic : Instr → String
  | .nop => "NOP"
  | .fft _ => "FFT"
  | .r2fft => "R2FFT"
  | .bluestein => "BLUESTEIN"
  | .bitrev => "BITREV"
  | .bfstage _ => "BFSTAGE"
  | .twtab => "TWTAB"
  | .chirptab => "CHIRPTAB"
  | .fftreal => "FFTREAL"
  | .fftrealhalf _ => "FFTREALHALF"
  | .fftrealspec _ => "FFTREALSPEC"
  | .ifftreal _ => "IFFTREAL"
  | .ifftreals _ => "IFFTREALS"
  | .ifftrealo _ => "IFFTREALO"
  | .fftshift => "FFTSHIFT"

/-- The four bytes of a command word as a little-endian bus carries them (20_memory.md R47). -/
def wordBytes (w : Word) : List Byte :=
  [w.extractLsb' 0 8, w.extractLsb' 8 8, w.extractLsb' 16 8, w.extractLsb' 24 8]

/-- The 32-bit word whose low `nbits` bits are those of `w` and whose bits above are 0. -/
def tableWord (nbits w : Nat) : Word := BitVec.ofNat 32 (w % 2 ^ nbits)

/-- The host's reading of one row of spec/opcode_table.json: bit 0 of `w` is bit 0 of the command word. -/
def decodeTableWord (nbits w : Nat) : Option Instr :=
  match decodeBytes (wordBytes (tableWord nbits w)) with
  | .ok (i, _) => some i
  | .error _ => none

end Sys2Proof
end

