-- ==== Sys2Proof/Config.lean ====
section
/-! DEFINITION. What an implementation fixes (00_scope.md R5), as plain data, and the free values of the spec. -/

namespace Sys2Proof

/-- One entry an implementation's `TRIG` gives in place of the correctly rounded pair: the angle is `p/q` of a
full turn in lowest terms, `c` and `s` are the cosine and the sine given for it (00_scope.md R12). A component is
used only where R12's property (c) admits it and property (b) does not fix it (Machine/Trig.lean). -/
structure TrigEntry where
  p : Nat
  q : Nat
  c : F64
  s : F64
deriving DecidableEq, Repr

/-- The parameters of 00_scope.md R5. No step of the machine writes them (10_state.md R19). -/
structure Config where
  /-- `L`, log2 of the maximum transform length. -/
  L : Nat
  /-- `DMEM_BYTES`, the size of the data memory. -/
  dmemBytes : Nat
  /-- `BASE`, the host address of the register window. -/
  base : Nat
  /-- `DBASE`, the host address of byte 0 of DMEM. -/
  dbase : Nat
  /-- `TRIG`, given by its differences from `TRIG_CR`; the empty list is `TRIG_CR` itself. -/
  trigTable : List TrigEntry
deriving DecidableEq, Repr

/-- `NMAX = 2^L`, the maximum transform length (00_scope.md R5). -/
abbrev Config.nmax (c : Config) : Nat := 2 ^ c.L

/-- `MMAX = 2^(L+1)`, the largest internal power-of-two length (00_scope.md R5). -/
abbrev Config.mmax (c : Config) : Nat := 2 ^ (c.L + 1)

/-- The constraints 00_scope.md R5 puts on the parameters. -/
abbrev Config.wf (c : Config) : Prop :=
  1 ≤ c.L ∧ c.L ≤ 28 ∧ c.dmemBytes % 8 = 0 ∧ 8 ≤ c.dmemBytes ∧ c.dmemBytes ≤ 2 ^ 32 ∧
    c.base % 256 = 0 ∧ c.dbase % 8 = 0 ∧ (c.base + 256 ≤ c.dbase ∨ c.dbase + c.dmemBytes ≤ c.base)

/-- The reference values of 00_scope.md R5, those of 95_test_vectors.md. DESIGN CHOICE (log 1): State.reset takes them. -/
def Config.reference : Config :=
  { L := 10, dmemBytes := 65536, base := 0, dbase := 0x10000, trigTable := [] }

/-- `NaNDraw` (00_scope.md R11): the sign and the payload of the NaN that one arithmetic operation produces. A free
value: the list names the operation (the counter of State and the operation's place in the command), so no two
operations share a draw (log 3). -/
opaque Config.nanDraw : List Nat → Bool × BitVec 52

/-- The content of a DMEM byte that nothing has written since the reset numbered `epoch`
(70_reset_and_hazards.md R133: "an arbitrary value, the same at every read until written"). A free value (log 4). -/
opaque Config.powerOnByte : (epoch : Nat) → (address : Nat) → Byte

end Sys2Proof
end

