-- ==== Sys2Proof/Machine/Float64.lean ====
section
/-! DEFINITION. IEEE 754 binary64 arithmetic (00_scope.md R9 to R11): operands become exact integers in units of
2^-1074, the least positive binary64 value; the exact result is rounded once, to nearest, ties to even. What IEEE 754
says of zeros, infinities and NaNs is PRESUMED from the standard (log 12), which R10 refers to. -/

namespace Sys2Proof.Machine

/-- The name of one arithmetic operation, for its NaN draw (00_scope.md R11; log 3). -/
abbrev Draw := List Nat

def fSign (x : F64) : Bool := x.getLsbD 63

/-- The exponent field, bits 62:52. -/
def fExp (x : F64) : Nat := x.toNat / 2 ^ 52 % 2 ^ 11

/-- The fraction field, bits 51:0. -/
def fFrac (x : F64) : Nat := x.toNat % 2 ^ 52

def fIsNaN (x : F64) : Bool := fExp x = 2047 && fFrac x ≠ 0

def fIsInf (x : F64) : Bool := fExp x = 2047 && fFrac x = 0

/-- The magnitude of a finite value, in units of 2^-1074. -/
def fMag (x : F64) : Nat := if fExp x = 0 then fFrac x else (2 ^ 52 + fFrac x) * 2 ^ (fExp x - 1)

/-- A finite value as an integer, in units of 2^-1074. -/
def fInt (x : F64) : Int := if fSign x then -(fMag x : Int) else fMag x

/-- The encoding with the sign `s` and the low 63 bits `m`. -/
def fPack (s : Bool) (m : Nat) : F64 := BitVec.ofNat 64 (m + if s then 2 ^ 63 else 0)

/-- The low 63 bits of an infinity. -/
def fInfBits : Nat := 2047 * 2 ^ 52

def fZero : F64 := 0x0000000000000000#64
def fOne : F64 := 0x3FF0000000000000#64
def fTwo : F64 := 0x4000000000000000#64
def fHalf : F64 := 0x3FE0000000000000#64

/-- `neg(x)` flips the sign bit exactly, of every value (00_scope.md R10). -/
def fNeg (x : F64) : F64 := x ^^^ 0x8000000000000000#64

/-- The NaN an operation named `d` produces: any NaN encoding, free (00_scope.md R11). -/
def fNaN (d : Draw) : F64 :=
  let v := Config.nanDraw d
  fPack v.1 (fInfBits + if v.2 = 0#52 then 1 else v.2.toNat)

/-- `n / d` rounded to the nearest integer, ties to even. -/
def roundQuot (n d : Nat) : Nat :=
  let q := n / d
  let r := n % d
  if d < 2 * r ∨ (2 * r = d ∧ q % 2 = 1) then q + 1 else q

/-- The exponent of the binade of a magnitude whose integer part is `q`: the unit of its last place is `2^e`. -/
def binade (q : Nat) : Nat := Nat.log2 q - 52

/-- The low 63 bits of the binary64 value nearest to `n / d` units of 2^-1074, ties to even; past the largest finite
value, those of infinity (00_scope.md R10). -/
def roundMag (n d : Nat) : Nat :=
  let e := binade (n / d)
  min (e * 2 ^ 52 + roundQuot n (d * 2 ^ e)) fInfBits

/-- The binary64 value nearest to `±n / d` units of 2^-1074. -/
def fRound (s : Bool) (n d : Nat) : F64 := fPack s (roundMag n d)

/-- IEEE addition. A zero sum of two zeros of one sign keeps that sign; every other zero sum is +0. -/
def fAdd (d : Draw) (x y : F64) : F64 :=
  if fIsNaN x || fIsNaN y then fNaN d
  else if fIsInf x then (if fIsInf y && fSign x != fSign y then fNaN d else x)
  else if fIsInf y then y
  else
    let z := fInt x + fInt y
    if z = 0 then fPack (fSign x && fSign y) 0 else fRound (z < 0) z.natAbs 1

/-- IEEE subtraction: the same result as `x + neg(y)` (00_scope.md R10). -/
def fSub (d : Draw) (x y : F64) : F64 := fAdd d x (fNeg y)

/-- IEEE multiplication. -/
def fMul (d : Draw) (x y : F64) : F64 :=
  let s := fSign x != fSign y
  if fIsNaN x || fIsNaN y then fNaN d
  else if fIsInf x then (if fMag y = 0 then fNaN d else fPack s fInfBits)
  else if fIsInf y then (if fMag x = 0 then fNaN d else fPack s fInfBits)
  else fRound s (fMag x * fMag y) (2 ^ 1074)

/-- IEEE division. -/
def fDiv (d : Draw) (x y : F64) : F64 :=
  let s := fSign x != fSign y
  if fIsNaN x || fIsNaN y then fNaN d
  else if fIsInf x then (if fIsInf y then fNaN d else fPack s fInfBits)
  else if fIsInf y then fPack s 0
  else if fMag y = 0 then (if fMag x = 0 then fNaN d else fPack s fInfBits)
  else fRound s (fMag x * 2 ^ 1074) (fMag y)

/-- The binary64 value of a natural number (exact up to 2^53; every length of FFTB is). -/
def fOfNat (n : Nat) : F64 := fRound false (n * 2 ^ 1074) 1

end Sys2Proof.Machine
end

