-- ==== Sys2Proof/Machine/Complex.lean ====
section
/-! DEFINITION. Complex values and the complex operations of the rules (00_scope.md R13 to R16). -/

namespace Sys2Proof.Machine

/-- A complex value: a pair of binary64 values (00_scope.md R13). -/
structure Cplx where
  re : F64
  im : F64
deriving DecidableEq, Repr

/-- `ZERO`, the pair of +0 values (00_scope.md R13). -/
def cZero : Cplx := ⟨fZero, fZero⟩

def cAdd (d : Draw) (a b : Cplx) : Cplx := ⟨fAdd (0 :: d) a.re b.re, fAdd (1 :: d) a.im b.im⟩

def cSub (d : Draw) (a b : Cplx) : Cplx := ⟨fSub (0 :: d) a.re b.re, fSub (1 :: d) a.im b.im⟩

/-- The product by a binary64 scalar. -/
def cScale (d : Draw) (a : Cplx) (s : F64) : Cplx := ⟨fMul (0 :: d) a.re s, fMul (1 :: d) a.im s⟩

def cConj (a : Cplx) : Cplx := ⟨a.re, fNeg a.im⟩

/-- The channel swap, an exact move (00_scope.md R11, R13). -/
def cSwap (a : Cplx) : Cplx := ⟨a.im, a.re⟩

/-- The complex product: four rounded products, then one rounded difference and one rounded sum (00_scope.md R14). -/
def cMul (d : Draw) (a b : Cplx) : Cplx :=
  ⟨fSub (4 :: d) (fMul (0 :: d) a.re b.re) (fMul (1 :: d) a.im b.im),
   fAdd (5 :: d) (fMul (2 :: d) a.re b.im) (fMul (3 :: d) a.im b.re)⟩

/-- Element `k` of a complex sequence (00_scope.md R16). -/
def cAt (x : List Cplx) (k : Nat) : Cplx := x.getD k cZero

/-- Element `k` of a real sequence (00_scope.md R16). -/
def rAt (x : List F64) (k : Nat) : F64 := x.getD k fZero

/-- The complex sequence of a real one: imaginary parts +0 (00_scope.md R16). -/
def realToComplex (r : List F64) : List Cplx := r.map fun v => ⟨v, fZero⟩

/-- The sequence `f 0, …, f (n-1)`. -/
def tabulate {α : Type} (n : Nat) (f : Nat → α) : List α := (List.range n).map f

end Sys2Proof.Machine
end

