-- ==== Sys2Proof/Machine/State.lean ====
section
/-! DEFINITION. The state of FFTB as plain data (10_state.md R19), what the host does to it, and the reasons a step can
stop. -/

namespace Sys2Proof.Machine

/-- The reasons a step can stop with a fault: there is none. FFTB has no traps (60_exceptions.md R125), a command that
fails a check completes with an error code and the machine goes on (R122), and no state can hang the engine
(93_implementation_defined.md, end of part 1). Safe: no behaviour is cut off. -/
inductive Fault where
deriving DecidableEq, Repr

/-- The reasons an instruction can be refused. -/
inductive Refusal where
  /-- Raised only by an arm of `exec` whose command has no meaning yet. Safe: it proves nothing about the command.
  No arm raises it in this model. -/
  | notModelled (mnemonic : String)
deriving DecidableEq, Repr

/-- The error codes a command can end with (60_exceptions.md R118). -/
inductive ErrCode where
  /-- 1, `E_BADCMD`: the command word is illegal. -/
  | badcmd
  /-- 2, `E_EMPTY`: a zero-length input where frequency-domain operations are undefined. -/
  | empty
  /-- 3, `E_ODDLEN`: an odd length where an even one is required. -/
  | oddlen
  /-- 4, `E_LEN`: a length outside the command's legal set. -/
  | len
  /-- 5, `E_ADDR`: a buffer is misaligned or extends past DMEM. -/
  | addr
  /-- 6, `E_OVERLAP`: the two arrays of a complex output share a byte. -/
  | overlap
deriving DecidableEq, Repr

/-- The fields of `STATUS` (10_state.md R28). The reserved bits 7:5 and 31:12 read as zero and ignore writes, so they
are not held. -/
structure Status where
  /-- Bit 0. -/
  busy : Bool
  /-- Bit 1. -/
  done : Bool
  /-- Bit 2. -/
  err : Bool
  /-- Bit 3. -/
  accv : Bool
  /-- Bit 4. -/
  wign : Bool
  /-- Bits 11:8. -/
  ecode : BitVec 4
deriving DecidableEq, Repr

/-- The registers of the register window (10_state.md R23). -/
inductive Csr where
  | id | cfg | dmemw | ctrl | status | cmd | len | outlen | srcRe | srcIm | dstRe | dstIm | outcnt
deriving DecidableEq, Repr

/-- One access of the host on its bus, of any width: the machine says which widths and addresses are legal
(20_memory.md R50, R55). `width` is in bytes and `data` holds the value written in its low bits. -/
inductive HostAccess where
  | read (address width : Nat)
  | write (address width : Nat) (data : BitVec 64)
deriving DecidableEq, Repr

/-- What happens next from outside the engine's own rules (log 5). -/
inductive Event where
  /-- The host makes an access (00_scope.md R17). -/
  | host (a : HostAccess)
  /-- The scheduler lets the engine take its step, if one is enabled (60_exceptions.md R121). -/
  | engine
  /-- The reset input is asserted (70_reset_and_hazards.md R132). -/
  | rst
deriving DecidableEq, Repr

/-- What the bus answers one host access (20_memory.md R50, R51, R54, R55; log 7). -/
inductive Response where
  /-- No access has been made. -/
  | none
  /-- A register read. -/
  | read32 (v : Word)
  /-- A DMEM read. -/
  | read64 (v : F64)
  /-- A write was taken (and stored, dropped or ignored as the rules say). -/
  | written
  /-- The bus error response of 20_memory.md R50 and R55. -/
  | busError
deriving DecidableEq, Repr

/-- DMEM as the list of the bytes written since the last reset, in rising order of address (log 4). -/
abbrev Memory := List Host.Cell

/-- The canonical form: addresses strictly rise. An unlisted address holds no written value, so no entry can equal
what an unlisted address holds. -/
abbrev Memory.wf (m : Memory) : Prop := m.Pairwise fun x y => x.1 < y.1

/-- The state of FFTB (10_state.md R19). -/
structure State where
  /-- The configuration (00_scope.md R5), a constant of the machine (log 1). -/
  cfg : Config
  /-- `CTRL.IE` (10_state.md R27). -/
  ie : Bool
  /-- `STATUS` (10_state.md R28). -/
  status : Status
  /-- `CMD` (10_state.md R34). -/
  cmd : Word
  /-- `LEN` (10_state.md R35). -/
  len : Word
  /-- `OUTLEN` (10_state.md R35). -/
  outlen : Word
  /-- `SRC_RE` (10_state.md R36). -/
  srcRe : Word
  /-- `SRC_IM` (10_state.md R36). -/
  srcIm : Word
  /-- `DST_RE` (10_state.md R36). -/
  dstRe : Word
  /-- `DST_IM` (10_state.md R36). -/
  dstIm : Word
  /-- `OUTCNT` (10_state.md R37). -/
  outcnt : Word
  /-- DMEM (20_memory.md R44). -/
  dmem : Memory
  /-- The interrupt output (10_state.md R43; log 11). -/
  irq : Bool
  /-- What the outside does next, in order (log 5). -/
  agenda : List Event
  /-- The answer to the host's last access (log 7). -/
  resp : Response
  /-- The counter behind the free NaN encodings (log 3). -/
  nanCtr : Nat
  /-- How many times `rst` has been asserted; it indexes the free DMEM contents (log 4). -/
  epoch : Nat
deriving DecidableEq, Repr

/-- `STATUS` after reset: every field 0 (10_state.md R28). -/
def Status.reset : Status :=
  { busy := false, done := false, err := false, accv := false, wign := false, ecode := 0#4 }

/-- The machine of configuration `c` right after its first reset (70_reset_and_hazards.md R134); the model's own
fields are as log 3, 4, 5 and 7 say. -/
def State.resetWith (c : Config) : State :=
  { cfg := c, ie := false, status := Status.reset, cmd := 0#32, len := 0#32, outlen := 0#32, srcRe := 0#32,
    srcIm := 0#32, dstRe := 0#32, dstIm := 0#32, outcnt := 0#32, dmem := [], irq := false, agenda := [],
    resp := .none, nanCtr := 0, epoch := 0 }

/-- The machine right after reset, at the reference parameters of 00_scope.md R5 (log 1). -/
def State.reset : State := State.resetWith Config.reference

end Sys2Proof.Machine
end

