-- ==== Sys2Proof/Machine/Flags.lean ====
section
/-! DEFINITION. The flags: the fields of `STATUS` and `CTRL` as register words, what changes them, and `irq`
(10_state.md R27 to R33, R43). -/

namespace Sys2Proof.Machine

/-- The 4-bit code of an error (60_exceptions.md R118). -/
def ErrCode.code : ErrCode → BitVec 4
  | .badcmd => 1#4
  | .empty => 2#4
  | .oddlen => 3#4
  | .len => 4#4
  | .addr => 5#4
  | .overlap => 6#4

/-- `STATUS` as a host read returns it (10_state.md R28). -/
def statusWord (t : Status) : Word :=
  0#20 ++ t.ecode ++ 0#3 ++ BitVec.ofBool t.wign ++ BitVec.ofBool t.accv ++ BitVec.ofBool t.err ++ BitVec.ofBool t.done ++
    BitVec.ofBool t.busy

/-- `CTRL` as a host read returns it (10_state.md R27). -/
def ctrlWord (ie : Bool) : Word := 0#31 ++ BitVec.ofBool ie

/-- `irq = CTRL.IE AND (STATUS.DONE OR STATUS.ERR)` (10_state.md R43). -/
def irqLevel (ie : Bool) (t : Status) : Bool := ie && (t.done || t.err)

/-- The state with `irq` recomputed, as after every step that changes one of its three bits (10_state.md R43). -/
def updateIrq (s : State) : State := { s with irq := irqLevel s.ie s.status }

/-- A write of `v` to `STATUS`: each W1C bit written as 1 is cleared, every other bit is unchanged (10_state.md R28). -/
def statusClear (t : Status) (v : Word) : Status :=
  { t with
    done := t.done && !v.getLsbD 1
    err := t.err && !v.getLsbD 2
    accv := t.accv && !v.getLsbD 3
    wign := t.wign && !v.getLsbD 4 }

/-- `STATUS` after a command is accepted (60_exceptions.md R120). -/
def statusAccepted (t : Status) : Status := { t with busy := true, done := false, err := false, ecode := 0#4 }

/-- `STATUS` after a completion with an error (60_exceptions.md R122). -/
def statusFailed (t : Status) (e : ErrCode) : Status := { t with busy := false, done := false, err := true, ecode := e.code }

/-- `STATUS` after a successful completion (60_exceptions.md R123): ERR and ECODE keep the 0 of acceptance. -/
def statusDone (t : Status) : Status := { t with busy := false, done := true }

end Sys2Proof.Machine
end

