-- ==== Sys2Proof/Machine/Ops.lean ====
section
/-! DEFINITION. The named operations over DMEM and the registers: byte and word access, sequences, buffer legality,
acceptance of a command, and its two completions (20_memory.md, 60_exceptions.md R120 to R123). -/

namespace Sys2Proof.Machine

/-- The byte a list holds for an address, if one was written there. -/
def memGet? : Memory → Nat → Option Byte
  | [], _ => none
  | (x, v) :: m, a => if x = a then some v else memGet? m a

/-- Write one byte, keeping the addresses in rising order. -/
def memSet : Memory → Nat → Byte → Memory
  | [], a, b => [(a, b)]
  | (x, v) :: m, a, b =>
    if a < x then (a, b) :: (x, v) :: m else if a = x then (a, b) :: m else (x, v) :: memSet m a b

/-- `MemWrite(a, 8, w)`: byte `i` of `w` at `a + i` (00_scope.md R8, 20_memory.md R47). -/
def memWrite (m : Memory) (a : Nat) (w : F64) : Memory :=
  (List.range 8).foldl (fun m i => memSet m (a + i) (w.extractLsb' (8 * i) 8)) m

/-- Writes of a complex sequence, real and imaginary word of one element after the other, in increasing index
(20_memory.md R45, R53). -/
def memWriteC : Memory → (re im : Nat) → List Cplx → Memory
  | m, _, _, [] => m
  | m, re, im, v :: vs => memWriteC (memWrite (memWrite m re v.re) im v.im) (re + 8) (im + 8) vs

/-- Writes of a real sequence, in increasing index (20_memory.md R45, R53). -/
def memWriteR : Memory → (base : Nat) → List F64 → Memory
  | m, _, [] => m
  | m, base, x :: xs => memWriteR (memWrite m base x) (base + 8) xs

/-- The DMEM byte at `a`: the last one written there since reset, else the free content of
70_reset_and_hazards.md R133 (log 4). -/
def readByte (s : State) (a : Nat) : Byte := (memGet? s.dmem a).getD (Config.powerOnByte s.epoch a)

/-- `MemRead(a, 8)`: the byte at `a + i` is byte `i` of the word (00_scope.md R8, 20_memory.md R47). -/
def memRead (s : State) (a : Nat) : F64 :=
  readByte s (a + 7) ++ readByte s (a + 6) ++ readByte s (a + 5) ++ readByte s (a + 4) ++
    readByte s (a + 3) ++ readByte s (a + 2) ++ readByte s (a + 1) ++ readByte s a

/-- `ReadC(RE, IM, 0 .. n-1)` (20_memory.md R45). -/
def readSeqC (s : State) (re im n : Nat) : List Cplx :=
  tabulate n fun k => ⟨memRead s (re + 8 * k), memRead s (im + 8 * k)⟩

/-- `ReadR(B, 0 .. n-1)` (20_memory.md R45). -/
def readSeqR (s : State) (base n : Nat) : List F64 := tabulate n fun k => memRead s (base + 8 * k)

/-- A buffer of `count` words at `base` is legal (20_memory.md R49), in exact integers. -/
def bufferLegal (c : Config) (base count : Nat) : Bool :=
  count = 0 || (base % 8 = 0 && base + 8 * count ≤ c.dmemBytes)

/-- The byte ranges of `count` words at `a` and at `b` share a byte (60_exceptions.md R119, check 6). -/
def rangesOverlap (a b count : Nat) : Bool := 0 < count && a < b + 8 * count && b < a + 8 * count

/-- What a command writes: nothing, a complex sequence at `(DST_RE, DST_IM)`, or a real one at `DST_RE`
(30_encoding.md R67). -/
inductive Output where
  | none
  | complex (y : List Cplx)
  | real (y : List F64)
deriving DecidableEq, Repr

/-- The number of elements, `OUTCNT` on success (10_state.md R37). -/
def Output.count : Output → Nat
  | .none => 0
  | .complex y => y.length
  | .real y => y.length

/-- The output writes (20_memory.md R53). -/
def writeOutput (s : State) (y : Output) : State :=
  match y with
  | .none => s
  | .complex y => { s with dmem := memWriteC s.dmem s.dstRe.toNat s.dstIm.toNat y }
  | .real y => { s with dmem := memWriteR s.dmem s.dstRe.toNat y }

/-- Acceptance of the command word `w`, the effect of a host write to `CMD` while BUSY = 0 (60_exceptions.md R120). -/
def acceptCommand (s : State) (w : Word) : State := updateIrq { s with cmd := w, status := statusAccepted s.status }

/-- The hardware's one exception: completion with an error (60_exceptions.md R122). It writes no DMEM byte, and the
operand registers and `CMD` stay as they were. The counter of the free NaN encodings advances with every command
(log 3). -/
def errorCompletion (s : State) (e : ErrCode) : State :=
  updateIrq { s with outcnt := 0#32, status := statusFailed s.status e, nanCtr := s.nanCtr + 1 }

/-- The return from it, and from the completion interrupt: the host's W1C write of `STATUS` (60_exceptions.md R124). -/
def acknowledge (s : State) (v : Word) : State := updateIrq { s with status := statusClear s.status v }

/-- Successful completion with the output `y` (60_exceptions.md R123). -/
def successCompletion (s : State) (y : Output) : State :=
  updateIrq
    { writeOutput s y with
      outcnt := BitVec.ofNat 32 y.count, status := statusDone s.status, nanCtr := s.nanCtr + 1 }

end Sys2Proof.Machine
end

