-- ==== Sys2Proof/Machine/Operands.lean ====
section
/-! DEFINITION. The operands of a command and the checks it runs before it reads or writes DMEM (30_encoding.md R66,
R67; 60_exceptions.md R119), and the shared form of a command's step (60_exceptions.md R121). -/

namespace Sys2Proof.Machine

/-- `is_pow2(n)` (00_scope.md R6). -/
def isPow2 (n : Nat) : Bool := 1 ≤ n && 2 ^ Nat.log2 n = n

/-- `n = LEN`, an integer (30_encoding.md R66). -/
abbrev lenOf (s : State) : Nat := s.len.toNat

/-- `N_out = OUTLEN`, an integer (30_encoding.md R66). -/
abbrev outlenOf (s : State) : Nat := s.outlen.toNat

/-- An input of a command: none, a complex sequence at `(SRC_RE, SRC_IM)`, or a real one at `SRC_RE`
(30_encoding.md R67). -/
inductive InShape where
  | none
  | complex (n : Nat)
  | real (n : Nat)
deriving DecidableEq, Repr

/-- The output a command would write on success (30_encoding.md R67). -/
inductive OutShape where
  | none
  | complex (c : Nat)
  | real (c : Nat)
deriving DecidableEq, Repr

/-- What the checks of a command need: whether its conditions for checks 2, 3 and 4 hold, and its buffers
(60_exceptions.md R119). -/
structure Checks where
  empty : Bool
  oddlen : Bool
  badlen : Bool
  input : InShape
  output : OutShape
deriving DecidableEq, Repr

/-- Every input buffer is legal (60_exceptions.md R119, check 5). -/
def inputLegal (s : State) : InShape → Bool
  | .none => true
  | .complex n => bufferLegal s.cfg s.srcRe.toNat n && bufferLegal s.cfg s.srcIm.toNat n
  | .real n => bufferLegal s.cfg s.srcRe.toNat n

/-- Every output buffer is legal (60_exceptions.md R119, check 5). -/
def outputLegal (s : State) : OutShape → Bool
  | .none => true
  | .complex c => bufferLegal s.cfg s.dstRe.toNat c && bufferLegal s.cfg s.dstIm.toNat c
  | .real c => bufferLegal s.cfg s.dstRe.toNat c

/-- The two arrays of a complex output share a byte (60_exceptions.md R119, check 6). -/
def outputOverlaps (s : State) : OutShape → Bool
  | .none | .real _ => false
  | .complex c => rangesOverlap s.dstRe.toNat s.dstIm.toNat c

/-- Checks 2 to 6, in their fixed order: the code of the first that fails (60_exceptions.md R119). Check 1 is the
decoder's (Machine/Step.lean). -/
def failedCheck (s : State) (k : Checks) : Option ErrCode :=
  if k.empty then some .empty
  else if k.oddlen then some .oddlen
  else if k.badlen then some .len
  else if !(inputLegal s k.input && outputLegal s k.output) then some .addr
  else if outputOverlaps s k.output then some .overlap
  else none

/-- The engine's step for a legal command word (60_exceptions.md R121): the checks, then an error completion or the
result and a success completion. `result` reads its input from `s`, so every input word is read before any output word
is written (20_memory.md R52). It is given the name under which the command's operations draw their NaNs (log 3). -/
def runCommand (s : State) (k : Checks) (result : Draw → Output) : Host.Outcome State Fault Refusal :=
  match failedCheck s k with
  | some e => .next (errorCompletion s e)
  | none => .next (successCompletion s (result [s.nanCtr]))

/-- The complex input of a command, element by element (30_encoding.md R67, 20_memory.md R45). -/
def inputC (s : State) : List Cplx := readSeqC s s.srcRe.toNat s.srcIm.toNat (lenOf s)

/-- The real input of a command (30_encoding.md R67, 20_memory.md R45). -/
def inputR (s : State) : List F64 := readSeqR s s.srcRe.toNat (lenOf s)

end Sys2Proof.Machine
end

