-- ==== Sys2Proof/Machine/Trig.lean ====
section
/-! DEFINITION. `TRIG(p, q)`, the one source of cosines and sines (00_scope.md R12; log 2). The angle is reduced to
lowest terms, which gives property (a). Components whose exact value is 0, 1, -1, 1/2 or -1/2 are those values, which
is property (b). Every other component is the implementation's entry where the configuration has one within 1 unit in
the last place, which is property (c), and otherwise the correctly rounded value of `TRIG_CR`, found from a
fixed-point evaluation with 256 fraction bits. -/

namespace Sys2Proof.Machine

/-- The fraction bits of the fixed-point evaluation. -/
def trigBits : Nat := 256

/-- The integer part of `π * 2^256`. -/
def piFixed : Nat := 0x3243f6a8885a308d313198a2e03707344a4093822299f31d0082efa98ec4e6c89

/-- The alternating series `t - t₁ + t₂ - …`, where each term is the one before times `x² / ((j+1)(j+2))`, `j` going up
by 2; `x2` is `x²` and all are fixed point. From `t = x`, `j = 1` it is the sine, from `t = 1`, `j = 0` the cosine. -/
def altSeries (x2 : Nat) : (fuel j t : Nat) → Nat
  | 0, _, t => t
  | fuel + 1, j, t => t - altSeries x2 fuel (j + 2) (t * x2 / 2 ^ trigBits / ((j + 1) * (j + 2)))

/-- The cosine and the sine, in fixed point, of the fixed-point angle `x`, `0 ≤ x ≤ π/4`. -/
def cosSinFixed (x : Nat) : Nat × Nat :=
  let x2 := x * x / 2 ^ trigBits
  (altSeries x2 30 0 (2 ^ trigBits), altSeries x2 30 1 x)

/-- `(cos(2π·p/q), sin(2π·p/q))` in fixed point, for `p < q`. With `o` the octant of the angle, `a/(4q)·π` is its
distance from the nearest multiple of π/2. -/
def trigFixed (p q : Nat) : Int × Int :=
  let o := 8 * p / q
  let r := 8 * p % q
  let a := if o % 2 = 0 then r else q - r
  let cs := cosSinFixed (piFixed * a / (4 * q))
  let c : Int := cs.1
  let s : Int := cs.2
  match o with
  | 0 => (c, s)
  | 1 => (s, c)
  | 2 => (-s, c)
  | 3 => (-c, s)
  | 4 => (-c, -s)
  | 5 => (-s, -c)
  | 6 => (s, -c)
  | _ => (c, -s)

/-- A fixed-point magnitude in units of 2^-1074. -/
def fixedUnits (v : Int) : Nat := v.natAbs * 2 ^ (1074 - trigBits)

/-- The binary64 value nearest to a fixed-point value; zero is +0. -/
def fixedToF64 (v : Int) : F64 := fRound (v < 0) (fixedUnits v) 1

/-- The allowance for the error of the fixed-point evaluation, 2^-240, in units of 2^-1074 (log 2). -/
def trigSlack : Nat := 2 ^ (1074 - 240)

/-- Is the finite value `y` within 1 unit in the last place of the exact value (00_scope.md R12 (c)), whose fixed-point
evaluation is `v`? -/
def withinUlp (y : F64) (v : Int) : Bool :=
  let units : Int := if v < 0 then -(fixedUnits v : Int) else fixedUnits v
  !fIsNaN y && !fIsInf y && (fInt y - units).natAbs + trigSlack ≤ 2 ^ binade (fixedUnits v - trigSlack)

/-- The cosine of `p/q` of a turn, in lowest terms, where it is 0, 1, -1, 1/2 or -1/2 (00_scope.md R12 (b)). -/
def exactCos (q : Nat) : Option F64 :=
  match q with
  | 1 => some fOne
  | 2 => some (fNeg fOne)
  | 3 => some (fNeg fHalf)
  | 4 => some fZero
  | 6 => some fHalf
  | _ => none

/-- The sine of `p/q` of a turn, in lowest terms, where it is 0, 1, -1, 1/2 or -1/2 (00_scope.md R12 (b)). -/
def exactSin (p q : Nat) : Option F64 :=
  match q with
  | 1 => some fZero
  | 2 => some fZero
  | 4 => some (if p = 1 then fOne else fNeg fOne)
  | 12 => some (if p < 6 then fHalf else fNeg fHalf)
  | _ => none

/-- One component: the exact value, else the implementation's where admissible, else the correctly rounded one. -/
def trigComponent (exact given : Option F64) (v : Int) : F64 :=
  match exact, given with
  | some x, _ => x
  | none, some y => if withinUlp y v then y else fixedToF64 v
  | none, none => fixedToF64 v

/-- `TRIG` at a fraction in lowest terms. -/
def trigReduced (c : Config) (p q : Nat) : Cplx :=
  let entry := c.trigTable.find? fun e => e.p = p && e.q = q
  let v := trigFixed p q
  ⟨trigComponent (exactCos q) (entry.map TrigEntry.c) v.1, trigComponent (exactSin p q) (entry.map TrigEntry.s) v.2⟩

/-- `TRIG(p, q)`, for `q ≥ 1` and `p < q` (00_scope.md R12). -/
def trig (c : Config) (p q : Nat) : Cplx := trigReduced c (p / Nat.gcd p q) (q / Nat.gcd p q)

end Sys2Proof.Machine
end

