-- ==== Sys2Proof/Machine/Units.lean ====
section
/-! DEFINITION. The leaf units: twiddle ROM, butterfly operator, bit-reversal network; and the command TWTAB
(40_units.md). -/

namespace Sys2Proof.Machine

/-- `ROM[s][k] = TRIG(k, 2^s)` (10_state.md R39). -/
def romEntry (c : Config) (s k : Nat) : Cplx := trig c k (2 ^ s)

/-- `ROMRD(n, k)` for a power of two `n` and `k < n/2` (40_units.md R74). -/
def romRead (c : Config) (n k : Nat) : Cplx := romEntry c (Nat.log2 n) k

/-- `TW(n, mMax, m)`: the twiddle of group `m` in the stage of half-width `mMax` (40_units.md R75). -/
def twiddle (c : Config) (n mMax m : Nat) : Cplx := romRead c n (m * (n / (2 * mMax)))

/-- The butterfly operator, with the conjugate of the ROM entry (40_units.md R76, 90_conflicts.md C1). -/
def butterfly (d : Draw) (ai aj w : Cplx) : Cplx × Cplx :=
  let t := cMul (0 :: d) aj (cConj w)
  (cAdd (1 :: d) ai t, cSub (2 :: d) ai t)

/-- `rev_s(i)`: bit `b` of the result is bit `s-1-b` of `i` (40_units.md R79). -/
def bitRev : (s i : Nat) → Nat
  | 0, _ => 0
  | s + 1, i => i % 2 * 2 ^ s + bitRev s (i / 2)

/-- `BITREVP(x)`, for a length `n = 2^s`: `a[j] = x[rev_s(j)]` (40_units.md R80). -/
def bitRevPermute (x : List Cplx) : List Cplx :=
  tabulate x.length fun j => cAt x (bitRev (Nat.log2 x.length) j)

/-- The reversed counter's step from the bit `2^(b-1)` down: clear set bits, then set the first clear one
(40_units.md R81). -/
def revCarry : (b i2 : Nat) → Nat
  | 0, i2 => i2
  | b + 1, i2 => if i2.testBit b then revCarry b (i2 ^^^ 2 ^ b) else i2 ||| 2 ^ b

/-- The network as the source's counter (40_units.md R81): element `i` of `x` moves to the counter's value, which then
steps. `n = 2^s`. -/
def bitRevCounterLoop (s : Nat) (x : List Cplx) : List Cplx :=
  ((List.range x.length).foldl
    (fun (st : List Cplx × Nat) i => (st.1.set st.2 (cAt x i), revCarry s st.2))
    (x, 0)).1

/-- `TWTAB` (40_units.md R83). -/
def execTwtab (s : State) : Host.Outcome State Fault Refusal :=
  let n := lenOf s
  runCommand s
    { empty := false, oddlen := false, badlen := !isPow2 n || 2 * s.cfg.nmax < n,
      input := .none, output := .complex (n / 2) }
    fun _ => .complex (tabulate (n / 2) fun k => romRead s.cfg n k)

end Sys2Proof.Machine
end

