-- ==== Sys2Proof/Machine/Radix2.lean ====
section
/-! DEFINITION. The radix-2 pipeline and its commands BITREV, BFSTAGE, R2FFT (41_radix2.md). -/

namespace Sys2Proof.Machine

/-- The butterfly of the pair `(i, i + mMax)`, in place (41_radix2.md R84). -/
def stagePair (d : Draw) (w : Cplx) (mMax : Nat) (b : List Cplx) (i : Nat) : List Cplx :=
  let r := butterfly (i :: d) (cAt b i) (cAt b (i + mMax)) w
  (b.set i r.1).set (i + mMax) r.2

/-- Group `m` of a pass: the pairs `(i, i + mMax)` for `i = m, m + 2*mMax, …` below `n` (41_radix2.md R84). -/
def stageGroup (c : Config) (d : Draw) (n mMax : Nat) (b : List Cplx) (m : Nat) : List Cplx :=
  let w := twiddle c n mMax m
  (List.range (n / (2 * mMax))).foldl (fun b k => stagePair d w mMax b (m + 2 * mMax * k)) b

/-- `STAGE(a, mMax)`: one butterfly pass, in the reference order (41_radix2.md R84; log 20). -/
def stage (c : Config) (d : Draw) (a : List Cplx) (mMax : Nat) : List Cplx :=
  (List.range mMax).foldl (fun b m => stageGroup c d a.length mMax b m) a

/-- `R2(x)` of a length `n = 2^s`: the bit-reversal, then pass `t` of half-width `2^t` for `t = 0 .. s-1`
(41_radix2.md R85). A length of 1 is copied. -/
def r2 (c : Config) (d : Draw) (x : List Cplx) : List Cplx :=
  if x.length = 1 then x
  else (List.range (Nat.log2 x.length)).foldl (fun a t => stage c (t :: d) a (2 ^ t)) (bitRevPermute x)

/-- `BITREV` (41_radix2.md R87). -/
def execBitrev (s : State) : Host.Outcome State Fault Refusal :=
  let n := lenOf s
  runCommand s
    { empty := false, oddlen := false, badlen := !isPow2 n || s.cfg.nmax < n,
      input := .complex n, output := .complex n }
    fun _ => .complex (bitRevPermute (inputC s))

/-- `BFSTAGE S=t` (41_radix2.md R88). -/
def execBfstage (t : Nat) (s : State) : Host.Outcome State Fault Refusal :=
  let n := lenOf s
  runCommand s
    { empty := false, oddlen := false, badlen := !isPow2 n || n < 2 || s.cfg.nmax < n || Nat.log2 n ≤ t,
      input := .complex n, output := .complex n }
    fun d => .complex (stage s.cfg d (inputC s) (2 ^ t))

/-- `R2FFT` (41_radix2.md R89). -/
def execR2fft (s : State) : Host.Outcome State Fault Refusal :=
  let n := lenOf s
  runCommand s
    { empty := false, oddlen := false, badlen := !isPow2 n || s.cfg.nmax < n,
      input := .complex n, output := .complex n }
    fun d => .complex (r2 s.cfg d (inputC s))

end Sys2Proof.Machine
end

