-- ==== Sys2Proof/Machine/Bluestein.lean ====
section
/-! DEFINITION. The Bluestein chirp-transform wrapper and its commands CHIRPTAB, BLUESTEIN (42_bluestein.md). -/

namespace Sys2Proof.Machine

/-- `BSM(n)`, the smallest power of two ≥ `2n - 3`, for `n ≥ 3` (42_bluestein.md R90). -/
def bluesteinSize (n : Nat) : Nat := 2 ^ (Nat.log2 (2 * n - 4) + 1)

/-- `CHIRP(n)`: the phase index `k*k mod 2n` is reduced before it is scaled (42_bluestein.md R91). -/
def chirp (c : Config) (n : Nat) : List Cplx := tabulate n fun k => trig c (k * k % (2 * n)) (2 * n)

/-- Buffer A: the input times the conjugate chirp, padded with zeros to length `m` (42_bluestein.md R92). -/
def bluesteinA (d : Draw) (x ch : List Cplx) (m : Nat) : List Cplx :=
  tabulate m fun k => if k < x.length then cMul (k :: d) (cAt x k) (cConj (cAt ch k)) else cZero

/-- Buffer B: zeros, then the chirp at `0 .. n-1`, then its mirror at `m-n+1 .. m-1`; where both write, they write the
same value (42_bluestein.md R93). -/
def bluesteinB (ch : List Cplx) (m : Nat) : List Cplx :=
  tabulate m fun p =>
    if m - ch.length + 1 ≤ p then cAt ch (m - p) else if p < ch.length then cAt ch p else cZero

/-- The inverse direction of a power-of-two length: swap the channels, transform, swap back (42_bluestein.md R94,
43_dispatch.md R102). -/
def r2Inverse (c : Config) (d : Draw) (x : List Cplx) : List Cplx := (r2 c d (x.map cSwap)).map cSwap

/-- The scaled convolution (42_bluestein.md R94). -/
def bluesteinConvolve (c : Config) (d : Draw) (a b : List Cplx) (m : Nat) : List Cplx :=
  let fa := r2 c (0 :: d) a
  let fb := r2 c (1 :: d) b
  let p := tabulate m fun k => cMul (k :: 2 :: d) (cAt fa k) (cAt fb k)
  let q := r2Inverse c (3 :: d) p
  let scale := fDiv (4 :: d) fOne (fOfNat m)
  tabulate m fun k => cScale (k :: 5 :: d) (cAt q k) scale

/-- `BS(x)`, for a length `n ≥ 3` that is not a power of two (42_bluestein.md R95, R96). -/
def bluestein (c : Config) (d : Draw) (x : List Cplx) : List Cplx :=
  let n := x.length
  let m := bluesteinSize n
  let ch := chirp c n
  let q := bluesteinConvolve c (1 :: d) (bluesteinA (0 :: d) x ch m) (bluesteinB ch m) m
  tabulate n fun k => cMul (k :: 2 :: d) (cAt q k) (cConj (cAt ch k))

/-- `CHIRPTAB` (42_bluestein.md R98). -/
def execChirptab (s : State) : Host.Outcome State Fault Refusal :=
  let n := lenOf s
  runCommand s
    { empty := false, oddlen := false, badlen := s.cfg.nmax < n, input := .none, output := .complex n }
    fun _ => .complex (chirp s.cfg n)

/-- `BLUESTEIN` (42_bluestein.md R99). -/
def execBluestein (s : State) : Host.Outcome State Fault Refusal :=
  let n := lenOf s
  runCommand s
    { empty := false, oddlen := false, badlen := n < 3 || s.cfg.nmax < n || isPow2 n,
      input := .complex n, output := .complex n }
    fun d => .complex (bluestein s.cfg d (inputC s))

end Sys2Proof.Machine
end

