-- ==== Sys2Proof/Machine/Transform.lean ====
section
/-! DEFINITION. The transform dispatcher and its commands FFT, NOP (43_dispatch.md). -/

namespace Sys2Proof.Machine

/-- `CORE(x)`, the direction-free transform of a length `n ≥ 2` (43_dispatch.md R101). -/
def core (c : Config) (d : Draw) (x : List Cplx) : List Cplx :=
  if isPow2 x.length then r2 c d x else bluestein c d x

/-- `FFTE(x, dir)`, the engine transform (43_dispatch.md R102). It never scales. -/
def ffte (c : Config) (d : Draw) (x : List Cplx) (forward : Bool) : List Cplx :=
  if x.length ≤ 1 then x
  else if forward then core c d x
  else (core c d (x.map cSwap)).map cSwap

/-- `FFT.F` and `FFT.I` (43_dispatch.md R104). -/
def execFft (forward : Bool) (s : State) : Host.Outcome State Fault Refusal :=
  let n := lenOf s
  runCommand s
    { empty := false, oddlen := false, badlen := s.cfg.nmax < n, input := .complex n, output := .complex n }
    fun d => .complex (ffte s.cfg d (inputC s) forward)

/-- `NOP` does nothing but complete (43_dispatch.md R105). -/
def execNop (s : State) : Host.Outcome State Fault Refusal :=
  runCommand s { empty := false, oddlen := false, badlen := false, input := .none, output := .none } fun _ => .none

end Sys2Proof.Machine
end

