-- ==== Sys2Proof/Machine/RealCodec.lean ====
section
/-! DEFINITION. The real-signal codec: FFTREAL, FFTREALHALF, FFTREALSPEC, IFFTREAL, IFFTREALS, IFFTREALO, FFTSHIFT
(44_real_codec.md). -/

namespace Sys2Proof.Machine

/-- One bin of `RH`: the even/odd split at `k` of the half-length transform `z` (44_real_codec.md R108). -/
def realHalfBin (c : Config) (d : Draw) (z : List Cplx) (n k : Nat) : Cplx :=
  let h := n / 2
  let zk := cAt z k
  let zc := cConj (cAt z ((h - k) % h))
  let e := cScale (1 :: d) (cAdd (0 :: d) zk zc) fHalf
  let df := cScale (3 :: d) (cSub (2 :: d) zk zc) fHalf
  let o : Cplx := ⟨df.im, fNeg df.re⟩
  let w := cConj (trig c k n)
  cAdd (5 :: d) e (cMul (4 :: d) o w)

/-- `RH(x, Q)`, the packed half-length transform of an even length (44_real_codec.md R108). -/
def realHalf (c : Config) (d : Draw) (x : List F64) (q : Bool) : List Cplx :=
  let n := x.length
  let h := n / 2
  let z := ffte c (0 :: d) (tabulate h fun k => ⟨rAt x (2 * k), rAt x (2 * k + 1)⟩) true
  let bins := tabulate h fun k => realHalfBin c (k :: 1 :: d) z n k
  if q then bins ++ [⟨fSub (2 :: d) (cAt z 0).re (cAt z 0).im, fZero⟩] else bins

/-- The normalized RealSpectrum (44_real_codec.md R106, R110): bins 0 and, when included, `N/2` are scaled by `1/N`,
the others by `2/N`, each a product by the rounded reciprocal. -/
def realSpectrum (c : Config) (d : Draw) (x : List F64) (q : Bool) : List Cplx :=
  let n := x.length
  let bins :=
    if n % 2 = 0 then realHalf c (0 :: d) x q
    else (ffte c (0 :: d) (realToComplex x) true).take ((n + 1) / 2)
  let nyquist := n % 2 = 0 && q
  let s1 := fDiv (1 :: d) fOne (fOfNat n)
  let s2 := fDiv (2 :: d) fTwo (fOfNat n)
  tabulate bins.length fun k =>
    cScale (k :: 3 :: d) (cAt bins k) (if k = 0 || (nyquist && k = n / 2) then s1 else s2)

/-- The full conjugate-symmetric spectrum of `IS`: the bins, their conjugates, and the Nyquist bin when asked for and
`N` is even; missing bins are zero (44_real_codec.md R111, R112). -/
def fullSpectrum (sp : List Cplx) (n : Nat) (q : Bool) : List Cplx :=
  tabulate n fun k =>
    if k = 0 then cAt sp 0
    else if k < (n + 1) / 2 then cAt sp k
    else if 2 * k = n then (if q then cAt sp k else cZero)
    else cConj (cAt sp (n - k))

/-- `IS(S, N, Q)`, the full-length reconstruction (44_real_codec.md R112). -/
def inverseSimple (c : Config) (d : Draw) (sp : List Cplx) (n : Nat) (q : Bool) : List F64 :=
  (ffte c d (fullSpectrum sp n q) false).map Cplx.re

/-- Element `k` of the packed half-length spectrum of `IO` (44_real_codec.md R113). -/
def packedBin (c : Config) (d : Draw) (sp : List Cplx) (n : Nat) (q : Bool) (k : Nat) : Cplx :=
  let h := n / 2
  let x0 : Cplx := ⟨(cAt sp 0).re, fZero⟩
  let xh : Cplx := if q then ⟨(cAt sp h).re, fZero⟩ else cZero
  let xk := if k = 0 then x0 else cAt sp k
  let xc := cConj (if k = 0 then xh else cAt sp (h - k))
  let e := cAdd (0 :: d) xk xc
  let df := cSub (1 :: d) xk xc
  let o := cMul (2 :: d) df (trig c k n)
  ⟨fSub (3 :: d) e.re o.im, fAdd (4 :: d) e.im o.re⟩

/-- `IO(S, N, Q)`, the half-length reconstruction of an even length (44_real_codec.md R113). -/
def inverseOpt (c : Config) (d : Draw) (sp : List Cplx) (n : Nat) (q : Bool) : List F64 :=
  let z := ffte c (0 :: d) (tabulate (n / 2) fun k => packedBin c (k :: 1 :: d) sp n q k) false
  z.flatMap fun v => [v.re, v.im]

/-- Element 0 moves to index `⌊n/2⌋` (44_real_codec.md R117): `y[(k + ⌊n/2⌋) mod n] = x[k]`. -/
def shiftHalf (x : List Cplx) : List Cplx :=
  let n := x.length
  tabulate n fun j => cAt x ((j + (n - n / 2)) % n)

/-- `FFTREAL` (44_real_codec.md R107). -/
def execFftreal (s : State) : Host.Outcome State Fault Refusal :=
  let n := lenOf s
  runCommand s
    { empty := false, oddlen := false, badlen := s.cfg.nmax < n, input := .real n, output := .complex n }
    fun d => .complex (ffte s.cfg d (realToComplex (inputR s)) true)

/-- `FFTREALHALF[.Q]` (44_real_codec.md R109). -/
def execFftrealhalf (q : Bool) (s : State) : Host.Outcome State Fault Refusal :=
  let n := lenOf s
  runCommand s
    { empty := n = 0, oddlen := n % 2 = 1, badlen := s.cfg.nmax < n,
      input := .real n, output := .complex (n / 2 + q.toNat) }
    fun d => .complex (realHalf s.cfg d (inputR s) q)

/-- The output count of `FFTREALSPEC[.Q]` (30_encoding.md R67). -/
def spectrumCount (n : Nat) (q : Bool) : Nat := (n + 1) / 2 + if q && n % 2 = 0 then 1 else 0

/-- `FFTREALSPEC[.Q]` (44_real_codec.md R110). -/
def execFftrealspec (q : Bool) (s : State) : Host.Outcome State Fault Refusal :=
  let n := lenOf s
  runCommand s
    { empty := n = 0, oddlen := false, badlen := s.cfg.nmax < n,
      input := .real n, output := .complex (spectrumCount n q) }
    fun d => .complex (realSpectrum s.cfg d (inputR s) q)

/-- `IFFTREALS[.Q]` (44_real_codec.md R114). -/
def execIfftreals (q : Bool) (s : State) : Host.Outcome State Fault Refusal :=
  runCommand s
    { empty := false, oddlen := false, badlen := s.cfg.nmax < lenOf s || s.cfg.nmax < outlenOf s,
      input := .complex (lenOf s), output := .real (outlenOf s) }
    fun d => .real (inverseSimple s.cfg d (inputC s) (outlenOf s) q)

/-- `IFFTREALO[.Q]` (44_real_codec.md R115). -/
def execIfftrealo (q : Bool) (s : State) : Host.Outcome State Fault Refusal :=
  runCommand s
    { empty := false, oddlen := outlenOf s % 2 = 1, badlen := s.cfg.nmax < lenOf s || s.cfg.nmax < outlenOf s,
      input := .complex (lenOf s), output := .real (outlenOf s) }
    fun d => .real (inverseOpt s.cfg d (inputC s) (outlenOf s) q)

/-- `IFFTREAL[.Q]`: `IO` for an even output length, `IS` for an odd one (44_real_codec.md R116). -/
def execIfftreal (q : Bool) (s : State) : Host.Outcome State Fault Refusal :=
  runCommand s
    { empty := false, oddlen := false, badlen := s.cfg.nmax < lenOf s || s.cfg.nmax < outlenOf s,
      input := .complex (lenOf s), output := .real (outlenOf s) }
    fun d =>
      .real
        (if outlenOf s % 2 = 0 then inverseOpt s.cfg d (inputC s) (outlenOf s) q
         else inverseSimple s.cfg d (inputC s) (outlenOf s) q)

/-- `FFTSHIFT` (44_real_codec.md R117). -/
def execFftshift (s : State) : Host.Outcome State Fault Refusal :=
  let n := lenOf s
  runCommand s
    { empty := false, oddlen := false, badlen := s.cfg.nmax < n, input := .complex n, output := .complex n }
    fun _ => .complex (shiftHalf (inputC s))

end Sys2Proof.Machine
end

