-- ==== Sys2Proof/Machine/Dispatch.lean ====
section
/-! DEFINITION. One arm per command: the engine's step for a legal command word (60_exceptions.md R121). -/

namespace Sys2Proof.Machine

def exec (i : Instr) (s : State) : Host.Outcome State Fault Refusal :=
  match i with
  | .nop => Sys2Proof.Machine.execNop s
  | .fft forward => Sys2Proof.Machine.execFft forward s
  | .r2fft => Sys2Proof.Machine.execR2fft s
  | .bluestein => Sys2Proof.Machine.execBluestein s
  | .bitrev => Sys2Proof.Machine.execBitrev s
  | .bfstage stage => Sys2Proof.Machine.execBfstage stage s
  | .twtab => Sys2Proof.Machine.execTwtab s
  | .chirptab => Sys2Proof.Machine.execChirptab s
  | .fftreal => Sys2Proof.Machine.execFftreal s
  | .fftrealhalf q => Sys2Proof.Machine.execFftrealhalf q s
  | .fftrealspec q => Sys2Proof.Machine.execFftrealspec q s
  | .ifftreal q => Sys2Proof.Machine.execIfftreal q s
  | .ifftreals q => Sys2Proof.Machine.execIfftreals q s
  | .ifftrealo q => Sys2Proof.Machine.execIfftrealo q s
  | .fftshift => Sys2Proof.Machine.execFftshift s

end Sys2Proof.Machine
end

