-- ==== Sys2Proof/Machine/Engine.lean ====
section
/-! DEFINITION. The engine's step on the command word in CMD (60_exceptions.md R121), and the placing of a command. -/

namespace Sys2Proof.Machine

/-- The engine's step, enabled only when BUSY = 1 (60_exceptions.md R121): check 1 is the decoder's, the rest is the
command's. With BUSY = 0 nothing happens (log 15). -/
def engineStep (s : State) : Host.Outcome State Fault Refusal :=
  if s.status.busy then
    match decodeWord s.cmd with
    | .ok i => exec i s
    | .error _ => .next (errorCompletion s .badcmd)
  else .next s

/-- `s` with the command word `w` accepted as 60_exceptions.md R120 says, and the engine's step next (log 6). -/
def placeCommand (s : State) (w : Word) : State := { acceptCommand s w with agenda := .engine :: s.agenda }

end Sys2Proof.Machine
end

