-- ==== Sys2Proof/Machine/HostBus.lean ====
section
/-! DEFINITION. What a host access does (10_state.md R23 to R38, 20_memory.md R50, R51, R54, R55), and the reset input
(70_reset_and_hazards.md R132). -/

namespace Sys2Proof.Machine

/-- The offset of a register in the window (10_state.md R23). -/
def Csr.offset : Csr → Nat
  | .id => 0x00
  | .cfg => 0x04
  | .dmemw => 0x08
  | .ctrl => 0x0C
  | .status => 0x10
  | .cmd => 0x14
  | .len => 0x18
  | .outlen => 0x1C
  | .srcRe => 0x20
  | .srcIm => 0x24
  | .dstRe => 0x28
  | .dstIm => 0x2C
  | .outcnt => 0x30

/-- The register at an aligned offset; the offsets 0x34 to 0xFC are reserved (10_state.md R23, R38). -/
def csrAt : Nat → Option Csr
  | 0x00 => some .id
  | 0x04 => some .cfg
  | 0x08 => some .dmemw
  | 0x0C => some .ctrl
  | 0x10 => some .status
  | 0x14 => some .cmd
  | 0x18 => some .len
  | 0x1C => some .outlen
  | 0x20 => some .srcRe
  | 0x24 => some .srcIm
  | 0x28 => some .dstRe
  | 0x2C => some .dstIm
  | 0x30 => some .outcnt
  | _ => none

/-- The register's current value; no read has a side effect (20_memory.md R51). -/
def csrRead (s : State) : Csr → Word
  | .id => 0x46465442#32
  | .cfg => 0x00000100#32 ||| BitVec.ofNat 32 s.cfg.L
  | .dmemw => BitVec.ofNat 32 (s.cfg.dmemBytes / 8)
  | .ctrl => ctrlWord s.ie
  | .status => statusWord s.status
  | .cmd => s.cmd
  | .len => s.len
  | .outlen => s.outlen
  | .srcRe => s.srcRe
  | .srcIm => s.srcIm
  | .dstRe => s.dstRe
  | .dstIm => s.dstIm
  | .outcnt => s.outcnt

/-- The state with `STATUS.WIGN` set: a register write was ignored because BUSY = 1 (10_state.md R33). -/
def setWign (s : State) : State := { s with status := { s.status with wign := true } }

/-- The state with `STATUS.ACCV` set: the host touched DMEM while BUSY = 1 (10_state.md R32). -/
def setAccv (s : State) : State := { s with status := { s.status with accv := true } }

/-- A write that is ignored, setting WIGN, while BUSY = 1 (10_state.md R33). -/
def unlessBusy (s : State) (write : State → State) : State := if s.status.busy then setWign s else write s

/-- A 32-bit host write of `v` to a register (20_memory.md R51, 10_state.md R24 to R37). -/
def csrWrite (s : State) (r : Csr) (v : Word) : State :=
  match r with
  | .id | .cfg | .dmemw | .outcnt => s
  | .ctrl => updateIrq { s with ie := v.getLsbD 0 }
  | .status => acknowledge s v
  | .cmd => unlessBusy s fun s => acceptCommand s v
  | .len => unlessBusy s fun s => { s with len := v }
  | .outlen => unlessBusy s fun s => { s with outlen := v }
  | .srcRe => unlessBusy s fun s => { s with srcRe := v }
  | .srcIm => unlessBusy s fun s => { s with srcIm := v }
  | .dstRe => unlessBusy s fun s => { s with dstRe := v }
  | .dstIm => unlessBusy s fun s => { s with dstIm := v }

/-- The state with the bus's answer to the access (log 7). -/
def respond (s : State) (r : Response) : State := { s with resp := r }

/-- An access to the register window at offset `off` (20_memory.md R50): 32 bits wide and 4-byte aligned, or a bus
error with no effect. Reserved offsets read 0 and ignore writes (10_state.md R38). -/
def csrAccess (s : State) (off : Nat) (width : Nat) (data : Option (BitVec 64)) : State :=
  if width = 4 && off % 4 = 0 then
    match csrAt off, data with
    | some r, none => respond s (.read32 (csrRead s r))
    | some r, some v => respond (csrWrite s r (v.setWidth 32)) .written
    | none, none => respond s (.read32 0#32)
    | none, some _ => respond s .written
  else respond s .busError

/-- An access to the DMEM window at byte `a` (20_memory.md R54, R55): 64 bits wide, 8-byte aligned and inside DMEM, or
a bus error with no effect (log 9). While BUSY = 1 a write is dropped, a read returns 0, and ACCV is set. -/
def dmemAccess (s : State) (a : Nat) (width : Nat) (data : Option (BitVec 64)) : State :=
  if width = 8 && a % 8 = 0 && a + 8 ≤ s.cfg.dmemBytes then
    match s.status.busy, data with
    | true, none => respond (setAccv s) (.read64 0#64)
    | true, some _ => respond (setAccv s) .written
    | false, none => respond s (.read64 (memRead s a))
    | false, some v => respond { s with dmem := memWrite s.dmem a v } .written
  else respond s .busError

/-- An access at a host address: one that starts inside the register window is a register access, every other is a
DMEM access, which is legal only inside DMEM (20_memory.md R44, R55; log 8). -/
def busAccess (s : State) (address width : Nat) (data : Option (BitVec 64)) : State :=
  if s.cfg.base ≤ address && address < s.cfg.base + 256 then csrAccess s (address - s.cfg.base) width data
  else if s.cfg.dbase ≤ address then dmemAccess s (address - s.cfg.dbase) width data
  else respond s .busError

/-- One host access. -/
def hostAccess (s : State) : HostAccess → State
  | .read address width => busAccess s address width none
  | .write address width data => busAccess s address width (some data)

/-- The reset input (70_reset_and_hazards.md R132): every register to its reset value, `irq` to 0, a pending command
discarded, DMEM any value (R133; log 4). The configuration, what the outside does next, the last bus answer and the
counters of the free values go on (log 16). -/
def assertReset (s : State) : State :=
  { State.resetWith s.cfg with agenda := s.agenda, resp := s.resp, nanCtr := s.nanCtr, epoch := s.epoch + 1 }

end Sys2Proof.Machine
end

