-- ==== Sys2Proof/Machine/Step.lean ====
section
/-! DEFINITION. One step of the machine: the next event of the agenda, or, when none is left, the engine
(60_exceptions.md R121; log 5). -/

namespace Sys2Proof.Machine

/-- One step: a host access, the reset input, or the engine's step, as the agenda says. With an empty agenda the host
is silent and the engine moves, so a pending command always completes (60_exceptions.md R121, fairness). -/
def step (s : State) : Host.Outcome State Fault Refusal :=
  match s.agenda with
  | [] => engineStep s
  | .engine :: rest => engineStep { s with agenda := rest }
  | .host a :: rest => .next (hostAccess { s with agenda := rest } a)
  | .rst :: rest => .next (assertReset { s with agenda := rest })

/-- FFTB fetches nothing (10_state.md R22): the host writes command words to `CMD`. This stands for the next such
write, with the engine's step after it (log 6). -/
def State.withFetchWord (s : State) (nbits w : Nat) : State := placeCommand s (tableWord nbits w)

end Sys2Proof.Machine
end

