-- ==== Sys2Proof/Safety.lean ====
section
/-! DEFINITION. The terms in which claims are made: the invariant of FFTB, what a completion leaves and changes, and
the table of checks and buffers of every command (30_encoding.md R67, 60_exceptions.md R119), written here a second
time, apart from the commands' own definitions. -/

namespace Sys2Proof.Machine

/-- What holds of every state FFTB can be in. -/
structure Inv (s : State) : Prop where
  /-- DMEM is in canonical form (log 4). -/
  memWf : Memory.wf s.dmem
  /-- Every byte written lies inside DMEM (20_memory.md R44, R53, R55). -/
  memInside : ∀ x ∈ s.dmem, x.1 < s.cfg.dmemBytes
  /-- 10_state.md R43. -/
  irqLevel : s.irq = (s.ie && (s.status.done || s.status.err))
  /-- 10_state.md R30: DONE and ERR are never both 1. -/
  notDoneAndErr : ¬(s.status.done = true ∧ s.status.err = true)
  /-- 60_exceptions.md R120: acceptance clears DONE, ERR and ECODE, and nothing sets them before completion. -/
  busyClear : s.status.busy = true → s.status.done = false ∧ s.status.err = false ∧ s.status.ecode = 0#4
  /-- 60_exceptions.md R123: after a success ECODE is 0. -/
  doneCode : s.status.done = true → s.status.ecode = 0#4
  /-- 10_state.md R31: while ERR is 1, ECODE holds an error code. -/
  errCode : s.status.err = true → s.status.ecode ≠ 0#4
  /-- 60_exceptions.md R118: the codes 7 to 15 are never reported. -/
  codeRange : s.status.ecode.toNat ≤ 6

/-- A buffer of `count` words at the address in a register is legal (20_memory.md R49). -/
def BufferOk (s : State) (base : Word) (count : Nat) : Prop :=
  count = 0 ∨ (base.toNat % 8 = 0 ∧ base.toNat + 8 * count ≤ s.cfg.dmemBytes)

/-- The byte ranges of two buffers of `count` words share no byte (60_exceptions.md R119, check 6). -/
def Apart (a b : Word) (count : Nat) : Prop :=
  count = 0 ∨ a.toNat + 8 * count ≤ b.toNat ∨ b.toNat + 8 * count ≤ a.toNat

/-- The complex input buffers of `n` elements are legal. -/
def SourceOk (s : State) (n : Nat) : Prop := BufferOk s s.srcRe n ∧ BufferOk s s.srcIm n

/-- The complex output buffers of `n` elements are legal and apart. -/
def DestOk (s : State) (n : Nat) : Prop := BufferOk s s.dstRe n ∧ BufferOk s s.dstIm n ∧ Apart s.dstRe s.dstIm n

/-- Byte `a` belongs to the buffer of `count` words at `base`. -/
def InBuffer (a : Nat) (base : Word) (count : Nat) : Prop := base.toNat ≤ a ∧ a < base.toNat + 8 * count

/-- The registers the host owns, the configuration and the outside's own fields are as before: no command writes them
(10_state.md R20, 60_exceptions.md R122). -/
structure HostOwnedUnchanged (s t : State) : Prop where
  cfg : t.cfg = s.cfg
  ie : t.ie = s.ie
  cmd : t.cmd = s.cmd
  len : t.len = s.len
  outlen : t.outlen = s.outlen
  srcRe : t.srcRe = s.srcRe
  srcIm : t.srcIm = s.srcIm
  dstRe : t.dstRe = s.dstRe
  dstIm : t.dstIm = s.dstIm
  agenda : t.agenda = s.agenda
  resp : t.resp = s.resp
  epoch : t.epoch = s.epoch

/-- `t` is `s` after an error completion with code `e` (60_exceptions.md R122): no byte of DMEM and no register but
STATUS and OUTCNT changes, `irq = CTRL.IE`. -/
structure Failed (s t : State) (e : ErrCode) : Prop where
  host : HostOwnedUnchanged s t
  outcnt : t.outcnt = 0#32
  status : t.status = { s.status with busy := false, done := false, err := true, ecode := e.code }
  irq : t.irq = s.ie
  dmem : ∀ a, readByte t a = readByte s a

/-- What a success completion with `c` output elements does to the registers (60_exceptions.md R123): OUTCNT holds the
count, BUSY goes to 0 and DONE to 1, every other STATUS field is unchanged, `irq = CTRL.IE`. -/
structure Succeeded (s t : State) (c : Nat) : Prop where
  host : HostOwnedUnchanged s t
  outcnt : t.outcnt = BitVec.ofNat 32 c
  status : t.status = { s.status with busy := false, done := true }
  irq : t.irq = s.ie

/-- The complex input of `LEN` elements (20_memory.md R45): element `k` is the pair of the words at `SRC_RE + 8k` and
`SRC_IM + 8k`. -/
def complexInput (s : State) : List Cplx :=
  (List.range s.len.toNat).map fun k => ⟨memRead s (s.srcRe.toNat + 8 * k), memRead s (s.srcIm.toNat + 8 * k)⟩

/-- The real input of `LEN` elements (20_memory.md R45): element `k` is the word at `SRC_RE + 8k`. -/
def realInput (s : State) : List F64 := (List.range s.len.toNat).map fun k => memRead s (s.srcRe.toNat + 8 * k)

/-- `t` is `s` after a success completion that wrote nothing. -/
structure WroteNothing (s t : State) : Prop where
  done : Succeeded s t 0
  frame : ∀ a, readByte t a = readByte s a

/-- `t` is `s` after a success completion with the complex output `y`: element `k` stands at `DST_RE + 8k` and
`DST_IM + 8k`, and every other byte of DMEM reads as before (20_memory.md R45, R53). -/
structure WroteComplex (s t : State) (y : List Cplx) : Prop where
  done : Succeeded s t y.length
  re : ∀ k, k < y.length → memRead t (s.dstRe.toNat + 8 * k) = (cAt y k).re
  im : ∀ k, k < y.length → memRead t (s.dstIm.toNat + 8 * k) = (cAt y k).im
  frame : ∀ a, ¬InBuffer a s.dstRe y.length → ¬InBuffer a s.dstIm y.length → readByte t a = readByte s a

/-- `t` is `s` after a success completion with the real output `y` (20_memory.md R45, R53). -/
structure WroteReal (s t : State) (y : List F64) : Prop where
  done : Succeeded s t y.length
  re : ∀ k, k < y.length → memRead t (s.dstRe.toNat + 8 * k) = rAt y k
  frame : ∀ a, ¬InBuffer a s.dstRe y.length → readByte t a = readByte s a

/-- The input column of 30_encoding.md R67. -/
def declaredInput (s : State) : Instr → InShape
  | .nop | .twtab | .chirptab => .none
  | .fft _ | .r2fft | .bluestein | .bitrev | .bfstage _ | .fftshift => .complex s.len.toNat
  | .fftreal | .fftrealhalf _ | .fftrealspec _ => .real s.len.toNat
  | .ifftreal _ | .ifftreals _ | .ifftrealo _ => .complex s.len.toNat

/-- The output column of 30_encoding.md R67. -/
def declaredOutput (s : State) : Instr → OutShape
  | .nop => .none
  | .fft _ | .r2fft | .bluestein | .bitrev | .bfstage _ | .fftshift | .chirptab | .fftreal => .complex s.len.toNat
  | .twtab => .complex (s.len.toNat / 2)
  | .fftrealhalf q => .complex (s.len.toNat / 2 + q.toNat)
  | .fftrealspec q => .complex ((s.len.toNat + 1) / 2 + if q = true ∧ s.len.toNat % 2 = 0 then 1 else 0)
  | .ifftreal _ | .ifftreals _ | .ifftrealo _ => .real s.outlen.toNat

/-- The buffers a command uses, each with its count (60_exceptions.md R119, check 5). -/
def usedBuffers (s : State) (i : Instr) : List (Word × Nat) :=
  (match declaredInput s i with
    | .none => []
    | .complex n => [(s.srcRe, n), (s.srcIm, n)]
    | .real n => [(s.srcRe, n)]) ++
  (match declaredOutput s i with
    | .none => []
    | .complex c => [(s.dstRe, c), (s.dstIm, c)]
    | .real c => [(s.dstRe, c)])

/-- The condition of check 2 (60_exceptions.md R119, table). -/
def EmptyFails (s : State) : Instr → Prop
  | .fftrealhalf _ | .fftrealspec _ => s.len.toNat = 0
  | .nop | .fft _ | .r2fft | .bluestein | .bitrev | .bfstage _ | .twtab | .chirptab | .fftreal | .ifftreal _
  | .ifftreals _ | .ifftrealo _ | .fftshift => False

/-- The condition of check 3 (60_exceptions.md R119, table). -/
def OddFails (s : State) : Instr → Prop
  | .fftrealhalf _ => s.len.toNat % 2 = 1
  | .ifftrealo _ => s.outlen.toNat % 2 = 1
  | .nop | .fft _ | .r2fft | .bluestein | .bitrev | .bfstage _ | .twtab | .chirptab | .fftreal | .fftrealspec _
  | .ifftreal _ | .ifftreals _ | .fftshift => False

/-- `n` is a power of two (00_scope.md R6). -/
def IsPowerOfTwo (n : Nat) : Prop := ∃ k, n = 2 ^ k

/-- The condition of check 4 (60_exceptions.md R119, table). -/
def LengthFails (s : State) : Instr → Prop
  | .nop => False
  | .fft _ | .chirptab | .fftreal | .fftshift | .fftrealhalf _ | .fftrealspec _ => s.cfg.nmax < s.len.toNat
  | .r2fft | .bitrev => ¬IsPowerOfTwo s.len.toNat ∨ s.cfg.nmax < s.len.toNat
  | .bfstage t => ¬IsPowerOfTwo s.len.toNat ∨ s.len.toNat < 2 ∨ s.cfg.nmax < s.len.toNat ∨ s.len.toNat ≤ 2 ^ t
  | .bluestein => s.len.toNat < 3 ∨ s.cfg.nmax < s.len.toNat ∨ IsPowerOfTwo s.len.toNat
  | .twtab => ¬IsPowerOfTwo s.len.toNat ∨ 2 * s.cfg.nmax < s.len.toNat
  | .ifftreal _ | .ifftreals _ | .ifftrealo _ => s.cfg.nmax < s.len.toNat ∨ s.cfg.nmax < s.outlen.toNat

/-- The condition of check 5: a buffer the command uses is not legal. -/
def AddressFails (s : State) (i : Instr) : Prop := ∃ b ∈ usedBuffers s i, ¬BufferOk s b.1 b.2

/-- The condition of check 6: the two arrays of a complex output share a byte. -/
def OverlapFails (s : State) (i : Instr) : Prop :=
  match declaredOutput s i with
  | .complex c => ¬Apart s.dstRe s.dstIm c
  | .none | .real _ => False

/-- `e` is the code of the first of checks 2 to 6 that fails for the command `i` (60_exceptions.md R119). -/
def FirstFailure (s : State) (i : Instr) : ErrCode → Prop
  | .badcmd => False
  | .empty => EmptyFails s i
  | .oddlen => ¬EmptyFails s i ∧ OddFails s i
  | .len => ¬EmptyFails s i ∧ ¬OddFails s i ∧ LengthFails s i
  | .addr => ¬EmptyFails s i ∧ ¬OddFails s i ∧ ¬LengthFails s i ∧ AddressFails s i
  | .overlap => ¬EmptyFails s i ∧ ¬OddFails s i ∧ ¬LengthFails s i ∧ ¬AddressFails s i ∧ OverlapFails s i

/-- Every failing check of the command `i` ends it with its code and no other effect. -/
def FailsAsListed (i : Instr) : Prop :=
  ∀ (s : State) (e : ErrCode), FirstFailure s i e → ∃ t, exec i s = .next t ∧ Failed s t e

/-- Two encodings are equal, or both are NaNs: what equality means for results whose NaN encodings are free
(00_scope.md R11). -/
def SameUpToNaN (x y : F64) : Prop := x = y ∨ (fIsNaN x = true ∧ fIsNaN y = true)

/-- Two complex values are equal part by part, NaN encodings aside. -/
def SameC (a b : Cplx) : Prop := SameUpToNaN a.re b.re ∧ SameUpToNaN a.im b.im

/-- Two complex sequences are equal element by element, NaN encodings aside. -/
def SameSeq (x y : List Cplx) : Prop := x.length = y.length ∧ ∀ k, k < x.length → SameC (cAt x k) (cAt y k)

/-- The commands of a list one after the other, each on the state the one before it left. -/
def execAll : List Instr → State → Host.Outcome State Fault Refusal
  | [], s => .next s
  | i :: rest, s =>
    match exec i s with
    | .next t => execAll rest t
    | .fault f => .fault f
    | .refused r => .refused r

/-- The host's register write `csrw r, v` is the next event (30_encoding.md R72). -/
def NextIsCsrWrite (s : State) (r : Csr) (v : Word) (rest : List Event) : Prop :=
  s.agenda = .host (.write (s.cfg.base + r.offset) 4 (v.setWidth 64)) :: rest

/-- The engine's turn comes next: the scheduler picks it, or nothing else is left to happen (60_exceptions.md R121). -/
def EngineIsNext (s : State) : Prop := s.agenda = [] ∨ ∃ rest, s.agenda = .engine :: rest

/-- The state after the event at the head of the agenda was taken and changed nothing. -/
def dropEvent (s : State) : State := { s with agenda := s.agenda.tail }

/-- A finite binary64 value: neither a NaN nor an infinity. -/
def IsFinite (x : F64) : Prop := fIsNaN x = false ∧ fIsInf x = false

/-- One of the two zeros. -/
def IsZero (x : F64) : Prop := x = 0x0000000000000000#64 ∨ x = 0x8000000000000000#64

/-- The zero with the sign `neg`. -/
def signedZero (neg : Bool) : F64 := if neg then 0x8000000000000000#64 else 0x0000000000000000#64

/-- The infinity with the sign `neg`. -/
def signedInfinity (neg : Bool) : F64 := if neg then 0xFFF0000000000000#64 else 0x7FF0000000000000#64

/-- `r` is the value of `±n/d` units of 2^-1074 rounded to nearest, ties to even (00_scope.md R10): `fRound` of it, with
its sign, no NaN, an infinity exactly from half a unit past the largest finite value on, and otherwise no farther from
it than any finite value, with an even encoding where one is equally near (log 12). -/
structure CorrectlyRounded (r : F64) (neg : Bool) (n d : Nat) : Prop where
  rounded : r = fRound neg n d
  sign : fSign r = neg
  number : fIsNaN r = false
  overflow : fIsInf r = true ↔ (2 ^ 54 - 1) * 2 ^ 2044 * d ≤ n
  nearest : fIsInf r = false → ∀ y : F64, IsFinite y →
    ((n : Int) - fMag r * d).natAbs ≤ ((n : Int) - fMag y * d).natAbs
  tiesToEven : fIsInf r = false → ∀ y : F64, IsFinite y → fMag y ≠ fMag r →
    ((n : Int) - fMag r * d).natAbs = ((n : Int) - fMag y * d).natAbs → r.toNat % 2 = 0

/-- A finite binary64 value as a real number (00_scope.md R8 `f64`). -/
noncomputable def realOf (x : F64) : ℝ := (fInt x : ℝ) / 2 ^ 1074

/-- One unit in the last place of the real number `v`: `2^(e-52)` for `2^e ≤ |v| < 2^(e+1)`, and the least positive
binary64 value below the normal range (00_scope.md R12 (c)). -/
noncomputable def ulpOf (v : ℝ) : ℝ := 2 ^ max (Int.log 2 |v| - 52) (-1074)

end Sys2Proof.Machine
end

