-- ==== Sys2Proof/Certificates/Slice0/Obligations.lean ====
section
/-! DEFINITION. The statements about the model, for the provers. -/

open Sys2Proof Sys2Proof.Machine

/-! ### Encoding (30_encoding.md) -/

/-- R70: there is exactly one encoding of each legal command. Decoding the word of a well-formed command gives the
command back, with every field, and a word that decodes is that one word. -/
def Obligations.DecodeAndEncodeAgree : Prop :=
  (∀ i : Instr, i.wellFormed = true → decodeWord (encode i) = .ok i) ∧
  (∀ (w : Word) (i : Instr), decodeWord w = .ok i → i.wellFormed = true ∧ encode i = w)

/-- R68: a word selects an opcode exactly when it agrees with the opcode's match under its mask (opcode_table.json). -/
def Obligations.DecoderFollowsMatchAndMask : Prop :=
  (∀ (w : Word) (i : Instr), decodeWord w = .ok i → ∃ r ∈ opcodeTable, r.mnemonic = i.mnemonic ∧ r.selects w = true) ∧
  (∀ w : Word, ∀ r ∈ opcodeTable, r.selects w = true → ∃ i, decodeWord w = .ok i ∧ i.mnemonic = r.mnemonic)

/-- Words written out from R65 and R67 decode to the commands they stand for (95_test_vectors.md V50), as the host's
table word and as the bytes of a little-endian bus. -/
def Obligations.WrittenOutWordsDecode : Prop :=
  decodeTableWord 32 0x00000041 = some (.fft true) ∧ decodeTableWord 32 0x00000001 = some (.fft false) ∧
  decodeTableWord 32 0x00000205 = some (.bfstage 2) ∧ decodeTableWord 32 0x0000008A = some (.fftrealspec true) ∧
  decodeTableWord 32 0x00000007 = some .chirptab ∧ decodeTableWord 32 0x00000082 = none

/-! ### The step (60_exceptions.md R121) -/

/-- A step of the engine on a legal command word is `exec` of that command, after the scheduler's token is taken; with
BUSY = 0 the engine's turn changes nothing (R121). -/
def Obligations.StepRunsTheCommandInCmd : Prop :=
  ∀ s : State, EngineIsNext s →
    (∀ i : Instr, s.status.busy = true → decodeWord s.cmd = .ok i → step s = exec i (dropEvent s)) ∧
    (s.status.busy = false → step s = .next (dropEvent s))

/-- No state is stuck, faults or is refused: every step answers a next state (R121, R125; 93_implementation_defined.md). -/
def Obligations.StepAlwaysAnswersNext : Prop := ∀ s : State, ∃ t, step s = .next t

/-- R121, fairness: whatever the agenda holds, a pending command has completed (or a reset has discarded it) after at
most one step more than the agenda is long. -/
def Obligations.PendingCommandCompletes : Prop :=
  ∀ s : State, s.status.busy = true →
    ∃ (k : Nat) (t : State), k ≤ s.agenda.length + 1 ∧ Host.Core.run Sys2Proof.core k s = .next t ∧ t.status.busy = false

/-! ### Reset (70_reset_and_hazards.md) -/

/-- The register values of R134, as the host reads them, for every configuration that R5 allows. -/
def Obligations.ResetRegisterValues : Prop :=
  ∀ c : Config, c.wf →
    let s := State.resetWith c
    csrRead s .id = 0x46465442#32 ∧ (csrRead s .cfg).toNat = 0x100 + c.L ∧
    (csrRead s .dmemw).toNat * 8 = c.dmemBytes ∧ csrRead s .ctrl = 0#32 ∧ csrRead s .status = 0#32 ∧
    csrRead s .cmd = 0#32 ∧ csrRead s .len = 0#32 ∧ csrRead s .outlen = 0#32 ∧ csrRead s .srcRe = 0#32 ∧
    csrRead s .srcIm = 0#32 ∧ csrRead s .dstRe = 0#32 ∧ csrRead s .dstIm = 0#32 ∧ csrRead s .outcnt = 0#32 ∧
    s.irq = false ∧ Inv s

/-- R132: the reset input puts every register at its reset value, discards a pending command, and leaves the
configuration (so the ROM) as it was; DMEM then holds arbitrary contents (R133), which the model takes from a free
value (log 4). -/
def Obligations.ResetInputEffect : Prop :=
  ∀ (s : State) (rest : List Event), s.agenda = .rst :: rest →
    ∃ t, step s = .next t ∧ (∀ r : Csr, csrRead t r = csrRead (State.resetWith s.cfg) r) ∧ t.irq = false ∧
      t.status.busy = false ∧ t.cfg = s.cfg ∧ t.agenda = rest ∧
      (∀ a, readByte t a = Config.powerOnByte (s.epoch + 1) a)

/-! ### Registers (10_state.md) -/

/-- R28, the layout of `STATUS`: BUSY, DONE, ERR, ACCV, WIGN in bits 0 to 4, ECODE in bits 11:8, every other bit 0. -/
def Obligations.StatusWordLayout : Prop :=
  ∀ t : Status,
    (statusWord t).getLsbD 0 = t.busy ∧ (statusWord t).getLsbD 1 = t.done ∧ (statusWord t).getLsbD 2 = t.err ∧
    (statusWord t).getLsbD 3 = t.accv ∧ (statusWord t).getLsbD 4 = t.wign ∧ (statusWord t).extractLsb' 8 4 = t.ecode ∧
    (statusWord t).extractLsb' 5 3 = 0#3 ∧ (statusWord t).extractLsb' 12 20 = 0#20

/-- R28: a write to `STATUS` clears each W1C bit written as 1 and leaves every other bit, whether or not BUSY is 1; `irq`
follows (R43), and nothing else changes. -/
def Obligations.StatusWriteClearsOnes : Prop :=
  ∀ (s : State) (v : Word) (rest : List Event), NextIsCsrWrite s .status v rest →
    ∃ t, step s = .next t ∧
      csrRead t .status = csrRead s .status &&& ~~~(v &&& 0x1E#32) ∧
      t.irq = (s.ie && (t.status.done || t.status.err)) ∧
      t = { s with status := t.status, irq := t.irq, agenda := rest, resp := .written }

/-- R27: `CTRL.IE` is bit 0, it resets to 0, the other bits are RAZ/WI, and a write takes effect whether or not BUSY is
1; `irq` follows (R43), and nothing else changes. -/
def Obligations.CtrlWriteSetsInterruptEnable : Prop :=
  (∀ c : Config, csrRead (State.resetWith c) .ctrl = 0#32) ∧
  (∀ s : State, csrRead s .ctrl = if s.ie = true then 1#32 else 0#32) ∧
  ∀ (s : State) (v : Word) (rest : List Event), NextIsCsrWrite s .ctrl v rest →
    ∃ t, step s = .next t ∧ csrRead t .ctrl = v &&& 1#32 ∧
      t = { s with ie := v.getLsbD 0, irq := v.getLsbD 0 && (s.status.done || s.status.err), agenda := rest,
                   resp := .written }

/-- R120: a write to `CMD` while BUSY = 0 stores the word, whatever it is, sets BUSY, clears DONE, ERR and ECODE and so
`irq`, and changes nothing else. R35, R36: a write to an operand register while BUSY = 0 stores the whole word, and
changes nothing else. -/
def Obligations.WritesWhileIdleAcceptOrStore : Prop :=
  (∀ (s : State) (v : Word) (rest : List Event), s.status.busy = false → NextIsCsrWrite s .cmd v rest →
    step s = .next { s with
      cmd := v, status := { s.status with busy := true, done := false, err := false, ecode := 0#4 }, irq := false,
      agenda := rest, resp := .written }) ∧
  (∀ (s : State) (r : Csr) (v : Word) (rest : List Event), s.status.busy = false →
    r ∈ [Csr.len, Csr.outlen, Csr.srcRe, Csr.srcIm, Csr.dstRe, Csr.dstIm] → NextIsCsrWrite s r v rest →
    ∃ t, step s = .next t ∧ csrRead t r = v ∧ (∀ r', r' ≠ r → csrRead t r' = csrRead s r') ∧
      t.dmem = s.dmem ∧ t.irq = s.irq ∧ t.cfg = s.cfg ∧ t.agenda = rest ∧ t.epoch = s.epoch)

/-- R33: a write to `CMD` or an operand register while BUSY = 1 sets WIGN and has no other effect; WIGN stays set until
a write of 1 to its bit, or reset. -/
def Obligations.WritesWhileBusyOnlySetWign : Prop :=
  (∀ (s : State) (r : Csr) (v : Word) (rest : List Event), s.status.busy = true →
    r ∈ [Csr.cmd, Csr.len, Csr.outlen, Csr.srcRe, Csr.srcIm, Csr.dstRe, Csr.dstIm] → NextIsCsrWrite s r v rest →
    step s = .next { s with status := { s.status with wign := true }, agenda := rest, resp := .written }) ∧
  (∀ s t : State, step s = .next t → s.status.wign = true → t.status.wign = false →
    (∃ (v : BitVec 64) (rest : List Event),
      s.agenda = .host (.write (s.cfg.base + Csr.status.offset) 4 v) :: rest ∧ v.getLsbD 4 = true) ∨
    ∃ rest, s.agenda = .rst :: rest)

/-- R51: a 32-bit read returns the register's current value and has no side effect. R24, R25, R26: what `ID`, `CFG` and
`DMEMW` read as, always. R23: a write to a read-only register is ignored. R38: a write to a reserved offset has no effect
and a read there returns 0, whether or not BUSY is 1. -/
def Obligations.RegisterReadsAndIgnoredWrites : Prop :=
  (∀ s : State, csrRead s .id = 0x46465442#32 ∧
    (s.cfg.wf → (csrRead s .cfg).extractLsb' 0 5 = BitVec.ofNat 5 s.cfg.L ∧ (csrRead s .cfg).extractLsb' 5 3 = 0#3 ∧
      (csrRead s .cfg).extractLsb' 8 8 = 0x01#8 ∧ (csrRead s .cfg).extractLsb' 16 16 = 0#16 ∧
      (csrRead s .dmemw).toNat = s.cfg.dmemBytes / 8)) ∧
  (∀ (s : State) (r : Csr) (rest : List Event), s.agenda = .host (.read (s.cfg.base + r.offset) 4) :: rest →
    step s = .next { s with agenda := rest, resp := .read32 (csrRead s r) }) ∧
  (∀ (s : State) (r : Csr) (v : Word) (rest : List Event), r ∈ [Csr.id, Csr.cfg, Csr.dmemw, Csr.outcnt] →
    NextIsCsrWrite s r v rest → step s = .next { s with agenda := rest, resp := .written }) ∧
  (∀ (s : State) (off : Nat) (rest : List Event), 0x34 ≤ off → off ≤ 0xFC → off % 4 = 0 →
    (s.agenda = .host (.read (s.cfg.base + off) 4) :: rest →
      step s = .next { s with agenda := rest, resp := .read32 0#32 }) ∧
    (∀ v, s.agenda = .host (.write (s.cfg.base + off) 4 v) :: rest →
      step s = .next { s with agenda := rest, resp := .written }))

/-! ### Host access to DMEM (20_memory.md) -/

/-- R50: an access to the register window that is not 32 bits wide at a 4-byte-aligned offset gets a bus error; it reads
nothing, writes nothing and changes no status bit. -/
def Obligations.MalformedRegisterAccessIsBusError : Prop :=
  ∀ (s : State) (address width : Nat) (data : BitVec 64) (rest : List Event),
    s.cfg.base ≤ address → address < s.cfg.base + 256 → ¬(width = 4 ∧ (address - s.cfg.base) % 4 = 0) →
    (s.agenda = .host (.read address width) :: rest ∨ s.agenda = .host (.write address width data) :: rest) →
      step s = .next { s with agenda := rest, resp := .busError }

/-- R55's last sentences, for every value of BUSY: an access outside the register window that is not a 64-bit one at an
8-byte-aligned address inside DMEM gets a bus error and changes nothing. That this also holds while BUSY = 1, where R55
is silent, is the model's reading (log 9), and so is the routing of addresses outside both windows (log 8). -/
def Obligations.MalformedDmemAccessIsBusError : Prop :=
  ∀ (s : State) (address width : Nat) (data : BitVec 64) (rest : List Event),
    ¬(s.cfg.base ≤ address ∧ address < s.cfg.base + 256) →
    ¬(width = 8 ∧ s.cfg.dbase ≤ address ∧ (address - s.cfg.dbase) % 8 = 0 ∧
      address + 8 ≤ s.cfg.dbase + s.cfg.dmemBytes) →
    (s.agenda = .host (.read address width) :: rest ∨ s.agenda = .host (.write address width data) :: rest) →
      step s = .next { s with agenda := rest, resp := .busError }

/-- R55: while BUSY = 0 a legal DMEM write stores the word and changes no other byte and no register, a legal read
returns the word and changes nothing, and any other access outside the register window gets a bus error with no effect
and no status change. That an address outside both windows gets it too is the model's reading (log 8). -/
def Obligations.DmemAccessWhileIdle : Prop :=
  ∀ (s : State) (rest : List Event), s.cfg.wf → s.status.busy = false →
    (∀ (a : Nat) (v : F64), a % 8 = 0 → a + 8 ≤ s.cfg.dmemBytes →
      (s.agenda = .host (.write (s.cfg.dbase + a) 8 v) :: rest →
        ∃ t, step s = .next t ∧ memRead t a = v ∧ (∀ b, ¬(a ≤ b ∧ b < a + 8) → readByte t b = readByte s b) ∧
          t = { s with dmem := t.dmem, agenda := rest, resp := .written }) ∧
      (s.agenda = .host (.read (s.cfg.dbase + a) 8) :: rest →
        step s = .next { s with agenda := rest, resp := .read64 (memRead s a) })) ∧
    (∀ (address width : Nat) (data : BitVec 64), ¬(s.cfg.base ≤ address ∧ address < s.cfg.base + 256) →
      ¬(width = 8 ∧ ∃ a, address = s.cfg.dbase + a ∧ a % 8 = 0 ∧ a + 8 ≤ s.cfg.dmemBytes) →
      (s.agenda = .host (.read address width) :: rest ∨ s.agenda = .host (.write address width data) :: rest) →
        step s = .next { s with agenda := rest, resp := .busError })

/-- R54: while BUSY = 1 a host DMEM write is dropped and a host DMEM read returns the word 0, and either sets ACCV;
nothing else changes. -/
def Obligations.DmemAccessWhileBusy : Prop :=
  ∀ (s : State) (a : Nat) (rest : List Event), s.cfg.wf → s.status.busy = true → a % 8 = 0 → a + 8 ≤ s.cfg.dmemBytes →
    (∀ v, s.agenda = .host (.write (s.cfg.dbase + a) 8 v) :: rest →
      step s = .next { s with status := { s.status with accv := true }, agenda := rest, resp := .written }) ∧
    (s.agenda = .host (.read (s.cfg.dbase + a) 8) :: rest →
      step s = .next { s with status := { s.status with accv := true }, agenda := rest, resp := .read64 0#64 })

/-- R47: byte `i` of a DMEM word stands at `a + i`. -/
def Obligations.DmemWordsAreLittleEndian : Prop :=
  ∀ (s : State) (a i : Nat), i < 8 → (memRead s a).extractLsb' (8 * i) 8 = readByte s (a + i)

/-! ### The whole machine -/

/-- Every step keeps the invariant: DMEM in canonical form and inside its size, `irq = IE AND (DONE OR ERR)` (R43), DONE
and ERR never both 1 (R30), BUSY, DONE, ERR and ECODE in step with each other (R31, R120, R123), no reserved code
(R118). -/
def Obligations.StepKeepsInvariant : Prop :=
  ∀ s t : State, Inv s → step s = .next t → Inv t

/-- Only these events change a register or DMEM: the operand registers by the host's write while BUSY = 0 (R20), `CMD`
by acceptance (R34), `CTRL` by the host's write (R27), `OUTCNT` at completion (R37), DMEM by the host's write while BUSY =
0 or at completion (R53, R55), or all by reset; the configuration never changes (R19). -/
def Obligations.RegistersChangeOnlyAtTheirEvents : Prop :=
  ∀ s t : State, step s = .next t →
    let writes (r : Csr) (v : BitVec 64) := ∃ rest, s.agenda = .host (.write (s.cfg.base + r.offset) 4 v) :: rest
    let completion := s.status.busy = true ∧ EngineIsNext s
    let reset := ∃ rest, s.agenda = .rst :: rest
    t.cfg = s.cfg ∧
    (∀ r, r ∈ [Csr.len, Csr.outlen, Csr.srcRe, Csr.srcIm, Csr.dstRe, Csr.dstIm, Csr.cmd] → csrRead t r ≠ csrRead s r →
      (s.status.busy = false ∧ ∃ v, writes r v ∧ csrRead t r = v.setWidth 32) ∨ reset) ∧
    (csrRead t .ctrl ≠ csrRead s .ctrl → (∃ v, writes .ctrl v) ∨ reset) ∧
    (csrRead t .outcnt ≠ csrRead s .outcnt → completion ∨ reset) ∧
    (∀ a, readByte t a ≠ readByte s a →
      completion ∨ reset ∨
      (s.status.busy = false ∧ ∃ (b : Nat) (v : BitVec 64) (rest : List Event),
        s.agenda = .host (.write (s.cfg.dbase + b) 8 v) :: rest ∧ b ≤ a ∧ a < b + 8))

/-- R53: a command changes no DMEM byte outside the destination buffers its row of R67 declares. -/
def Obligations.CommandWritesOnlyItsDestination : Prop :=
  ∀ (i : Instr) (s t : State) (a : Nat), exec i s = .next t →
    (match declaredOutput s i with
      | .none => True
      | .complex c => ¬InBuffer a s.dstRe c ∧ ¬InBuffer a s.dstIm c
      | .real c => ¬InBuffer a s.dstRe c) →
    readByte t a = readByte s a

/-- R119, R122: the first of checks 1 to 6 that fails ends the command with its code and nothing else happens: no DMEM
byte and no register but `STATUS` and `OUTCNT` changes. Check 1 is the engine's, on the word in `CMD`; checks 2 to 6 are
the command's. -/
def Obligations.FirstFailingCheckEndsTheCommand : Prop :=
  (∀ s : State, s.status.busy = true → EngineIsNext s → (∀ r ∈ opcodeTable, r.selects s.cmd = false) →
    ∃ t, step s = .next t ∧ Failed (dropEvent s) t .badcmd) ∧
  ∀ i : Instr, FailsAsListed i

/-- When no check fails, the command succeeds and `OUTCNT` is the count of R67's last column. -/
def Obligations.PassingCommandSucceeds : Prop :=
  ∀ (i : Instr) (s : State), (∀ e, ¬FirstFailure s i e) →
    ∃ t, exec i s = .next t ∧
      Succeeded s t (match declaredOutput s i with | .none => 0 | .complex c => c | .real c => c)

/-- While BUSY = 1 no host access changes a byte of DMEM, `CMD`, an operand register or BUSY (R33, R54): the host can
neither disturb a command nor see it part-way (R57). The counter of the free NaN encodings (log 3) stays too. -/
def Obligations.HostCannotDisturbACommand : Prop :=
  ∀ (s : State) (h : HostAccess) (rest : List Event), s.status.busy = true → s.agenda = .host h :: rest →
    ∃ t, step s = .next t ∧ t.status.busy = true ∧ t.dmem = s.dmem ∧ t.epoch = s.epoch ∧
      (∀ a, readByte t a = readByte s a) ∧ t.nanCtr = s.nanCtr ∧ t.cmd = s.cmd ∧ t.len = s.len ∧
      t.outlen = s.outlen ∧ t.srcRe = s.srcRe ∧ t.srcIm = s.srcIm ∧ t.dstRe = s.dstRe ∧ t.dstIm = s.dstIm ∧
      t.outcnt = s.outcnt ∧ t.cfg = s.cfg ∧ (∀ v, t.resp = .read64 v → v = 0#64)

/-- R28's columns "set by" and "cleared by": only these events change a field of `STATUS`, in every state that meets the
invariant. -/
def Obligations.FlagsChangeOnlyAtTheirEvents : Prop :=
  ∀ s t : State, Inv s → step s = .next t →
    let writes (r : Csr) (v : BitVec 64) := ∃ rest, s.agenda = .host (.write (s.cfg.base + r.offset) 4 v) :: rest
    let acceptance := s.status.busy = false ∧ t.status.busy = true ∧ ∃ v, writes .cmd v
    let completion := s.status.busy = true ∧ t.status.busy = false ∧ EngineIsNext s
    let reset := ∃ rest, s.agenda = .rst :: rest
    (s.status.busy = false → t.status.busy = true → acceptance) ∧
    (s.status.busy = true → t.status.busy = false → completion ∨ reset) ∧
    (s.status.done = false → t.status.done = true → completion ∧ t.status.err = false) ∧
    (s.status.done = true → t.status.done = false → (∃ v, writes .status v ∧ v.getLsbD 1 = true) ∨ acceptance ∨ reset) ∧
    (s.status.err = false → t.status.err = true → completion ∧ t.status.done = false ∧ t.status.ecode ≠ 0#4) ∧
    (s.status.err = true → t.status.err = false → (∃ v, writes .status v ∧ v.getLsbD 2 = true) ∨ acceptance ∨ reset) ∧
    (s.status.accv = false → t.status.accv = true →
      s.status.busy = true ∧ ∃ (a : Nat) (v : BitVec 64) (rest : List Event), a + 8 ≤ s.cfg.dmemBytes ∧
        (s.agenda = .host (.read (s.cfg.dbase + a) 8) :: rest ∨ s.agenda = .host (.write (s.cfg.dbase + a) 8 v) :: rest)) ∧
    (s.status.accv = true → t.status.accv = false → (∃ v, writes .status v ∧ v.getLsbD 3 = true) ∨ reset) ∧
    (s.status.wign = false → t.status.wign = true →
      s.status.busy = true ∧ ∃ r v, r ∈ [Csr.cmd, Csr.len, Csr.outlen, Csr.srcRe, Csr.srcIm, Csr.dstRe, Csr.dstIm] ∧
        writes r v) ∧
    (s.status.wign = true → t.status.wign = false → (∃ v, writes .status v ∧ v.getLsbD 4 = true) ∨ reset) ∧
    (t.status.ecode ≠ s.status.ecode →
      (completion ∧ t.status.err = true) ∨ (acceptance ∧ t.status.ecode = 0#4) ∨ reset)

/-- No command reads a DMEM word it was not given as input (R133): two machines that differ only in DMEM, and agree on
the bytes of the command's input buffers, end the command with the same registers, and, when no check fails, with the
same bytes in its output buffers. That the NaN encodings of the two runs are equal is the model's shared draw (log 3). -/
def Obligations.OutputDependsOnInputBuffersOnly : Prop :=
  ∀ (i : Instr) (s t : State) (m : Memory) (e : Nat), exec i s = .next t →
    (∀ a, (match declaredInput s i with
        | .none => False
        | .complex n => InBuffer a s.srcRe n ∨ InBuffer a s.srcIm n
        | .real n => InBuffer a s.srcRe n) → readByte { s with dmem := m, epoch := e } a = readByte s a) →
    ∃ t', exec i { s with dmem := m, epoch := e } = .next t' ∧ t' = { t with dmem := t'.dmem, epoch := e } ∧
      ((∀ c, ¬FirstFailure s i c) →
        ∀ a, (match declaredOutput s i with
          | .none => False
          | .complex c => InBuffer a s.dstRe c ∨ InBuffer a s.dstIm c
          | .real c => InBuffer a s.dstRe c) → readByte t' a = readByte t a)

/-- R138: a real input uses `SRC_RE` only, a real output `DST_RE` only: the other register changes nothing. That
the NaN encodings of the two runs are equal is the model's shared draw (log 3). -/
def Obligations.RealOperandsIgnoreTheImaginaryRegister : Prop :=
  (∀ (i : Instr) (s t : State) (n : Nat) (v : Word), declaredInput s i = .real n → exec i s = .next t →
    exec i { s with srcIm := v } = .next { t with srcIm := v }) ∧
  (∀ (i : Instr) (s t : State) (n : Nat) (v : Word), declaredOutput s i = .real n → exec i s = .next t →
    exec i { s with dstIm := v } = .next { t with dstIm := v })

/-! ### The commands -/

/-- R105: `NOP` does nothing but complete; every other word with OP = 0 is illegal. -/
def Obligations.NopOnlyCompletes : Prop :=
  (∀ w : Word, w.toNat % 64 = 0 → (decodeWord w = .ok .nop ↔ w = 0#32) ∧ ∀ i, decodeWord w = .ok i → i = .nop) ∧
  ∀ s : State, ∃ t, exec .nop s = .next t ∧ WroteNothing s t

/-- R104: `FFTE` of the input in the direction of D, for every length up to NMAX, 0 and 1 included. -/
def Obligations.FftWritesTheEngineTransform : Prop :=
  ∀ forward : Bool,
    (∀ s : State, s.len.toNat ≤ s.cfg.nmax → SourceOk s s.len.toNat → DestOk s s.len.toNat →
      ∃ t, exec (.fft forward) s = .next t ∧ t.outcnt = s.len ∧
        WroteComplex s t (ffte s.cfg [s.nanCtr] (complexInput s) forward)) ∧
    FailsAsListed (.fft forward)

/-- R89: `R2` of the input. R85, R86: `R2` is the bit-reversal and then the passes `2^0 … 2^(b-1)`, whatever NaN
encodings are drawn; so `BITREV`, then `BFSTAGE S=0` to `S=b-1`, each reading the previous output, leave the DMEM that
one `R2FFT` leaves, NaN encodings aside (R11). -/
def Obligations.R2fftWritesTheRadix2Transform : Prop :=
  (∀ s : State, IsPowerOfTwo s.len.toNat → s.len.toNat ≤ s.cfg.nmax → SourceOk s s.len.toNat → DestOk s s.len.toNat →
    ∃ t, exec .r2fft s = .next t ∧ t.outcnt = s.len ∧ WroteComplex s t (r2 s.cfg [s.nanCtr] (complexInput s))) ∧
  (∀ (c : Config) (d : Draw) (e : Nat → Draw) (b : Nat) (x : List Cplx), x.length = 2 ^ b →
    SameSeq (r2 c d x) ((List.range b).foldl (fun a t => stage c (e t) a (2 ^ t)) (bitRevPermute x))) ∧
  (∀ (s : State) (b : Nat), s.len.toNat = 2 ^ b → s.len.toNat ≤ s.cfg.nmax → SourceOk s s.len.toNat →
    DestOk s s.len.toNat →
    ∃ t u v, exec .r2fft s = .next t ∧ exec .bitrev s = .next u ∧
      execAll ((List.range b).map .bfstage) { u with srcRe := u.dstRe, srcIm := u.dstIm } = .next v ∧
      (∀ k, k < s.len.toNat →
        SameUpToNaN (memRead v (s.dstRe.toNat + 8 * k)) (memRead t (s.dstRe.toNat + 8 * k)) ∧
        SameUpToNaN (memRead v (s.dstIm.toNat + 8 * k)) (memRead t (s.dstIm.toNat + 8 * k))) ∧
      (∀ a, ¬InBuffer a s.dstRe s.len.toNat → ¬InBuffer a s.dstIm s.len.toNat → readByte v a = readByte t a)) ∧
  FailsAsListed .r2fft

/-- R99: `BS` of the input. R91 to R95, element by element: the input times the conjugate chirp, padded with zeros (A);
the chirp and its mirror (B); the product P of their transforms; its inverse transform, scaled by `1.0 / m`, times the
conjugate chirp. The equations hold whatever NaN encodings are drawn, NaN encodings aside (R11). -/
def Obligations.BluesteinWritesTheChirpTransform : Prop :=
  (∀ s : State, 3 ≤ s.len.toNat → s.len.toNat ≤ s.cfg.nmax → ¬IsPowerOfTwo s.len.toNat → SourceOk s s.len.toNat →
    DestOk s s.len.toNat →
    ∃ t, exec .bluestein s = .next t ∧ t.outcnt = s.len ∧ WroteComplex s t (bluestein s.cfg [s.nanCtr] (complexInput s))) ∧
  (∀ (c : Config) (d e : Draw) (x : List Cplx), 3 ≤ x.length →
    let n := x.length
    let m := bluesteinSize n
    let ch (k : Nat) := trig c (k * k % (2 * n)) (2 * n)
    let a := (List.range m).map fun k => if k < n then cMul e (cAt x k) (cConj (ch k)) else ⟨0#64, 0#64⟩
    let b := (List.range m).map fun p => if m - n + 1 ≤ p then ch (m - p) else if p < n then ch p else ⟨0#64, 0#64⟩
    let p := (List.range m).map fun k => cMul e (cAt (ffte c e a true) k) (cAt (ffte c e b true) k)
    let q := ffte c e p false
    (bluestein c d x).length = n ∧
    ∀ k, k < n →
      SameC (cAt (bluestein c d x) k)
        (cMul e (cScale e (cAt q k) (fDiv e fOne (fOfNat m))) (cConj (ch k)))) ∧
  FailsAsListed .bluestein

/-- R87: element `k` of the input stands at the bit-reversed index of the output, bit for bit. -/
def Obligations.BitrevMovesToReversedIndex : Prop :=
  (∀ (s : State) (b : Nat), s.len.toNat = 2 ^ b → s.len.toNat ≤ s.cfg.nmax → SourceOk s s.len.toNat →
    DestOk s s.len.toNat →
    ∃ t y, exec .bitrev s = .next t ∧ t.outcnt = s.len ∧ WroteComplex s t y ∧ y.length = s.len.toNat ∧
      ∀ k, k < s.len.toNat →
        cAt y (bitRev b k) = ⟨memRead s (s.srcRe.toNat + 8 * k), memRead s (s.srcIm.toNat + 8 * k)⟩) ∧
  FailsAsListed .bitrev

/-- R88: one butterfly pass of half-width `2^t` on the input as it stands. -/
def Obligations.BfstageWritesOnePass : Prop :=
  ∀ stageIndex : Nat,
    (∀ s : State, IsPowerOfTwo s.len.toNat → s.len.toNat ≤ s.cfg.nmax → 2 ^ stageIndex < s.len.toNat →
      SourceOk s s.len.toNat → DestOk s s.len.toNat →
      ∃ t, exec (.bfstage stageIndex) s = .next t ∧ t.outcnt = s.len ∧
        WroteComplex s t (stage s.cfg [s.nanCtr] (complexInput s) (2 ^ stageIndex))) ∧
    FailsAsListed (.bfstage stageIndex)

/-- R83: the twiddle table of size LEN. -/
def Obligations.TwtabWritesTheTwiddleTable : Prop :=
  (∀ s : State, IsPowerOfTwo s.len.toNat → s.len.toNat ≤ 2 * s.cfg.nmax → DestOk s (s.len.toNat / 2) →
    ∃ t y, exec .twtab s = .next t ∧ WroteComplex s t y ∧ y.length = s.len.toNat / 2 ∧
      ∀ k, k < s.len.toNat / 2 → cAt y k = trig s.cfg k s.len.toNat) ∧
  FailsAsListed .twtab

/-- R98: the chirp of length LEN, its phase index reduced before it is scaled. -/
def Obligations.ChirptabWritesTheChirp : Prop :=
  (∀ s : State, s.len.toNat ≤ s.cfg.nmax → DestOk s s.len.toNat →
    ∃ t y, exec .chirptab s = .next t ∧ t.outcnt = s.len ∧ WroteComplex s t y ∧ y.length = s.len.toNat ∧
      ∀ k, k < s.len.toNat → cAt y k = trig s.cfg (k * k % (2 * s.len.toNat)) (2 * s.len.toNat)) ∧
  FailsAsListed .chirptab

/-- R107: the complex FFT of a real signal: element `k` of the input is the word at `SRC_RE + 8k` (R45), its imaginary
part +0. -/
def Obligations.FftrealWritesTheFullSpectrum : Prop :=
  (∀ s : State, s.len.toNat ≤ s.cfg.nmax → BufferOk s s.srcRe s.len.toNat → DestOk s s.len.toNat →
    ∃ t, exec .fftreal s = .next t ∧ t.outcnt = s.len ∧
      WroteComplex s t
        (ffte s.cfg [s.nanCtr] ((realInput s).map fun v => ⟨v, 0#64⟩) true)) ∧
  FailsAsListed .fftreal

/-- R109: the packed half-length transform of an even length, `N/2 + Q` bins. R108, bin by bin, with `z` the transform
of the packed pairs and the Nyquist bin last: the equations hold whatever NaN encodings are drawn, NaN encodings
aside (R11). -/
def Obligations.FftrealhalfWritesTheHalfSpectrum : Prop :=
  realOf fHalf = 1 / 2 ∧
  ∀ q : Bool,
    (∀ s : State, s.len.toNat ≠ 0 → s.len.toNat % 2 = 0 → s.len.toNat ≤ s.cfg.nmax →
      BufferOk s s.srcRe s.len.toNat → DestOk s (s.len.toNat / 2 + q.toNat) →
      ∃ t, exec (.fftrealhalf q) s = .next t ∧
        t.outcnt.toNat = (s.len.toNat / 2 + q.toNat) ∧
        WroteComplex s t (realHalf s.cfg [s.nanCtr] (realInput s) q)) ∧
    (∀ (c : Config) (d e : Draw) (x : List F64) (h : Nat), x.length = 2 * h → 1 ≤ h →
      let z := ffte c e ((List.range h).map fun k => ⟨rAt x (2 * k), rAt x (2 * k + 1)⟩) true
      (realHalf c d x q).length = h + q.toNat ∧
      (∀ k, k < h →
        let zc := cConj (cAt z ((h - k) % h))
        let ev := cScale e (cAdd e (cAt z k) zc) fHalf
        let df := cScale e (cSub e (cAt z k) zc) fHalf
        SameC (cAt (realHalf c d x q) k) (cAdd e ev (cMul e ⟨df.im, fNeg df.re⟩ (cConj (trig c k (2 * h)))))) ∧
      (q = true → SameC (cAt (realHalf c d x q) h) ⟨fSub e (cAt z 0).re (cAt z 0).im, 0#64⟩)) ∧
    FailsAsListed (.fftrealhalf q)

/-- R110: the normalized half spectrum: bin `k` of the fast path for an even length, of the full transform for an odd
one, times `1.0 / N` for bin 0 and the Nyquist bin and `2.0 / N` for the others, each scale one rounded division of the
numbers 1, 2 and `N`, every length that R5 allows (up to 2^28) being exact in binary64,
whatever NaN encodings are drawn and NaN encodings aside (R11). For an odd length Q is ignored: the two forms end in the
same state; that their NaN encodings are equal too is the model's shared draw (log 3). -/
def Obligations.FftrealspecWritesTheNormalizedSpectrum : Prop :=
  realOf fOne = 1 ∧ realOf fTwo = 2 ∧ (∀ n : Nat, 1 ≤ n → n ≤ 2 ^ 28 → realOf (fOfNat n) = n) ∧
  ∀ q : Bool,
    (∀ s : State, s.len.toNat ≠ 0 → s.len.toNat ≤ s.cfg.nmax → BufferOk s s.srcRe s.len.toNat →
      DestOk s (spectrumCount s.len.toNat q) →
      ∃ t, exec (.fftrealspec q) s = .next t ∧ t.outcnt = BitVec.ofNat 32 (spectrumCount s.len.toNat q) ∧
        WroteComplex s t (realSpectrum s.cfg [s.nanCtr] (realInput s) q)) ∧
    (∀ (c : Config) (d e : Draw) (x : List F64), 1 ≤ x.length →
      let n := x.length
      let bins := if n % 2 = 0 then realHalf c e x q else ffte c e (x.map fun v => ⟨v, 0#64⟩) true
      (realSpectrum c d x q).length = (n + 1) / 2 + (if q = true ∧ n % 2 = 0 then 1 else 0) ∧
      ∀ k, k < (realSpectrum c d x q).length →
        SameC (cAt (realSpectrum c d x q) k)
          (cScale e (cAt bins k)
            (fDiv e (if k = 0 ∨ (q = true ∧ n % 2 = 0 ∧ k = n / 2) then fOne else fTwo) (fOfNat n)))) ∧
    (∀ s : State, s.len.toNat % 2 = 1 → exec (.fftrealspec q) s = exec (.fftrealspec !q) s) ∧
    FailsAsListed (.fftrealspec q)

/-- R114: the full-length reconstruction `IS`. R112: its words are the real channel of the inverse transform of the full
spectrum, whatever NaN encodings are drawn and NaN encodings aside (R11). -/
def Obligations.IfftrealsWritesTheFullReconstruction : Prop :=
  ∀ q : Bool,
    (∀ s : State, s.len.toNat ≤ s.cfg.nmax → s.outlen.toNat ≤ s.cfg.nmax → SourceOk s s.len.toNat →
      BufferOk s s.dstRe s.outlen.toNat →
      ∃ t, exec (.ifftreals q) s = .next t ∧ t.outcnt = s.outlen ∧
        WroteReal s t (inverseSimple s.cfg [s.nanCtr] (complexInput s) s.outlen.toNat q)) ∧
    (∀ (c : Config) (d e : Draw) (sp : List Cplx) (n : Nat),
      (inverseSimple c d sp n q).length = n ∧
      ∀ k, k < n →
        SameUpToNaN (rAt (inverseSimple c d sp n q) k) (cAt (ffte c e (fullSpectrum sp n q) false) k).re) ∧
    FailsAsListed (.ifftreals q)

/-- R115: the half-length reconstruction `IO` of an even output length. R113: the words `2j` and `2j+1` are the parts of
element `j` of the inverse transform of the packed bins, whatever NaN encodings are drawn and NaN encodings
aside (R11). -/
def Obligations.IfftrealoWritesTheHalfReconstruction : Prop :=
  ∀ q : Bool,
    (∀ s : State, s.outlen.toNat % 2 = 0 → s.len.toNat ≤ s.cfg.nmax → s.outlen.toNat ≤ s.cfg.nmax →
      SourceOk s s.len.toNat → BufferOk s s.dstRe s.outlen.toNat →
      ∃ t, exec (.ifftrealo q) s = .next t ∧ t.outcnt = s.outlen ∧
        WroteReal s t (inverseOpt s.cfg [s.nanCtr] (complexInput s) s.outlen.toNat q)) ∧
    (∀ (c : Config) (d e : Draw) (sp : List Cplx) (h : Nat),
      let x0 : Cplx := ⟨(cAt sp 0).re, 0#64⟩
      let xh : Cplx := if q = true then ⟨(cAt sp h).re, 0#64⟩ else ⟨0#64, 0#64⟩
      let packed := (List.range h).map fun k =>
        let xk := if k = 0 then x0 else cAt sp k
        let xc := cConj (if k = 0 then xh else cAt sp (h - k))
        let ev := cAdd e xk xc
        let o := cMul e (cSub e xk xc) (trig c k (2 * h))
        (⟨fSub e ev.re o.im, fAdd e ev.im o.re⟩ : Cplx)
      let z := ffte c e packed false
      (inverseOpt c d sp (2 * h) q).length = 2 * h ∧
      ∀ j, j < h →
        SameUpToNaN (rAt (inverseOpt c d sp (2 * h) q) (2 * j)) (cAt z j).re ∧
        SameUpToNaN (rAt (inverseOpt c d sp (2 * h) q) (2 * j + 1)) (cAt z j).im) ∧
    FailsAsListed (.ifftrealo q)

/-- R116: the words of `IFFTREALO` for an even output length and of `IFFTREALS` for an odd one, bit for bit. That the NaN
encodings of the two commands are equal is the model's shared draw (log 3). -/
def Obligations.IfftrealChoosesByParity : Prop :=
  ∀ q : Bool,
    (∀ s : State, s.len.toNat ≤ s.cfg.nmax → s.outlen.toNat ≤ s.cfg.nmax → SourceOk s s.len.toNat →
      BufferOk s s.dstRe s.outlen.toNat →
      ∃ t, exec (.ifftreal q) s = .next t ∧ t.outcnt = s.outlen ∧
        exec (if s.outlen.toNat % 2 = 0 then .ifftrealo q else .ifftreals q) s = .next t ∧
        WroteReal s t
          (if s.outlen.toNat % 2 = 0 then inverseOpt s.cfg [s.nanCtr] (complexInput s) s.outlen.toNat q
            else inverseSimple s.cfg [s.nanCtr] (complexInput s) s.outlen.toNat q)) ∧
    FailsAsListed (.ifftreal q)

/-- R117: element `k` of the input moves to index `(k + ⌊n/2⌋) mod n`, bit for bit. -/
def Obligations.FftshiftRotatesByHalf : Prop :=
  (∀ s : State, s.len.toNat ≤ s.cfg.nmax → SourceOk s s.len.toNat → DestOk s s.len.toNat →
    ∃ t y, exec .fftshift s = .next t ∧ t.outcnt = s.len ∧ WroteComplex s t y ∧ y.length = s.len.toNat ∧
      ∀ k, k < s.len.toNat →
        cAt y ((k + s.len.toNat / 2) % s.len.toNat) =
          ⟨memRead s (s.srcRe.toNat + 8 * k), memRead s (s.srcIm.toNat + 8 * k)⟩) ∧
  FailsAsListed .fftshift

/-! ### Numbers and units -/

/-- The rounding function every operation of R10 goes through, roundTiesToEven: the rounded magnitude of `n/d` is infinite exactly from half a unit past the largest finite
value on; otherwise no binary64 value is nearer to `n/d`, and of two equally near ones the even encoding is taken. -/
def Obligations.RoundingIsToNearestEven : Prop :=
  ∀ n d : Nat, 0 < d →
    (roundMag n d = fInfBits ↔ (2 ^ 54 - 1) * 2 ^ 2044 * d ≤ n) ∧
    (roundMag n d ≠ fInfBits →
      IsFinite (fPack false (roundMag n d)) ∧
      ∀ y : F64, IsFinite y →
        let v := fMag (fPack false (roundMag n d))
        ((n : Int) - v * d).natAbs ≤ ((n : Int) - fMag y * d).natAbs ∧
        (((n : Int) - v * d).natAbs = ((n : Int) - fMag y * d).natAbs → fMag y ≠ v → roundMag n d % 2 = 0))

/-- R10: where the exact sum or product of two finite values is a nonzero binary64 value, the operation returns it. -/
def Obligations.ExactResultsAreReturned : Prop :=
  ∀ (d : Draw) (x y z : F64), IsFinite x → IsFinite y → IsFinite z → fMag z ≠ 0 →
    (fInt x + fInt y = fInt z → fAdd d x y = z) ∧ (fInt x - fInt y = fInt z → fSub d x y = z) ∧
    (fInt x * fInt y = fInt z * 2 ^ 1074 → fMul d x y = z)

/-- R13, R14: the complex operations part by part, each product, sum and difference rounded on its own, whatever NaN
encodings are drawn; `conj` and `swap` move the encodings, `conj` with the sign bit of the imaginary part flipped (R10);
`ZERO` is the pair of +0 values. R15: the product by a conjugate, part by part, signed zeros included. -/
def Obligations.ConjugateProductIdentity : Prop :=
  (∀ (d e : Draw) (a b : Cplx) (v : F64),
    SameC (cAdd d a b) ⟨fAdd e a.re b.re, fAdd e a.im b.im⟩ ∧
    SameC (cSub d a b) ⟨fSub e a.re b.re, fSub e a.im b.im⟩ ∧
    SameC (cScale d a v) ⟨fMul e a.re v, fMul e a.im v⟩ ∧
    SameC (cMul d a b)
      ⟨fSub e (fMul e a.re b.re) (fMul e a.im b.im), fAdd e (fMul e a.re b.im) (fMul e a.im b.re)⟩) ∧
  (∀ a : Cplx, cConj a = ⟨a.re, a.im ^^^ 0x8000000000000000#64⟩ ∧ cSwap a = ⟨a.im, a.re⟩) ∧
  cZero = ⟨0#64, 0#64⟩ ∧
  ∀ (d : Draw) (a w : Cplx),
    SameUpToNaN (cMul d a (cConj w)).re
      (fAdd (4 :: d) (fMul (0 :: d) a.re w.re) (fMul (1 :: d) a.im w.im)) ∧
    SameUpToNaN (cMul d a (cConj w)).im
      (fSub (5 :: d) (fMul (3 :: d) a.im w.re) (fMul (2 :: d) a.re w.im))

/-- R12 (a) and (b): `TRIG` depends only on `p/q`, and a component whose exact value is 0, 1, -1, 1/2 or -1/2 is that
value, a zero being +0; for every configuration. -/
def Obligations.TrigIsExactWhereTheSpecSaysSo : Prop :=
  ∀ (c : Config) (p q : Nat), p < q →
    (∀ p' q', p' < q' → p * q' = p' * q → trig c p q = trig c p' q') ∧
    (∀ v : ℝ, v = 0 ∨ v = 1 ∨ v = -1 ∨ v = 1 / 2 ∨ v = -1 / 2 →
      (Real.cos (2 * Real.pi * p / q) = v → realOf (trig c p q).re = v ∧ (v = 0 → (trig c p q).re = 0#64)) ∧
      (Real.sin (2 * Real.pi * p / q) = v → realOf (trig c p q).im = v ∧ (v = 0 → (trig c p q).im = 0#64)))

/-- R12 (c): each component is finite and within 1 unit in the last place of the exact value, for every configuration,
and every `q` up to 2^29, the largest FFTB uses. -/
def Obligations.TrigIsWithinOneUlp : Prop :=
  ∀ (c : Config) (p q : Nat), p < q → q ≤ 2 ^ 29 →
    (IsFinite (trig c p q).re ∧
      |realOf (trig c p q).re - Real.cos (2 * Real.pi * p / q)| ≤ ulpOf (Real.cos (2 * Real.pi * p / q))) ∧
    (IsFinite (trig c p q).im ∧
      |realOf (trig c p q).im - Real.sin (2 * Real.pi * p / q)| ≤ ulpOf (Real.sin (2 * Real.pi * p / q)))

/-- R78: the worked butterfly `BFLY((1, 2), (3, 4), ROMRD(4, 1)) = ((5, -1), (-3, 5))`, in every configuration. -/
def Obligations.ButterflyWorkedExample : Prop :=
  ∀ (c : Config) (d : Draw),
    butterfly d ⟨0x3FF0000000000000#64, 0x4000000000000000#64⟩ ⟨0x4008000000000000#64, 0x4010000000000000#64⟩
        (romRead c 4 1) =
      (⟨0x4014000000000000#64, 0xBFF0000000000000#64⟩, ⟨0xC008000000000000#64, 0x4014000000000000#64⟩)

/-- R79: bit `b` of `rev_s(i)` is bit `s-1-b` of `i`; `rev_0(0) = 0`; `rev_s` is its own inverse. -/
def Obligations.BitReversalReversesBits : Prop :=
  bitRev 0 0 = 0 ∧
  ∀ s i : Nat, i < 2 ^ s →
    bitRev s i < 2 ^ s ∧ (∀ b, b < s → (bitRev s i).testBit b = i.testBit (s - 1 - b)) ∧ bitRev s (bitRev s i) = i

/-- R80: the network moves the element at `i` to `rev_s(i)`, bit for bit; equivalently the element at `rev_s(j)` to
`j`. -/
def Obligations.BitReversalPermutes : Prop :=
  ∀ (s : Nat) (x : List Cplx), x.length = 2 ^ s →
    (bitRevPermute x).length = 2 ^ s ∧
    (∀ i, i < 2 ^ s → cAt (bitRevPermute x) (bitRev s i) = cAt x i) ∧
    (∀ j, j < 2 ^ s → cAt (bitRevPermute x) j = cAt x (bitRev s j))

/-- R81: before iteration `i` the counter with the carry from the top bit holds `rev_s(i)`, so its loop realises R80
exactly. -/
def Obligations.BitReversalCounterRealisesThePermutation : Prop :=
  (∀ s i : Nat, i < 2 ^ s → (List.range i).foldl (fun i2 _ => revCarry s i2) 0 = bitRev s i) ∧
  ∀ (s : Nat) (x : List Cplx), x.length = 2 ^ s → bitRevCounterLoop s x = bitRevPermute x

/-- R84: after a pass, the pair `(i, i + mMax)` of group `m` holds the butterfly of the pair's input values with the
twiddle of group `m`, so the order of the butterflies is not observable. R74, R75, R39: with `n = 2^s` and `mMax = 2^t`
that twiddle is the ROM entry `m * 2^(s-1-t)` of the table of size `n`, so `TRIG(m * 2^(s-1-t), 2^s)`. R76: the butterfly
multiplies by the conjugate of the twiddle, then adds and subtracts, whatever NaN encodings are drawn. -/
def Obligations.StageAppliesEachButterflyOnce : Prop :=
  (∀ (d e : Draw) (ai aj w : Cplx),
    SameC (butterfly d ai aj w).1 (cAdd e ai (cMul e aj (cConj w))) ∧
    SameC (butterfly d ai aj w).2 (cSub e ai (cMul e aj (cConj w)))) ∧
  (∀ (c : Config) (s k : Nat), 1 ≤ s → k < 2 ^ (s - 1) → romRead c (2 ^ s) k = trig c k (2 ^ s)) ∧
  ∀ (c : Config) (d : Draw) (a : List Cplx) (s t k m : Nat), a.length = 2 ^ s → t < s → m < 2 ^ t →
    k < 2 ^ (s - 1 - t) →
    twiddle c (2 ^ s) (2 ^ t) m = trig c (m * 2 ^ (s - 1 - t)) (2 ^ s) ∧
    (stage c d a (2 ^ t)).length = 2 ^ s ∧
    (cAt (stage c d a (2 ^ t)) (m + 2 * 2 ^ t * k), cAt (stage c d a (2 ^ t)) (m + 2 * 2 ^ t * k + 2 ^ t)) =
      butterfly ((m + 2 * 2 ^ t * k) :: d) (cAt a (m + 2 * 2 ^ t * k)) (cAt a (m + 2 * 2 ^ t * k + 2 ^ t))
        (trig c (m * 2 ^ (s - 1 - t)) (2 ^ s))

/-- R90: the working size is the smallest power of two not below `2n - 3`; it is at least `2n - 2`, and at most MMAX for
a length below NMAX. -/
def Obligations.WorkingSizeIsSmallestPowerOfTwo : Prop :=
  ∀ n : Nat, 3 ≤ n →
    IsPowerOfTwo (bluesteinSize n) ∧ 2 * n - 3 ≤ bluesteinSize n ∧ 2 * n - 2 ≤ bluesteinSize n ∧
    (∀ k, 2 * n - 3 ≤ 2 ^ k → bluesteinSize n ≤ 2 ^ k) ∧
    (∀ c : Config, n ≤ c.nmax - 1 → bluesteinSize n ≤ c.mmax)

/-- R93: the kernel is the zero-filled buffer, written with the chirp at `0 .. n-1` and then with its mirror at
`m-n+1 .. m-1`. -/
def Obligations.KernelIsWrittenInTwoPasses : Prop :=
  ∀ (ch : List Cplx) (m : Nat), 1 ≤ ch.length → 2 * ch.length - 2 ≤ m → ch.length ≤ m →
    bluesteinB ch m =
      (List.range (ch.length - 1)).foldl
        (fun b j => b.set (m - ch.length + 1 + j) (cAt ch (m - (m - ch.length + 1 + j))))
        ((List.range ch.length).foldl (fun b k => b.set k (cAt ch k)) (List.replicate m cZero))

/-- R94: `1.0 / m` is exact for a power of two up to 2^29, and the product by it equals the correctly rounded quotient
by `m`. -/
def Obligations.ScalingByReciprocalIsDivision : Prop :=
  ∀ (d d' : Draw) (k : Nat) (x : F64), k ≤ 29 →
    realOf (fDiv d' fOne (fOfNat (2 ^ k))) = 1 / 2 ^ k ∧
    SameUpToNaN (fMul d x (fDiv d' fOne (fOfNat (2 ^ k)))) (fDiv d x (fOfNat (2 ^ k)))

/-- R101, R102: lengths 0 and 1 are copied; a power of two goes to the radix-2 pipeline and every other length to
Bluestein; the inverse swaps the channels, runs the same machinery, and swaps back. So the inverse transform inside
Bluestein (42_bluestein.md R94) is the dispatcher's. -/
def Obligations.DispatcherChoosesTheStrategy : Prop :=
  ∀ (c : Config) (d : Draw) (x : List Cplx),
    (x.length ≤ 1 → ∀ dir, ffte c d x dir = x) ∧
    (2 ≤ x.length → IsPowerOfTwo x.length → ffte c d x true = r2 c d x) ∧
    (2 ≤ x.length → ¬IsPowerOfTwo x.length → ffte c d x true = bluestein c d x) ∧
    (2 ≤ x.length → ffte c d x false = (ffte c d (x.map cSwap) true).map cSwap) ∧
    (IsPowerOfTwo x.length → ffte c d x false = r2Inverse c d x)

/-- R112: the spectrum `IS` transforms holds bin `k` at `k` and its conjugate at `N-k`, bin 0 whole at 0, and for even
`N` the Nyquist bin, zero unless `Q` is 1. -/
def Obligations.FullSpectrumIsConjugateSymmetric : Prop :=
  ∀ (sp : List Cplx) (n : Nat) (q : Bool), 1 ≤ n →
    (fullSpectrum sp n q).length = n ∧ cAt (fullSpectrum sp n q) 0 = cAt sp 0 ∧
    (∀ k, 1 ≤ k → k < (n + 1) / 2 →
      cAt (fullSpectrum sp n q) k = cAt sp k ∧ cAt (fullSpectrum sp n q) (n - k) = cConj (cAt sp k)) ∧
    (n % 2 = 0 → cAt (fullSpectrum sp n q) (n / 2) = if q = true then cAt sp (n / 2) else cZero)

/-- R117: for an even length the shift is its own inverse; for an odd length applying it twice rotates by `n-1`. -/
def Obligations.ShiftTwice : Prop :=
  ∀ x : List Cplx,
    (x.length % 2 = 0 → shiftHalf (shiftHalf x) = x) ∧
    (x.length % 2 = 1 → ∀ k, k < x.length →
      cAt (shiftHalf (shiftHalf x)) ((k + (x.length - 1)) % x.length) = cAt x k)

/-- R10, for all operands: a finite sum, difference, product or quotient is its exact value rounded once, ties to even,
inexact results included; the signs of zero sums; NaNs; infinities, and the division by zero. What IEEE 754 says of
them is PRESUMED (log 12). -/
def Obligations.ArithmeticIsCorrectlyRounded : Prop :=
  ∀ (d : Draw) (x y : F64),
    (IsFinite x → IsFinite y →
      (fInt x + fInt y ≠ 0 →
        CorrectlyRounded (fAdd d x y) (decide (fInt x + fInt y < 0)) (fInt x + fInt y).natAbs 1) ∧
      (fInt x + fInt y = 0 → fAdd d x y = signedZero (fSign x && fSign y)) ∧
      (fInt x - fInt y ≠ 0 →
        CorrectlyRounded (fSub d x y) (decide (fInt x - fInt y < 0)) (fInt x - fInt y).natAbs 1) ∧
      (fInt x - fInt y = 0 → fSub d x y = signedZero (fSign x && !fSign y)) ∧
      CorrectlyRounded (fMul d x y) (fSign x != fSign y) (fMag x * fMag y) (2 ^ 1074) ∧
      (¬IsZero y → CorrectlyRounded (fDiv d x y) (fSign x != fSign y) (fMag x * 2 ^ 1074) (fMag y)) ∧
      (IsZero y → ¬IsZero x → fDiv d x y = signedInfinity (fSign x != fSign y)) ∧
      (IsZero y → IsZero x → fIsNaN (fDiv d x y) = true)) ∧
    (fIsNaN x = true ∨ fIsNaN y = true →
      fIsNaN (fAdd d x y) = true ∧ fIsNaN (fSub d x y) = true ∧ fIsNaN (fMul d x y) = true ∧
      fIsNaN (fDiv d x y) = true) ∧
    (fIsInf x = true → fIsInf y = true →
      (if fSign x = fSign y then fAdd d x y = x ∧ fIsNaN (fSub d x y) = true
        else fIsNaN (fAdd d x y) = true ∧ fSub d x y = x) ∧
      fMul d x y = signedInfinity (fSign x != fSign y) ∧ fIsNaN (fDiv d x y) = true) ∧
    (fIsInf x = true → IsFinite y →
      fAdd d x y = x ∧ fSub d x y = x ∧
      (IsZero y → fIsNaN (fMul d x y) = true) ∧
      (¬IsZero y → fMul d x y = signedInfinity (fSign x != fSign y)) ∧
      fDiv d x y = signedInfinity (fSign x != fSign y)) ∧
    (IsFinite x → fIsInf y = true →
      fAdd d x y = y ∧ fSub d x y = fNeg y ∧
      (IsZero x → fIsNaN (fMul d x y) = true) ∧
      (¬IsZero x → fMul d x y = signedInfinity (fSign x != fSign y)) ∧
      fDiv d x y = signedZero (fSign x != fSign y))
end

