-- ==== Sys2Proof/Laws/State.lean ====
section
/-! SUPPORT. One lemma per field per update of State: what each named operation does to each field. -/

namespace Sys2Proof.Machine

section
variable (s : State)

@[simp] theorem updateIrq_cfg : (updateIrq s).cfg = s.cfg := rfl
@[simp] theorem updateIrq_ie : (updateIrq s).ie = s.ie := rfl
@[simp] theorem updateIrq_status : (updateIrq s).status = s.status := rfl
@[simp] theorem updateIrq_cmd : (updateIrq s).cmd = s.cmd := rfl
@[simp] theorem updateIrq_len : (updateIrq s).len = s.len := rfl
@[simp] theorem updateIrq_outlen : (updateIrq s).outlen = s.outlen := rfl
@[simp] theorem updateIrq_srcRe : (updateIrq s).srcRe = s.srcRe := rfl
@[simp] theorem updateIrq_srcIm : (updateIrq s).srcIm = s.srcIm := rfl
@[simp] theorem updateIrq_dstRe : (updateIrq s).dstRe = s.dstRe := rfl
@[simp] theorem updateIrq_dstIm : (updateIrq s).dstIm = s.dstIm := rfl
@[simp] theorem updateIrq_outcnt : (updateIrq s).outcnt = s.outcnt := rfl
@[simp] theorem updateIrq_dmem : (updateIrq s).dmem = s.dmem := rfl
@[simp] theorem updateIrq_irq : (updateIrq s).irq = irqLevel s.ie s.status := rfl
@[simp] theorem updateIrq_agenda : (updateIrq s).agenda = s.agenda := rfl
@[simp] theorem updateIrq_resp : (updateIrq s).resp = s.resp := rfl
@[simp] theorem updateIrq_nanCtr : (updateIrq s).nanCtr = s.nanCtr := rfl
@[simp] theorem updateIrq_epoch : (updateIrq s).epoch = s.epoch := rfl

end

section
variable (s : State)

@[simp] theorem setWign_cfg : (setWign s).cfg = s.cfg := rfl
@[simp] theorem setWign_ie : (setWign s).ie = s.ie := rfl
@[simp] theorem setWign_status : (setWign s).status = { s.status with wign := true } := rfl
@[simp] theorem setWign_cmd : (setWign s).cmd = s.cmd := rfl
@[simp] theorem setWign_len : (setWign s).len = s.len := rfl
@[simp] theorem setWign_outlen : (setWign s).outlen = s.outlen := rfl
@[simp] theorem setWign_srcRe : (setWign s).srcRe = s.srcRe := rfl
@[simp] theorem setWign_srcIm : (setWign s).srcIm = s.srcIm := rfl
@[simp] theorem setWign_dstRe : (setWign s).dstRe = s.dstRe := rfl
@[simp] theorem setWign_dstIm : (setWign s).dstIm = s.dstIm := rfl
@[simp] theorem setWign_outcnt : (setWign s).outcnt = s.outcnt := rfl
@[simp] theorem setWign_dmem : (setWign s).dmem = s.dmem := rfl
@[simp] theorem setWign_irq : (setWign s).irq = s.irq := rfl
@[simp] theorem setWign_agenda : (setWign s).agenda = s.agenda := rfl
@[simp] theorem setWign_resp : (setWign s).resp = s.resp := rfl
@[simp] theorem setWign_nanCtr : (setWign s).nanCtr = s.nanCtr := rfl
@[simp] theorem setWign_epoch : (setWign s).epoch = s.epoch := rfl

end

section
variable (s : State)

@[simp] theorem setAccv_cfg : (setAccv s).cfg = s.cfg := rfl
@[simp] theorem setAccv_ie : (setAccv s).ie = s.ie := rfl
@[simp] theorem setAccv_status : (setAccv s).status = { s.status with accv := true } := rfl
@[simp] theorem setAccv_cmd : (setAccv s).cmd = s.cmd := rfl
@[simp] theorem setAccv_len : (setAccv s).len = s.len := rfl
@[simp] theorem setAccv_outlen : (setAccv s).outlen = s.outlen := rfl
@[simp] theorem setAccv_srcRe : (setAccv s).srcRe = s.srcRe := rfl
@[simp] theorem setAccv_srcIm : (setAccv s).srcIm = s.srcIm := rfl
@[simp] theorem setAccv_dstRe : (setAccv s).dstRe = s.dstRe := rfl
@[simp] theorem setAccv_dstIm : (setAccv s).dstIm = s.dstIm := rfl
@[simp] theorem setAccv_outcnt : (setAccv s).outcnt = s.outcnt := rfl
@[simp] theorem setAccv_dmem : (setAccv s).dmem = s.dmem := rfl
@[simp] theorem setAccv_irq : (setAccv s).irq = s.irq := rfl
@[simp] theorem setAccv_agenda : (setAccv s).agenda = s.agenda := rfl
@[simp] theorem setAccv_resp : (setAccv s).resp = s.resp := rfl
@[simp] theorem setAccv_nanCtr : (setAccv s).nanCtr = s.nanCtr := rfl
@[simp] theorem setAccv_epoch : (setAccv s).epoch = s.epoch := rfl

end

section
variable (s : State) (r : Response)

@[simp] theorem respond_cfg : (respond s r).cfg = s.cfg := rfl
@[simp] theorem respond_ie : (respond s r).ie = s.ie := rfl
@[simp] theorem respond_status : (respond s r).status = s.status := rfl
@[simp] theorem respond_cmd : (respond s r).cmd = s.cmd := rfl
@[simp] theorem respond_len : (respond s r).len = s.len := rfl
@[simp] theorem respond_outlen : (respond s r).outlen = s.outlen := rfl
@[simp] theorem respond_srcRe : (respond s r).srcRe = s.srcRe := rfl
@[simp] theorem respond_srcIm : (respond s r).srcIm = s.srcIm := rfl
@[simp] theorem respond_dstRe : (respond s r).dstRe = s.dstRe := rfl
@[simp] theorem respond_dstIm : (respond s r).dstIm = s.dstIm := rfl
@[simp] theorem respond_outcnt : (respond s r).outcnt = s.outcnt := rfl
@[simp] theorem respond_dmem : (respond s r).dmem = s.dmem := rfl
@[simp] theorem respond_irq : (respond s r).irq = s.irq := rfl
@[simp] theorem respond_agenda : (respond s r).agenda = s.agenda := rfl
@[simp] theorem respond_resp : (respond s r).resp = r := rfl
@[simp] theorem respond_nanCtr : (respond s r).nanCtr = s.nanCtr := rfl
@[simp] theorem respond_epoch : (respond s r).epoch = s.epoch := rfl

end

section
variable (s : State) (w : Word)

@[simp] theorem acceptCommand_cfg : (acceptCommand s w).cfg = s.cfg := rfl
@[simp] theorem acceptCommand_ie : (acceptCommand s w).ie = s.ie := rfl
@[simp] theorem acceptCommand_status : (acceptCommand s w).status = statusAccepted s.status := rfl
@[simp] theorem acceptCommand_cmd : (acceptCommand s w).cmd = w := rfl
@[simp] theorem acceptCommand_len : (acceptCommand s w).len = s.len := rfl
@[simp] theorem acceptCommand_outlen : (acceptCommand s w).outlen = s.outlen := rfl
@[simp] theorem acceptCommand_srcRe : (acceptCommand s w).srcRe = s.srcRe := rfl
@[simp] theorem acceptCommand_srcIm : (acceptCommand s w).srcIm = s.srcIm := rfl
@[simp] theorem acceptCommand_dstRe : (acceptCommand s w).dstRe = s.dstRe := rfl
@[simp] theorem acceptCommand_dstIm : (acceptCommand s w).dstIm = s.dstIm := rfl
@[simp] theorem acceptCommand_outcnt : (acceptCommand s w).outcnt = s.outcnt := rfl
@[simp] theorem acceptCommand_dmem : (acceptCommand s w).dmem = s.dmem := rfl
@[simp] theorem acceptCommand_irq : (acceptCommand s w).irq = irqLevel s.ie (statusAccepted s.status) := rfl
@[simp] theorem acceptCommand_agenda : (acceptCommand s w).agenda = s.agenda := rfl
@[simp] theorem acceptCommand_resp : (acceptCommand s w).resp = s.resp := rfl
@[simp] theorem acceptCommand_nanCtr : (acceptCommand s w).nanCtr = s.nanCtr := rfl
@[simp] theorem acceptCommand_epoch : (acceptCommand s w).epoch = s.epoch := rfl

end

section
variable (s : State) (v : Word)

@[simp] theorem acknowledge_cfg : (acknowledge s v).cfg = s.cfg := rfl
@[simp] theorem acknowledge_ie : (acknowledge s v).ie = s.ie := rfl
@[simp] theorem acknowledge_status : (acknowledge s v).status = statusClear s.status v := rfl
@[simp] theorem acknowledge_cmd : (acknowledge s v).cmd = s.cmd := rfl
@[simp] theorem acknowledge_len : (acknowledge s v).len = s.len := rfl
@[simp] theorem acknowledge_outlen : (acknowledge s v).outlen = s.outlen := rfl
@[simp] theorem acknowledge_srcRe : (acknowledge s v).srcRe = s.srcRe := rfl
@[simp] theorem acknowledge_srcIm : (acknowledge s v).srcIm = s.srcIm := rfl
@[simp] theorem acknowledge_dstRe : (acknowledge s v).dstRe = s.dstRe := rfl
@[simp] theorem acknowledge_dstIm : (acknowledge s v).dstIm = s.dstIm := rfl
@[simp] theorem acknowledge_outcnt : (acknowledge s v).outcnt = s.outcnt := rfl
@[simp] theorem acknowledge_dmem : (acknowledge s v).dmem = s.dmem := rfl
@[simp] theorem acknowledge_irq : (acknowledge s v).irq = irqLevel s.ie (statusClear s.status v) := rfl
@[simp] theorem acknowledge_agenda : (acknowledge s v).agenda = s.agenda := rfl
@[simp] theorem acknowledge_resp : (acknowledge s v).resp = s.resp := rfl
@[simp] theorem acknowledge_nanCtr : (acknowledge s v).nanCtr = s.nanCtr := rfl
@[simp] theorem acknowledge_epoch : (acknowledge s v).epoch = s.epoch := rfl

end

section
variable (s : State) (e : ErrCode)

@[simp] theorem errorCompletion_cfg : (errorCompletion s e).cfg = s.cfg := rfl
@[simp] theorem errorCompletion_ie : (errorCompletion s e).ie = s.ie := rfl
@[simp] theorem errorCompletion_status : (errorCompletion s e).status = statusFailed s.status e := rfl
@[simp] theorem errorCompletion_cmd : (errorCompletion s e).cmd = s.cmd := rfl
@[simp] theorem errorCompletion_len : (errorCompletion s e).len = s.len := rfl
@[simp] theorem errorCompletion_outlen : (errorCompletion s e).outlen = s.outlen := rfl
@[simp] theorem errorCompletion_srcRe : (errorCompletion s e).srcRe = s.srcRe := rfl
@[simp] theorem errorCompletion_srcIm : (errorCompletion s e).srcIm = s.srcIm := rfl
@[simp] theorem errorCompletion_dstRe : (errorCompletion s e).dstRe = s.dstRe := rfl
@[simp] theorem errorCompletion_dstIm : (errorCompletion s e).dstIm = s.dstIm := rfl
@[simp] theorem errorCompletion_outcnt : (errorCompletion s e).outcnt = 0#32 := rfl
@[simp] theorem errorCompletion_dmem : (errorCompletion s e).dmem = s.dmem := rfl
@[simp] theorem errorCompletion_irq : (errorCompletion s e).irq = irqLevel s.ie (statusFailed s.status e) := rfl
@[simp] theorem errorCompletion_agenda : (errorCompletion s e).agenda = s.agenda := rfl
@[simp] theorem errorCompletion_resp : (errorCompletion s e).resp = s.resp := rfl
@[simp] theorem errorCompletion_nanCtr : (errorCompletion s e).nanCtr = s.nanCtr + 1 := rfl
@[simp] theorem errorCompletion_epoch : (errorCompletion s e).epoch = s.epoch := rfl

end

section
variable (s : State) (y : Output)

@[simp] theorem writeOutput_cfg : (writeOutput s y).cfg = s.cfg := by cases y <;> rfl
@[simp] theorem writeOutput_ie : (writeOutput s y).ie = s.ie := by cases y <;> rfl
@[simp] theorem writeOutput_status : (writeOutput s y).status = s.status := by cases y <;> rfl
@[simp] theorem writeOutput_cmd : (writeOutput s y).cmd = s.cmd := by cases y <;> rfl
@[simp] theorem writeOutput_len : (writeOutput s y).len = s.len := by cases y <;> rfl
@[simp] theorem writeOutput_outlen : (writeOutput s y).outlen = s.outlen := by cases y <;> rfl
@[simp] theorem writeOutput_srcRe : (writeOutput s y).srcRe = s.srcRe := by cases y <;> rfl
@[simp] theorem writeOutput_srcIm : (writeOutput s y).srcIm = s.srcIm := by cases y <;> rfl
@[simp] theorem writeOutput_dstRe : (writeOutput s y).dstRe = s.dstRe := by cases y <;> rfl
@[simp] theorem writeOutput_dstIm : (writeOutput s y).dstIm = s.dstIm := by cases y <;> rfl
@[simp] theorem writeOutput_outcnt : (writeOutput s y).outcnt = s.outcnt := by cases y <;> rfl
@[simp] theorem writeOutput_irq : (writeOutput s y).irq = s.irq := by cases y <;> rfl
@[simp] theorem writeOutput_agenda : (writeOutput s y).agenda = s.agenda := by cases y <;> rfl
@[simp] theorem writeOutput_resp : (writeOutput s y).resp = s.resp := by cases y <;> rfl
@[simp] theorem writeOutput_nanCtr : (writeOutput s y).nanCtr = s.nanCtr := by cases y <;> rfl
@[simp] theorem writeOutput_epoch : (writeOutput s y).epoch = s.epoch := by cases y <;> rfl

end

section
variable (s : State) (y : Output)

@[simp] theorem successCompletion_cfg : (successCompletion s y).cfg = s.cfg := by cases y <;> rfl
@[simp] theorem successCompletion_ie : (successCompletion s y).ie = s.ie := by cases y <;> rfl
@[simp] theorem successCompletion_status : (successCompletion s y).status = statusDone s.status := by cases y <;> rfl
@[simp] theorem successCompletion_cmd : (successCompletion s y).cmd = s.cmd := by cases y <;> rfl
@[simp] theorem successCompletion_len : (successCompletion s y).len = s.len := by cases y <;> rfl
@[simp] theorem successCompletion_outlen : (successCompletion s y).outlen = s.outlen := by cases y <;> rfl
@[simp] theorem successCompletion_srcRe : (successCompletion s y).srcRe = s.srcRe := by cases y <;> rfl
@[simp] theorem successCompletion_srcIm : (successCompletion s y).srcIm = s.srcIm := by cases y <;> rfl
@[simp] theorem successCompletion_dstRe : (successCompletion s y).dstRe = s.dstRe := by cases y <;> rfl
@[simp] theorem successCompletion_dstIm : (successCompletion s y).dstIm = s.dstIm := by cases y <;> rfl
@[simp] theorem successCompletion_outcnt : (successCompletion s y).outcnt = BitVec.ofNat 32 y.count := by cases y <;> rfl
@[simp] theorem successCompletion_dmem : (successCompletion s y).dmem = (writeOutput s y).dmem := by cases y <;> rfl
@[simp] theorem successCompletion_irq : (successCompletion s y).irq = irqLevel s.ie (statusDone s.status) := by cases y <;> rfl
@[simp] theorem successCompletion_agenda : (successCompletion s y).agenda = s.agenda := by cases y <;> rfl
@[simp] theorem successCompletion_resp : (successCompletion s y).resp = s.resp := by cases y <;> rfl
@[simp] theorem successCompletion_nanCtr : (successCompletion s y).nanCtr = s.nanCtr + 1 := by cases y <;> rfl
@[simp] theorem successCompletion_epoch : (successCompletion s y).epoch = s.epoch := by cases y <;> rfl

end

section
variable (s : State)

@[simp] theorem assertReset_cfg : (assertReset s).cfg = s.cfg := rfl
@[simp] theorem assertReset_ie : (assertReset s).ie = false := rfl
@[simp] theorem assertReset_status : (assertReset s).status = Status.reset := rfl
@[simp] theorem assertReset_cmd : (assertReset s).cmd = 0#32 := rfl
@[simp] theorem assertReset_len : (assertReset s).len = 0#32 := rfl
@[simp] theorem assertReset_outlen : (assertReset s).outlen = 0#32 := rfl
@[simp] theorem assertReset_srcRe : (assertReset s).srcRe = 0#32 := rfl
@[simp] theorem assertReset_srcIm : (assertReset s).srcIm = 0#32 := rfl
@[simp] theorem assertReset_dstRe : (assertReset s).dstRe = 0#32 := rfl
@[simp] theorem assertReset_dstIm : (assertReset s).dstIm = 0#32 := rfl
@[simp] theorem assertReset_outcnt : (assertReset s).outcnt = 0#32 := rfl
@[simp] theorem assertReset_dmem : (assertReset s).dmem = [] := rfl
@[simp] theorem assertReset_irq : (assertReset s).irq = false := rfl
@[simp] theorem assertReset_agenda : (assertReset s).agenda = s.agenda := rfl
@[simp] theorem assertReset_resp : (assertReset s).resp = s.resp := rfl
@[simp] theorem assertReset_nanCtr : (assertReset s).nanCtr = s.nanCtr := rfl
@[simp] theorem assertReset_epoch : (assertReset s).epoch = s.epoch + 1 := rfl

end

section
variable (s : State) (w : Word)

@[simp] theorem placeCommand_cfg : (placeCommand s w).cfg = s.cfg := rfl
@[simp] theorem placeCommand_ie : (placeCommand s w).ie = s.ie := rfl
@[simp] theorem placeCommand_status : (placeCommand s w).status = statusAccepted s.status := rfl
@[simp] theorem placeCommand_cmd : (placeCommand s w).cmd = w := rfl
@[simp] theorem placeCommand_len : (placeCommand s w).len = s.len := rfl
@[simp] theorem placeCommand_outlen : (placeCommand s w).outlen = s.outlen := rfl
@[simp] theorem placeCommand_srcRe : (placeCommand s w).srcRe = s.srcRe := rfl
@[simp] theorem placeCommand_srcIm : (placeCommand s w).srcIm = s.srcIm := rfl
@[simp] theorem placeCommand_dstRe : (placeCommand s w).dstRe = s.dstRe := rfl
@[simp] theorem placeCommand_dstIm : (placeCommand s w).dstIm = s.dstIm := rfl
@[simp] theorem placeCommand_outcnt : (placeCommand s w).outcnt = s.outcnt := rfl
@[simp] theorem placeCommand_dmem : (placeCommand s w).dmem = s.dmem := rfl
@[simp] theorem placeCommand_irq : (placeCommand s w).irq = irqLevel s.ie (statusAccepted s.status) := rfl
@[simp] theorem placeCommand_agenda : (placeCommand s w).agenda = .engine :: s.agenda := rfl
@[simp] theorem placeCommand_resp : (placeCommand s w).resp = s.resp := rfl
@[simp] theorem placeCommand_nanCtr : (placeCommand s w).nanCtr = s.nanCtr := rfl
@[simp] theorem placeCommand_epoch : (placeCommand s w).epoch = s.epoch := rfl

end

@[simp] theorem writeOutput_dmem_none (s : State) : (writeOutput s .none).dmem = s.dmem := rfl

@[simp] theorem writeOutput_dmem_complex (s : State) (y : List Cplx) :
    (writeOutput s (.complex y)).dmem = memWriteC s.dmem s.dstRe.toNat s.dstIm.toNat y := rfl

@[simp] theorem writeOutput_dmem_real (s : State) (y : List F64) :
    (writeOutput s (.real y)).dmem = memWriteR s.dmem s.dstRe.toNat y := rfl

/-- `irq` after an error completion is `CTRL.IE` (60_exceptions.md R122). -/
@[simp] theorem irqLevel_statusFailed (ie : Bool) (t : Status) (e : ErrCode) : irqLevel ie (statusFailed t e) = ie := by
  simp [irqLevel, statusFailed]

/-- `irq` after a success completion is `CTRL.IE` (60_exceptions.md R123). -/
@[simp] theorem irqLevel_statusDone (ie : Bool) (t : Status) : irqLevel ie (statusDone t) = ie := by
  simp [irqLevel, statusDone]

/-- `irq` after acceptance is 0 (60_exceptions.md R120). -/
@[simp] theorem irqLevel_statusAccepted (ie : Bool) (t : Status) : irqLevel ie (statusAccepted t) = false := by
  simp [irqLevel, statusAccepted]

end Sys2Proof.Machine
end

