-- ==== Sys2Proof/Laws/Memory.lean ====
section
/-! SUPPORT. DMEM: the canonical form is kept by every write, a read after a write gives what was written, and a write
leaves every other byte alone. -/

namespace Sys2Proof.Machine

/-! ### Bytes -/

theorem memGet?_memSet (m : Memory) (a : Nat) (b : Byte) (x : Nat) :
    memGet? (memSet m a b) x = if x = a then some b else memGet? m x := by
  induction m with
  | nil => simp only [memSet, memGet?, eq_comm]
  | cons c m ih =>
    obtain ⟨y, v⟩ := c
    simp only [memSet]
    split_ifs <;> simp only [memGet?, ih] <;> split_ifs <;> first | rfl | omega

/-- Every address a byte write lists was listed before or is the one written. -/
theorem mem_memSet {m : Memory} {a : Nat} {b : Byte} {x : Host.Cell} (h : x ∈ memSet m a b) : x ∈ m ∨ x = (a, b) := by
  induction m with
  | nil => exact .inr (List.mem_singleton.mp h)
  | cons c m ih =>
    simp only [memSet] at h
    split_ifs at h <;> simp only [List.mem_cons] at h ⊢ <;> tauto

theorem memSet_wf {m : Memory} (h : Memory.wf m) (a : Nat) (b : Byte) : Memory.wf (memSet m a b) := by
  induction m with
  | nil => simp [memSet]
  | cons c m ih =>
    obtain ⟨y, v⟩ := c
    obtain ⟨h1, h2⟩ := List.pairwise_cons.mp h
    simp only [memSet]
    split_ifs with h3 h4
    · refine List.pairwise_cons.mpr ⟨fun z hz => ?_, h⟩
      rcases List.mem_cons.mp hz with rfl | hz
      · exact h3
      · exact h3.trans (h1 z hz)
    · exact List.pairwise_cons.mpr ⟨fun z hz => h4 ▸ h1 z hz, h2⟩
    · refine List.pairwise_cons.mpr ⟨fun z hz => ?_, ih h2⟩
      rcases mem_memSet hz with hz | rfl
      · exact h1 z hz
      · show y < a; omega

theorem reset_dmem_wf : Memory.wf State.reset.dmem := List.Pairwise.nil

/-! ### Words

A word write is a run of byte writes at rising addresses; each fact about it is the fact about a run of any length. -/

/-- A run of `n` byte writes from `a` on: byte `i` of the run is `f i`. -/
def writeRun (m : Memory) (a : Nat) (f : Nat → Byte) (n : Nat) : Memory :=
  (List.range n).foldl (fun m i => memSet m (a + i) (f i)) m

theorem writeRun_succ (m : Memory) (a : Nat) (f : Nat → Byte) (n : Nat) :
    writeRun m a f (n + 1) = memSet (writeRun m a f n) (a + n) (f n) := by
  simp [writeRun, List.range_succ]

theorem memWrite_eq_writeRun (m : Memory) (a : Nat) (w : F64) :
    memWrite m a w = writeRun m a (fun i => w.extractLsb' (8 * i) 8) 8 := rfl

theorem memGet?_writeRun (m : Memory) (a : Nat) (f : Nat → Byte) (n x : Nat) :
    memGet? (writeRun m a f n) x = if a ≤ x ∧ x < a + n then some (f (x - a)) else memGet? m x := by
  induction n with
  | zero => exact (if_neg (by omega)).symm
  | succ n ih =>
    rw [writeRun_succ, memGet?_memSet, ih]
    by_cases hx : x = a + n
    · subst hx; simp
    · simp only [hx, if_false, show (a ≤ x ∧ x < a + (n + 1)) ↔ (a ≤ x ∧ x < a + n) by omega]

theorem writeRun_wf {m : Memory} (h : Memory.wf m) (a : Nat) (f : Nat → Byte) (n : Nat) :
    Memory.wf (writeRun m a f n) := by
  induction n with
  | zero => exact h
  | succ n ih => rw [writeRun_succ]; exact memSet_wf ih _ _

theorem mem_writeRun {m : Memory} {a : Nat} {f : Nat → Byte} {n : Nat} {x : Host.Cell} (h : x ∈ writeRun m a f n) :
    x ∈ m ∨ (a ≤ x.1 ∧ x.1 < a + n) := by
  induction n with
  | zero => exact .inl h
  | succ n ih =>
    rw [writeRun_succ] at h
    rcases mem_memSet h with hx | rfl
    · exact (ih hx).imp_right fun hr => ⟨hr.1, by omega⟩
    · exact .inr ⟨Nat.le_add_right a n, Nat.lt_succ_self (a + n)⟩

theorem memGet?_memWrite (m : Memory) (a : Nat) (w : F64) (x : Nat) :
    memGet? (memWrite m a w) x =
      if a ≤ x ∧ x < a + 8 then some (w.extractLsb' (8 * (x - a)) 8) else memGet? m x :=
  memGet?_writeRun m a _ 8 x

theorem memWrite_wf {m : Memory} (h : Memory.wf m) (a : Nat) (w : F64) : Memory.wf (memWrite m a w) :=
  writeRun_wf h a _ 8

/-- Every address a word write lists was listed before or lies in the word. -/
theorem mem_memWrite {m : Memory} {a : Nat} {w : F64} {x : Host.Cell} (h : x ∈ memWrite m a w) :
    x ∈ m ∨ (a ≤ x.1 ∧ x.1 < a + 8) :=
  mem_writeRun (n := 8) h

/-! ### Sequences -/

theorem memWriteC_wf {y : List Cplx} : ∀ {m : Memory} {re im : Nat}, Memory.wf m → Memory.wf (memWriteC m re im y) := by
  induction y with
  | nil => intro m re im h; exact h
  | cons v y ih => intro m re im h; exact ih (memWrite_wf (memWrite_wf h _ _) _ _)

theorem memWriteR_wf {y : List F64} : ∀ {m : Memory} {base : Nat}, Memory.wf m → Memory.wf (memWriteR m base y) := by
  induction y with
  | nil => intro m base h; exact h
  | cons v y ih => intro m base h; exact ih (memWrite_wf h _ _)

theorem mem_memWriteC {y : List Cplx} : ∀ {m : Memory} {re im : Nat} {x : Host.Cell}, x ∈ memWriteC m re im y →
    x ∈ m ∨ (re ≤ x.1 ∧ x.1 < re + 8 * y.length) ∨ (im ≤ x.1 ∧ x.1 < im + 8 * y.length) := by
  induction y with
  | nil => intro m re im x h; exact .inl h
  | cons v y ih =>
    intro m re im x h
    simp only [List.length_cons]
    rcases ih h with h | h | h
    · rcases mem_memWrite h with h | h
      · rcases mem_memWrite h with h | h
        · exact .inl h
        · right; left; omega
      · right; right; omega
    · right; left; omega
    · right; right; omega

theorem mem_memWriteR {y : List F64} : ∀ {m : Memory} {base : Nat} {x : Host.Cell}, x ∈ memWriteR m base y →
    x ∈ m ∨ (base ≤ x.1 ∧ x.1 < base + 8 * y.length) := by
  induction y with
  | nil => intro m base x h; exact .inl h
  | cons v y ih =>
    intro m base x h
    simp only [List.length_cons]
    rcases ih h with h | h
    · rcases mem_memWrite h with h | h
      · exact .inl h
      · right; omega
    · right; omega

/-- What every byte holds after a real output is written. -/
theorem memGet?_memWriteR {y : List F64} : ∀ {m : Memory} {base : Nat} (x : Nat),
    memGet? (memWriteR m base y) x =
      if base ≤ x ∧ x < base + 8 * y.length then
        some ((rAt y ((x - base) / 8)).extractLsb' (8 * ((x - base) % 8)) 8)
      else memGet? m x := by
  induction y with
  | nil => intro m base x; rw [memWriteR, if_neg (by simp)]
  | cons v y ih =>
    intro m base x
    rw [memWriteR, ih, memGet?_memWrite]
    simp only [List.length_cons]
    by_cases h1 : base + 8 ≤ x ∧ x < base + 8 + 8 * y.length
    · rw [if_pos h1, if_pos (by omega)]
      have e1 : (x - base) / 8 = (x - (base + 8)) / 8 + 1 := by omega
      have e2 : (x - (base + 8)) % 8 = (x - base) % 8 := by omega
      rw [e1, e2]; rfl
    · rw [if_neg h1]
      by_cases h2 : base ≤ x ∧ x < base + 8
      · rw [if_pos h2, if_pos (by omega)]
        have e1 : (x - base) / 8 = 0 := by omega
        have e2 : (x - base) % 8 = x - base := by omega
        rw [e1, e2]; rfl
      · rw [if_neg h2, if_neg (by omega)]

/-- What every byte holds after a complex output is written to two buffers that share no byte. -/
theorem memGet?_memWriteC {y : List Cplx} : ∀ {m : Memory} {re im : Nat} (x : Nat),
    re + 8 * y.length ≤ im ∨ im + 8 * y.length ≤ re →
    memGet? (memWriteC m re im y) x =
      if re ≤ x ∧ x < re + 8 * y.length then
        some ((cAt y ((x - re) / 8)).re.extractLsb' (8 * ((x - re) % 8)) 8)
      else if im ≤ x ∧ x < im + 8 * y.length then
        some ((cAt y ((x - im) / 8)).im.extractLsb' (8 * ((x - im) % 8)) 8)
      else memGet? m x := by
  induction y with
  | nil =>
    intro m re im x _
    rw [memWriteC, if_neg (by simp), if_neg (by simp)]
  | cons v y ih =>
    intro m re im x hd
    simp only [List.length_cons] at hd ⊢
    rw [memWriteC, ih x (by omega), memGet?_memWrite, memGet?_memWrite]
    by_cases h1 : re + 8 ≤ x ∧ x < re + 8 + 8 * y.length
    · rw [if_pos h1, if_pos (by omega)]
      have e1 : (x - re) / 8 = (x - (re + 8)) / 8 + 1 := by omega
      have e2 : (x - (re + 8)) % 8 = (x - re) % 8 := by omega
      rw [e1, e2]; rfl
    · rw [if_neg h1]
      by_cases h2 : re ≤ x ∧ x < re + 8
      · rw [if_pos (show re ≤ x ∧ x < re + 8 * (y.length + 1) by omega), if_neg (by omega), if_neg (by omega),
          if_pos h2]
        have e1 : (x - re) / 8 = 0 := by omega
        have e2 : (x - re) % 8 = x - re := by omega
        rw [e1, e2]; rfl
      · rw [if_neg (show ¬(re ≤ x ∧ x < re + 8 * (y.length + 1)) by omega)]
        by_cases h3 : im + 8 ≤ x ∧ x < im + 8 + 8 * y.length
        · rw [if_pos h3, if_pos (by omega)]
          have e1 : (x - im) / 8 = (x - (im + 8)) / 8 + 1 := by omega
          have e2 : (x - (im + 8)) % 8 = (x - im) % 8 := by omega
          rw [e1, e2]; rfl
        · rw [if_neg h3]
          by_cases h4 : im ≤ x ∧ x < im + 8
          · rw [if_pos (show im ≤ x ∧ x < im + 8 * (y.length + 1) by omega), if_pos h4]
            have e1 : (x - im) / 8 = 0 := by omega
            have e2 : (x - im) % 8 = x - im := by omega
            rw [e1, e2]; rfl
          · rw [if_neg h4, if_neg h2, if_neg (by omega)]

/-- Bytes outside both buffers keep what they held, whether or not the buffers overlap. -/
theorem memGet?_memWriteC_outside {y : List Cplx} : ∀ {m : Memory} {re im : Nat} (x : Nat),
    ¬(re ≤ x ∧ x < re + 8 * y.length) → ¬(im ≤ x ∧ x < im + 8 * y.length) →
    memGet? (memWriteC m re im y) x = memGet? m x := by
  induction y with
  | nil => intros; rfl
  | cons v y ih =>
    intro m re im x h1 h2
    simp only [List.length_cons] at h1 h2
    rw [memWriteC, ih x (by omega) (by omega), memGet?_memWrite, if_neg (by omega), memGet?_memWrite, if_neg (by omega)]

/-! ### Reads -/

/-- A word whose eight bytes are those of `w` reads as `w`. -/
theorem memRead_of_bytes {s : State} {a : Nat} {w : F64}
    (h : ∀ i, i < 8 → readByte s (a + i) = w.extractLsb' (8 * i) 8) : memRead s a = w := by
  have h0 : readByte s a = w.extractLsb' (8 * 0) 8 := h 0 (by omega)
  simp (disch := omega) only [memRead, h, h0]
  refine BitVec.eq_of_getLsbD_eq fun i hi => ?_
  simp only [BitVec.getLsbD_append, BitVec.getLsbD_extractLsb']
  interval_cases i <;> rfl

/-- A word read depends on its eight bytes only. -/
theorem memRead_congr {s t : State} {a : Nat} (h : ∀ i, i < 8 → readByte t (a + i) = readByte s (a + i)) :
    memRead t a = memRead s a := by
  have h0 : readByte t a = readByte s a := h 0 (by omega)
  simp (disch := omega) only [memRead, h, h0]

end Sys2Proof.Machine
end

