-- ==== Sys2Proof/Laws/Sequences.lean ====
section
/-! SUPPORT. Sequences: the elements of a tabulated sequence, and the length of what every unit returns. -/

namespace Sys2Proof.Machine

@[simp] theorem length_tabulate {α : Type} (n : Nat) (f : Nat → α) : (tabulate n f).length = n := by simp [tabulate]

theorem getElem?_tabulate {α : Type} {n k : Nat} (h : k < n) (f : Nat → α) : (tabulate n f)[k]? = some (f k) := by
  simp [tabulate, h]

theorem cAt_tabulate {n k : Nat} (h : k < n) (f : Nat → Cplx) : cAt (tabulate n f) k = f k := by
  simp [cAt, List.getD_eq_getElem?_getD, getElem?_tabulate h]

theorem rAt_tabulate {n k : Nat} (h : k < n) (f : Nat → F64) : rAt (tabulate n f) k = f k := by
  simp [rAt, List.getD_eq_getElem?_getD, getElem?_tabulate h]

theorem tabulate_congr {α : Type} {n : Nat} {f g : Nat → α} (h : ∀ k, k < n → f k = g k) : tabulate n f = tabulate n g :=
  List.map_congr_left fun k hk => h k (List.mem_range.mp hk)

theorem cAt_of_length_le {x : List Cplx} {k : Nat} (h : x.length ≤ k) : cAt x k = cZero := by
  simp [cAt, List.getD_eq_getElem?_getD, h]

/-- Sequences of one length with the same elements are equal. -/
theorem ext_cAt {x y : List Cplx} (hl : x.length = y.length) (h : ∀ k, k < x.length → cAt x k = cAt y k) : x = y := by
  refine List.ext_getElem hl fun k h1 h2 => ?_
  have := h k h1
  simpa [cAt, List.getD_eq_getElem?_getD, h1, h2] using this

theorem cAt_set {x : List Cplx} {i : Nat} (h : i < x.length) (v : Cplx) (k : Nat) :
    cAt (x.set i v) k = if i = k then v else cAt x k := by
  simp only [cAt, List.getD_eq_getElem?_getD, List.getElem?_set]
  split_ifs with h1
  · simp
  · rfl

theorem cAt_map_swap {x : List Cplx} {k : Nat} (h : k < x.length) : cAt (x.map cSwap) k = cSwap (cAt x k) := by
  simp [cAt, List.getD_eq_getElem?_getD, h]

@[simp] theorem cSwap_cSwap (a : Cplx) : cSwap (cSwap a) = a := rfl

/-! ### Lengths -/

@[simp] theorem length_readSeqC (s : State) (re im n : Nat) : (readSeqC s re im n).length = n := length_tabulate _ _

@[simp] theorem length_readSeqR (s : State) (base n : Nat) : (readSeqR s base n).length = n := length_tabulate _ _

@[simp] theorem length_inputC (s : State) : (inputC s).length = lenOf s := length_tabulate _ _

@[simp] theorem length_inputR (s : State) : (inputR s).length = lenOf s := length_tabulate _ _

@[simp] theorem length_realToComplex (r : List F64) : (realToComplex r).length = r.length := by simp [realToComplex]

@[simp] theorem length_bitRevPermute (x : List Cplx) : (bitRevPermute x).length = x.length := length_tabulate _ _

@[simp] theorem length_stagePair (d : Draw) (w : Cplx) (mMax : Nat) (b : List Cplx) (i : Nat) :
    (stagePair d w mMax b i).length = b.length := by simp [stagePair]

/-- A fold whose steps keep the length keeps the length. -/
theorem length_foldl {α β : Type} (f : List α → β → List α) (hf : ∀ b i, (f b i).length = b.length) (l : List β) :
    ∀ b : List α, (l.foldl f b).length = b.length := by
  induction l with
  | nil => intro b; rfl
  | cons i l ih => intro b; rw [List.foldl_cons, ih, hf]

@[simp] theorem length_stageGroup (c : Config) (d : Draw) (n mMax : Nat) (b : List Cplx) (m : Nat) :
    (stageGroup c d n mMax b m).length = b.length :=
  length_foldl _ (fun _ _ => length_stagePair ..) _ _

@[simp] theorem length_stage (c : Config) (d : Draw) (a : List Cplx) (mMax : Nat) : (stage c d a mMax).length = a.length :=
  length_foldl _ (fun _ _ => length_stageGroup ..) _ _

@[simp] theorem length_r2 (c : Config) (d : Draw) (x : List Cplx) : (r2 c d x).length = x.length := by
  unfold r2
  split_ifs
  · rfl
  · rw [length_foldl (fun a t => stage c (t :: d) a (2 ^ t)) (fun _ _ => length_stage ..), length_bitRevPermute]

@[simp] theorem length_r2Inverse (c : Config) (d : Draw) (x : List Cplx) : (r2Inverse c d x).length = x.length := by
  simp [r2Inverse]

@[simp] theorem length_chirp (c : Config) (n : Nat) : (chirp c n).length = n := length_tabulate _ _

@[simp] theorem length_bluestein (c : Config) (d : Draw) (x : List Cplx) : (bluestein c d x).length = x.length :=
  length_tabulate _ _

@[simp] theorem length_core (c : Config) (d : Draw) (x : List Cplx) : (core c d x).length = x.length := by
  unfold core; split_ifs <;> simp

@[simp] theorem length_ffte (c : Config) (d : Draw) (x : List Cplx) (forward : Bool) :
    (ffte c d x forward).length = x.length := by
  unfold ffte; split_ifs <;> simp

@[simp] theorem length_realHalf (c : Config) (d : Draw) (x : List F64) (q : Bool) :
    (realHalf c d x q).length = x.length / 2 + q.toNat := by
  cases q <;> simp [realHalf]

@[simp] theorem length_realSpectrum (c : Config) (d : Draw) (x : List F64) (q : Bool) :
    (realSpectrum c d x q).length = spectrumCount x.length q := by
  unfold realSpectrum spectrumCount
  rcases Nat.mod_two_eq_zero_or_one x.length with h | h
  · cases q <;> simp [h] <;> omega
  · simp [h]; omega

@[simp] theorem length_fullSpectrum (sp : List Cplx) (n : Nat) (q : Bool) : (fullSpectrum sp n q).length = n :=
  length_tabulate _ _

@[simp] theorem length_inverseSimple (c : Config) (d : Draw) (sp : List Cplx) (n : Nat) (q : Bool) :
    (inverseSimple c d sp n q).length = n := by simp [inverseSimple]

theorem length_flatMap_pair (z : List Cplx) : (z.flatMap fun v => [v.re, v.im]).length = 2 * z.length := by
  induction z with
  | nil => rfl
  | cons v z ih => simp [List.flatMap_cons, ih]; omega

/-- The words `2j` and `2j+1` of an unpacked sequence are the parts of its element `j` (44_real_codec.md R113). -/
theorem rAt_flatMap_pair (z : List Cplx) : ∀ j, j < z.length →
    rAt (z.flatMap fun v => [v.re, v.im]) (2 * j) = (cAt z j).re ∧
    rAt (z.flatMap fun v => [v.re, v.im]) (2 * j + 1) = (cAt z j).im := by
  induction z with
  | nil => exact fun j h => absurd h (Nat.not_lt_zero j)
  | cons v z ih =>
    intro j h
    cases j with
    | zero => exact ⟨rfl, rfl⟩
    | succ j => exact ih j (Nat.lt_of_succ_lt_succ h)

theorem length_inverseOpt (c : Config) (d : Draw) (sp : List Cplx) {n : Nat} (q : Bool) (h : n % 2 = 0) :
    (inverseOpt c d sp n q).length = n := by
  rw [inverseOpt, length_flatMap_pair, length_ffte, length_tabulate]; omega

@[simp] theorem length_shiftHalf (x : List Cplx) : (shiftHalf x).length = x.length := length_tabulate _ _

end Sys2Proof.Machine
end

