-- ==== Sys2Proof/Laws/Commands.lean ====
section
/-! SUPPORT. What a command can do: it fails with the first failing check's code, or succeeds and writes its output
(one inversion lemma for the shared operation); what each completion leaves. -/

namespace Sys2Proof.Machine

/-! ### Inputs -/

/-- The input a command reads is the one the claims name. -/
theorem inputC_eq (s : State) : inputC s = complexInput s := rfl

theorem inputR_eq (s : State) : inputR s = realInput s := rfl

@[simp] theorem length_complexInput (s : State) : (complexInput s).length = s.len.toNat := length_inputC s

@[simp] theorem length_realInput (s : State) : (realInput s).length = s.len.toNat := length_inputR s

/-! ### Legality of buffers -/

theorem bufferLegal_iff (s : State) (base : Word) (n : Nat) : bufferLegal s.cfg base.toNat n = true ↔ BufferOk s base n := by
  simp [bufferLegal, BufferOk]

theorem rangesOverlap_eq_false_iff (a b : Word) (n : Nat) : rangesOverlap a.toNat b.toNat n = false ↔ Apart a b n := by
  simp only [rangesOverlap, Apart, Bool.and_eq_false_iff, decide_eq_false_iff_not]
  omega

theorem isPow2_iff (n : Nat) : isPow2 n = true ↔ IsPowerOfTwo n := by
  simp only [isPow2, Bool.and_eq_true, decide_eq_true_eq, IsPowerOfTwo]
  constructor
  · rintro ⟨_, h⟩; exact ⟨_, h.symm⟩
  · rintro ⟨k, rfl⟩; exact ⟨Nat.one_le_two_pow, by rw [Nat.log2_two_pow]⟩

/-! ### The shared step -/

/-- A command answers a next state: the error completion of the first failing check, or the success completion. -/
theorem runCommand_cases (s : State) (k : Checks) (result : Draw → Output) :
    (∃ e, failedCheck s k = some e ∧ runCommand s k result = .next (errorCompletion s e)) ∨
    (failedCheck s k = none ∧ runCommand s k result = .next (successCompletion s (result [s.nanCtr]))) := by
  unfold runCommand
  cases failedCheck s k <;> simp

theorem runCommand_of_failed {s : State} {k : Checks} {e : ErrCode} (h : failedCheck s k = some e)
    (result : Draw → Output) : runCommand s k result = .next (errorCompletion s e) := by
  simp [runCommand, h]

theorem runCommand_of_passed {s : State} {k : Checks} (h : failedCheck s k = none) (result : Draw → Output) :
    runCommand s k result = .next (successCompletion s (result [s.nanCtr])) := by
  simp [runCommand, h]

/-- No check fails exactly when every condition is false, every buffer legal, and the output arrays apart. -/
theorem failedCheck_eq_none_iff (s : State) (k : Checks) :
    failedCheck s k = none ↔
      k.empty = false ∧ k.oddlen = false ∧ k.badlen = false ∧ inputLegal s k.input = true ∧
        outputLegal s k.output = true ∧ outputOverlaps s k.output = false := by
  unfold failedCheck
  cases k.empty <;> cases k.oddlen <;> cases k.badlen <;> cases inputLegal s k.input <;>
    cases outputLegal s k.output <;> cases outputOverlaps s k.output <;> decide

/-- The code of a failing check is that of the first one. -/
theorem failedCheck_eq_some_iff (s : State) (k : Checks) (e : ErrCode) :
    failedCheck s k = some e ↔
      match e with
      | .badcmd => False
      | .empty => k.empty = true
      | .oddlen => k.empty = false ∧ k.oddlen = true
      | .len => k.empty = false ∧ k.oddlen = false ∧ k.badlen = true
      | .addr => k.empty = false ∧ k.oddlen = false ∧ k.badlen = false ∧
          (inputLegal s k.input && outputLegal s k.output) = false
      | .overlap => k.empty = false ∧ k.oddlen = false ∧ k.badlen = false ∧
          (inputLegal s k.input && outputLegal s k.output) = true ∧ outputOverlaps s k.output = true := by
  unfold failedCheck
  cases k.empty <;> cases k.oddlen <;> cases k.badlen <;> cases (inputLegal s k.input && outputLegal s k.output) <;>
    cases outputOverlaps s k.output <;> cases e <;> decide

/-! ### What a completion leaves -/

theorem hostOwned_errorCompletion (s : State) (e : ErrCode) : HostOwnedUnchanged s (errorCompletion s e) := by
  constructor <;> simp

theorem hostOwned_successCompletion (s : State) (y : Output) : HostOwnedUnchanged s (successCompletion s y) := by
  constructor <;> simp

theorem failed_errorCompletion (s : State) (e : ErrCode) : Failed s (errorCompletion s e) e where
  host := hostOwned_errorCompletion s e
  outcnt := by simp
  status := by simp [statusFailed]
  irq := by simp
  dmem a := by simp [readByte]

theorem succeeded_successCompletion (s : State) (y : Output) : Succeeded s (successCompletion s y) y.count where
  host := hostOwned_successCompletion s y
  outcnt := by simp
  status := by simp [statusDone]
  irq := by simp

theorem wroteNothing_successCompletion (s : State) : WroteNothing s (successCompletion s .none) where
  done := succeeded_successCompletion s .none
  frame a := by simp [readByte]

/-- A complex output to buffers that share no byte reads back element by element. -/
theorem wroteComplex_successCompletion {s : State} {y : List Cplx} (h : Apart s.dstRe s.dstIm y.length) :
    WroteComplex s (successCompletion s (.complex y)) y where
  done := succeeded_successCompletion s (.complex y)
  re k hk := by
    have hd : s.dstRe.toNat + 8 * y.length ≤ s.dstIm.toNat ∨ s.dstIm.toNat + 8 * y.length ≤ s.dstRe.toNat :=
      h.resolve_left (by omega)
    refine memRead_of_bytes fun i hi => ?_
    simp only [readByte, successCompletion_dmem, writeOutput_dmem_complex, memGet?_memWriteC _ hd]
    rw [if_pos (by omega), Option.getD_some]
    have e1 : (s.dstRe.toNat + 8 * k + i - s.dstRe.toNat) / 8 = k := by omega
    have e2 : (s.dstRe.toNat + 8 * k + i - s.dstRe.toNat) % 8 = i := by omega
    rw [e1, e2]
  im k hk := by
    have hd : s.dstRe.toNat + 8 * y.length ≤ s.dstIm.toNat ∨ s.dstIm.toNat + 8 * y.length ≤ s.dstRe.toNat :=
      h.resolve_left (by omega)
    refine memRead_of_bytes fun i hi => ?_
    simp only [readByte, successCompletion_dmem, writeOutput_dmem_complex, memGet?_memWriteC _ hd]
    rw [if_neg (by omega), if_pos (by omega), Option.getD_some]
    have e1 : (s.dstIm.toNat + 8 * k + i - s.dstIm.toNat) / 8 = k := by omega
    have e2 : (s.dstIm.toNat + 8 * k + i - s.dstIm.toNat) % 8 = i := by omega
    rw [e1, e2]
  frame a h1 h2 := by
    simp only [readByte, successCompletion_dmem, writeOutput_dmem_complex, successCompletion_epoch]
    rw [memGet?_memWriteC_outside a h1 h2]

/-- A real output reads back word by word. -/
theorem wroteReal_successCompletion (s : State) (y : List F64) : WroteReal s (successCompletion s (.real y)) y where
  done := succeeded_successCompletion s (.real y)
  re k hk := by
    refine memRead_of_bytes fun i hi => ?_
    simp only [readByte, successCompletion_dmem, writeOutput_dmem_real, memGet?_memWriteR]
    rw [if_pos (by omega), Option.getD_some]
    have e1 : (s.dstRe.toNat + 8 * k + i - s.dstRe.toNat) / 8 = k := by omega
    have e2 : (s.dstRe.toNat + 8 * k + i - s.dstRe.toNat) % 8 = i := by omega
    rw [e1, e2]
  frame a h := by
    simp only [readByte, successCompletion_dmem, writeOutput_dmem_real, successCompletion_epoch, memGet?_memWriteR]
    rw [InBuffer] at h
    rw [if_neg h]

/-! ### The commands as one table -/

/-- The checks of every command, as its meaning states them. -/
def checksOf (s : State) : Instr → Checks
  | .nop => { empty := false, oddlen := false, badlen := false, input := .none, output := .none }
  | .fft _ | .fftshift => { empty := false, oddlen := false, badlen := s.cfg.nmax < lenOf s, input := .complex (lenOf s), output := .complex (lenOf s) }
  | .r2fft | .bitrev => { empty := false, oddlen := false, badlen := !isPow2 (lenOf s) || s.cfg.nmax < lenOf s, input := .complex (lenOf s), output := .complex (lenOf s) }
  | .bfstage t => { empty := false, oddlen := false, badlen := !isPow2 (lenOf s) || lenOf s < 2 || s.cfg.nmax < lenOf s || Nat.log2 (lenOf s) ≤ t, input := .complex (lenOf s), output := .complex (lenOf s) }
  | .bluestein => { empty := false, oddlen := false, badlen := lenOf s < 3 || s.cfg.nmax < lenOf s || isPow2 (lenOf s), input := .complex (lenOf s), output := .complex (lenOf s) }
  | .twtab => { empty := false, oddlen := false, badlen := !isPow2 (lenOf s) || 2 * s.cfg.nmax < lenOf s, input := .none, output := .complex (lenOf s / 2) }
  | .chirptab => { empty := false, oddlen := false, badlen := s.cfg.nmax < lenOf s, input := .none, output := .complex (lenOf s) }
  | .fftreal => { empty := false, oddlen := false, badlen := s.cfg.nmax < lenOf s, input := .real (lenOf s), output := .complex (lenOf s) }
  | .fftrealhalf q => { empty := lenOf s = 0, oddlen := lenOf s % 2 = 1, badlen := s.cfg.nmax < lenOf s, input := .real (lenOf s), output := .complex (lenOf s / 2 + q.toNat) }
  | .fftrealspec q => { empty := lenOf s = 0, oddlen := false, badlen := s.cfg.nmax < lenOf s, input := .real (lenOf s), output := .complex (spectrumCount (lenOf s) q) }
  | .ifftreal _ | .ifftreals _ => { empty := false, oddlen := false, badlen := s.cfg.nmax < lenOf s || s.cfg.nmax < outlenOf s, input := .complex (lenOf s), output := .real (outlenOf s) }
  | .ifftrealo _ => { empty := false, oddlen := outlenOf s % 2 = 1, badlen := s.cfg.nmax < lenOf s || s.cfg.nmax < outlenOf s, input := .complex (lenOf s), output := .real (outlenOf s) }

/-- The result of every command, as its meaning states it. -/
def resultOf (s : State) (d : Draw) : Instr → Output
  | .nop => .none
  | .fft forward => .complex (ffte s.cfg d (inputC s) forward)
  | .r2fft => .complex (r2 s.cfg d (inputC s))
  | .bluestein => .complex (bluestein s.cfg d (inputC s))
  | .bitrev => .complex (bitRevPermute (inputC s))
  | .bfstage t => .complex (stage s.cfg d (inputC s) (2 ^ t))
  | .twtab => .complex (tabulate (lenOf s / 2) fun k => romRead s.cfg (lenOf s) k)
  | .chirptab => .complex (chirp s.cfg (lenOf s))
  | .fftreal => .complex (ffte s.cfg d (realToComplex (inputR s)) true)
  | .fftrealhalf q => .complex (realHalf s.cfg d (inputR s) q)
  | .fftrealspec q => .complex (realSpectrum s.cfg d (inputR s) q)
  | .ifftreal q =>
    .real (if outlenOf s % 2 = 0 then inverseOpt s.cfg d (inputC s) (outlenOf s) q
      else inverseSimple s.cfg d (inputC s) (outlenOf s) q)
  | .ifftreals q => .real (inverseSimple s.cfg d (inputC s) (outlenOf s) q)
  | .ifftrealo q => .real (inverseOpt s.cfg d (inputC s) (outlenOf s) q)
  | .fftshift => .complex (shiftHalf (inputC s))

/-- Every command is the shared step on its checks and its result. -/
theorem exec_eq_runCommand (i : Instr) (s : State) : exec i s = runCommand s (checksOf s i) (fun d => resultOf s d i) := by
  cases i <;> rfl

/-- The one inversion of `exec`: an error completion with the first failing check's code, or a success completion. -/
theorem exec_cases {i : Instr} {s t : State} (h : exec i s = .next t) :
    (∃ e, failedCheck s (checksOf s i) = some e ∧ t = errorCompletion s e) ∨
    (failedCheck s (checksOf s i) = none ∧ t = successCompletion s (resultOf s [s.nanCtr] i)) := by
  rw [exec_eq_runCommand] at h
  rcases runCommand_cases s (checksOf s i) (fun d => resultOf s d i) with ⟨e, h1, h2⟩ | ⟨h1, h2⟩
  · exact .inl ⟨e, h1, by rw [h2] at h; exact (Host.Outcome.next.inj h).symm⟩
  · exact .inr ⟨h1, by rw [h2] at h; exact (Host.Outcome.next.inj h).symm⟩

end Sys2Proof.Machine
end

