-- ==== Sys2Proof/Laws/NaNs.lean ====
section
/-! SUPPORT. Results up to NaN encodings (00_scope.md R11): every operation, pass and transform gives results equal up to
NaN encodings on operands equal up to NaN encodings, whatever NaN encodings it draws. -/

namespace Sys2Proof.Machine

/-! ### NaNs -/

theorem fIsNaN_fPack (s : Bool) (m : Nat) (hm : m < 2 ^ 63) : fIsNaN (fPack s m) = true ↔ fInfBits < m := by
  have h1 : (2 : Nat) ^ 63 < 2 ^ 64 := by norm_num
  cases s <;> simp only [fIsNaN, fExp, fFrac, fPack, fInfBits, BitVec.toNat_ofNat, Bool.and_eq_true, decide_eq_true_eq] <;>
    simp <;> omega

theorem fIsNaN_fNaN (d : Draw) : fIsNaN (fNaN d) = true := by
  rw [fNaN]
  have h := (Config.nanDraw d).2.isLt
  refine (fIsNaN_fPack _ _ ?_).mpr ?_ <;> split_ifs with hv
  · decide
  · simp only [fInfBits]; omega
  · omega
  · have : (Config.nanDraw d).2.toNat ≠ 0 := fun h0 => hv (BitVec.eq_of_toNat_eq h0)
    omega

theorem fIsNaN_fNeg (x : F64) : fIsNaN (fNeg x) = fIsNaN x := by
  have e : fExp (fNeg x) = fExp x := by
    have : ∀ y : F64, fExp y = (y.extractLsb' 52 11).toNat := fun y => by
      simp [fExp, BitVec.extractLsb'_toNat, Nat.shiftRight_eq_div_pow]
    rw [this, this, fNeg, BitVec.extractLsb'_xor]; simp
  have f : fFrac (fNeg x) = fFrac x := by
    have : ∀ y : F64, fFrac y = (y.extractLsb' 0 52).toNat := fun y => by
      simp [fFrac, BitVec.extractLsb'_toNat]
    rw [this, this, fNeg, BitVec.extractLsb'_xor]; simp
  rw [fIsNaN, fIsNaN, e, f]

/-! ### Operations -/

theorem SameUpToNaN.refl (x : F64) : SameUpToNaN x x := .inl rfl

theorem SameC.refl (a : Cplx) : SameC a a := ⟨.refl _, .refl _⟩

theorem SameSeq.refl (x : List Cplx) : SameSeq x x := ⟨rfl, fun _ _ => .refl _⟩

/-- An operation that gives a NaN on a NaN operand, and whose draw decides at most a NaN's encoding, is one of values
up to NaN encodings. -/
theorem sameUpToNaN_op {f : Draw → F64 → F64 → F64}
    (hn : ∀ d x y, fIsNaN x = true ∨ fIsNaN y = true → fIsNaN (f d x y) = true)
    (hd : ∀ d d' x y, SameUpToNaN (f d x y) (f d' x y)) {x x' y y' : F64} (d d' : Draw)
    (hx : SameUpToNaN x x') (hy : SameUpToNaN y y') : SameUpToNaN (f d x y) (f d' x' y') := by
  rcases hx with rfl | ⟨h1, h2⟩
  · rcases hy with rfl | ⟨h1, h2⟩
    · exact hd d d' x y
    · exact .inr ⟨hn _ _ _ (.inr h1), hn _ _ _ (.inr h2)⟩
  · exact .inr ⟨hn _ _ _ (.inl h1), hn _ _ _ (.inl h2)⟩

theorem sameUpToNaN_fNaN (d d' : Draw) : SameUpToNaN (fNaN d) (fNaN d') := .inr ⟨fIsNaN_fNaN d, fIsNaN_fNaN d'⟩

section Operations

variable {x x' y y' : F64} (d d' : Draw)

theorem fAdd_same (hx : SameUpToNaN x x') (hy : SameUpToNaN y y') : SameUpToNaN (fAdd d x y) (fAdd d' x' y') := by
  refine sameUpToNaN_op (fun d x y h => ?_) (fun d d' x y => ?_) d d' hx hy
  · rw [fAdd, if_pos (by simpa using h), fIsNaN_fNaN]
  · unfold fAdd; split_ifs <;> first | exact .refl _ | exact sameUpToNaN_fNaN _ _

theorem fNeg_same (hx : SameUpToNaN x x') : SameUpToNaN (fNeg x) (fNeg x') :=
  hx.imp (congrArg fNeg) fun h => ⟨(fIsNaN_fNeg x).trans h.1, (fIsNaN_fNeg x').trans h.2⟩

theorem fSub_same (hx : SameUpToNaN x x') (hy : SameUpToNaN y y') : SameUpToNaN (fSub d x y) (fSub d' x' y') :=
  fAdd_same d d' hx (fNeg_same hy)

theorem fMul_same (hx : SameUpToNaN x x') (hy : SameUpToNaN y y') : SameUpToNaN (fMul d x y) (fMul d' x' y') := by
  refine sameUpToNaN_op (fun d x y h => ?_) (fun d d' x y => ?_) d d' hx hy
  · rw [fMul, if_pos (by simpa using h), fIsNaN_fNaN]
  · unfold fMul; split_ifs <;> first | exact .refl _ | exact sameUpToNaN_fNaN _ _

theorem fDiv_same (hx : SameUpToNaN x x') (hy : SameUpToNaN y y') : SameUpToNaN (fDiv d x y) (fDiv d' x' y') := by
  refine sameUpToNaN_op (fun d x y h => ?_) (fun d d' x y => ?_) d d' hx hy
  · rw [fDiv, if_pos (by simpa using h), fIsNaN_fNaN]
  · unfold fDiv; split_ifs <;> first | exact .refl _ | exact sameUpToNaN_fNaN _ _

end Operations

/-! ### Complex operations -/

section Complex

variable {a a' b b' : Cplx} (d d' : Draw)

theorem cAdd_same (ha : SameC a a') (hb : SameC b b') : SameC (cAdd d a b) (cAdd d' a' b') :=
  ⟨fAdd_same _ _ ha.1 hb.1, fAdd_same _ _ ha.2 hb.2⟩

theorem cSub_same (ha : SameC a a') (hb : SameC b b') : SameC (cSub d a b) (cSub d' a' b') :=
  ⟨fSub_same _ _ ha.1 hb.1, fSub_same _ _ ha.2 hb.2⟩

theorem cScale_same {v v' : F64} (ha : SameC a a') (hv : SameUpToNaN v v') : SameC (cScale d a v) (cScale d' a' v') :=
  ⟨fMul_same _ _ ha.1 hv, fMul_same _ _ ha.2 hv⟩

theorem cConj_same (ha : SameC a a') : SameC (cConj a) (cConj a') := ⟨ha.1, fNeg_same ha.2⟩

theorem cSwap_same (ha : SameC a a') : SameC (cSwap a) (cSwap a') := ⟨ha.2, ha.1⟩

theorem cMul_same (ha : SameC a a') (hb : SameC b b') : SameC (cMul d a b) (cMul d' a' b') :=
  ⟨fSub_same _ _ (fMul_same _ _ ha.1 hb.1) (fMul_same _ _ ha.2 hb.2),
   fAdd_same _ _ (fMul_same _ _ ha.1 hb.2) (fMul_same _ _ ha.2 hb.1)⟩

theorem butterfly_same {w : Cplx} (ha : SameC a a') (hb : SameC b b') :
    SameC (butterfly d a b w).1 (butterfly d' a' b' w).1 ∧ SameC (butterfly d a b w).2 (butterfly d' a' b' w).2 :=
  have ht := cMul_same (0 :: d) (0 :: d') hb (SameC.refl (cConj w))
  ⟨cAdd_same _ _ ha ht, cSub_same _ _ ha ht⟩

end Complex

/-! ### Sequences -/

section Sequences

variable {x x' : List Cplx}

/-- Every element, those past the end included. -/
theorem SameSeq.cAt (h : SameSeq x x') (k : Nat) : SameC (cAt x k) (cAt x' k) := by
  by_cases hk : k < x.length
  · exact h.2 k hk
  · rw [cAt_of_length_le (by omega), cAt_of_length_le (by have := h.1; omega)]
    exact .refl _

theorem tabulate_same {n : Nat} {f g : Nat → Cplx} (h : ∀ k, k < n → SameC (f k) (g k)) :
    SameSeq (tabulate n f) (tabulate n g) := by
  refine ⟨by simp, fun k hk => ?_⟩
  rw [length_tabulate] at hk
  rw [cAt_tabulate hk, cAt_tabulate hk]
  exact h k hk

theorem set_same (h : SameSeq x x') (i : Nat) {v v' : Cplx} (hv : SameC v v') : SameSeq (x.set i v) (x'.set i v') := by
  refine ⟨by simpa using h.1, fun k hk => ?_⟩
  rw [List.length_set] at hk
  by_cases hi : i < x.length
  · rw [cAt_set hi, cAt_set (h.1 ▸ hi)]
    split_ifs
    · exact hv
    · exact h.2 k hk
  · rw [List.set_eq_of_length_le (by omega), List.set_eq_of_length_le (by have := h.1; omega)]
    exact h.2 k hk

theorem swap_same (h : SameSeq x x') : SameSeq (x.map cSwap) (x'.map cSwap) := by
  refine ⟨by simpa using h.1, fun k hk => ?_⟩
  rw [List.length_map] at hk
  rw [cAt_map_swap hk, cAt_map_swap (h.1 ▸ hk)]
  exact cSwap_same (h.2 k hk)

/-- A fold of steps that keep sequences equal up to NaN encodings does so too. -/
theorem foldl_same {β : Type} {f g : List Cplx → β → List Cplx} (l : List β)
    (hfg : ∀ u v i, SameSeq u v → SameSeq (f u i) (g v i)) :
    ∀ {u v : List Cplx}, SameSeq u v → SameSeq (l.foldl f u) (l.foldl g v) := by
  induction l with
  | nil => exact id
  | cons i l ih => exact fun h => ih (hfg _ _ i h)

/-! ### Transforms -/

theorem stage_same (c : Config) (d d' : Draw) (h : SameSeq x x') (mMax : Nat) :
    SameSeq (stage c d x mMax) (stage c d' x' mMax) := by
  rw [stage, stage, h.1]
  refine foldl_same _ (fun u v m huv => foldl_same _ (fun u v k huv => ?_) huv) h
  have hb := butterfly_same ((m + 2 * mMax * k) :: d) ((m + 2 * mMax * k) :: d') (w := twiddle c x'.length mMax m)
    (huv.cAt (m + 2 * mMax * k)) (huv.cAt (m + 2 * mMax * k + mMax))
  exact set_same (set_same huv _ hb.1) _ hb.2

theorem bitRevPermute_same (h : SameSeq x x') : SameSeq (bitRevPermute x) (bitRevPermute x') := by
  rw [bitRevPermute, bitRevPermute, h.1]
  exact tabulate_same fun k _ => h.cAt _

theorem r2_same (c : Config) (d d' : Draw) (h : SameSeq x x') : SameSeq (r2 c d x) (r2 c d' x') := by
  unfold r2
  rw [h.1]
  split_ifs
  · exact h
  · exact foldl_same _ (fun u v t huv => stage_same c (t :: d) (t :: d') huv (2 ^ t)) (bitRevPermute_same h)

theorem r2Inverse_same (c : Config) (d d' : Draw) (h : SameSeq x x') :
    SameSeq (r2Inverse c d x) (r2Inverse c d' x') := swap_same (r2_same c d d' (swap_same h))

theorem bluesteinConvolve_same (c : Config) (d d' : Draw) {a a' b b' : List Cplx} (ha : SameSeq a a')
    (hb : SameSeq b b') (m : Nat) : SameSeq (bluesteinConvolve c d a b m) (bluesteinConvolve c d' a' b' m) :=
  have hp := tabulate_same (n := m) fun k _ =>
    cMul_same (k :: 2 :: d) (k :: 2 :: d') ((r2_same c (0 :: d) (0 :: d') ha).cAt k) ((r2_same c (1 :: d) (1 :: d') hb).cAt k)
  tabulate_same fun k _ =>
    cScale_same _ _ ((r2Inverse_same c (3 :: d) (3 :: d') hp).cAt k) (fDiv_same _ _ (.refl _) (.refl _))

theorem bluestein_same (c : Config) (d d' : Draw) (h : SameSeq x x') :
    SameSeq (bluestein c d x) (bluestein c d' x') := by
  unfold bluestein bluesteinA
  rw [h.1]
  refine tabulate_same fun k _ => cMul_same _ _ ((bluesteinConvolve_same c _ _ ?_ (.refl _) _).cAt k) (.refl _)
  refine tabulate_same fun k _ => ?_
  split_ifs
  · exact cMul_same _ _ (h.cAt k) (.refl _)
  · exact .refl _

theorem core_same (c : Config) (d d' : Draw) (h : SameSeq x x') : SameSeq (core c d x) (core c d' x') := by
  unfold core
  rw [h.1]
  split_ifs
  · exact r2_same c d d' h
  · exact bluestein_same c d d' h

theorem ffte_same (c : Config) (d d' : Draw) (h : SameSeq x x') (forward : Bool) :
    SameSeq (ffte c d x forward) (ffte c d' x' forward) := by
  unfold ffte
  rw [h.1]
  split_ifs
  · exact h
  · exact core_same c d d' h
  · exact swap_same (core_same c d d' (swap_same h))

/-! ### The codec -/

theorem realHalfBin_same (c : Config) (d d' : Draw) (h : SameSeq x x') (n k : Nat) :
    SameC (realHalfBin c d x n k) (realHalfBin c d' x' n k) :=
  have hk := h.cAt k
  have hc := cConj_same (h.cAt ((n / 2 - k) % (n / 2)))
  have hd := cScale_same (3 :: d) (3 :: d') (cSub_same (2 :: d) (2 :: d') hk hc) (.refl fHalf)
  cAdd_same _ _ (cScale_same _ _ (cAdd_same _ _ hk hc) (.refl _)) (cMul_same _ _ ⟨hd.2, fNeg_same hd.1⟩ (.refl _))

theorem append_same {y y' : List Cplx} (h : SameSeq x x') (hy : SameSeq y y') : SameSeq (x ++ y) (x' ++ y') := by
  refine ⟨by simp [h.1, hy.1], fun k _ => ?_⟩
  by_cases hx : k < x.length
  · simpa only [Machine.cAt, List.getD_append _ _ _ _ hx, List.getD_append _ _ _ _ (h.1 ▸ hx)] using h.cAt k
  · have hx' := Nat.le_of_not_lt hx
    simpa only [Machine.cAt, List.getD_append_right _ _ _ _ hx', List.getD_append_right _ _ _ _ (h.1 ▸ hx'), h.1]
      using hy.cAt (k - x'.length)

theorem singleton_same {a b : Cplx} (h : SameC a b) : SameSeq [a] [b] := by
  refine ⟨rfl, fun k hk => ?_⟩
  obtain rfl : k = 0 := Nat.lt_one_iff.mp hk
  exact h

theorem realHalf_same (c : Config) (d d' : Draw) (r : List F64) (q : Bool) :
    SameSeq (realHalf c d r q) (realHalf c d' r q) := by
  unfold realHalf
  have hz := ffte_same c (0 :: d) (0 :: d') (.refl (tabulate (r.length / 2) fun k => ⟨rAt r (2 * k), rAt r (2 * k + 1)⟩)) true
  have hb := tabulate_same (n := r.length / 2) fun k _ => realHalfBin_same c (k :: 1 :: d) (k :: 1 :: d') hz r.length k
  cases q
  · exact hb
  · exact append_same hb (singleton_same ⟨fSub_same _ _ (hz.cAt 0).1 (hz.cAt 0).2, .refl _⟩)

end Sequences

end Sys2Proof.Machine
end

