-- ==== Sys2Proof/Laws/PerInstr.lean ====
section
/-! SUPPORT. One lemma per command: its word is selected by its own row of the opcode table. -/

namespace Sys2Proof.Laws.TableRow

/-- The word of a well-formed command is selected by the row of its mnemonic in spec/opcode_table.json
(30_encoding.md R68). -/
def Statement (i : Instr) : Prop :=
  i.wellFormed = true → ∃ r ∈ opcodeTable, r.mnemonic = i.mnemonic ∧ r.selects (encode i) = true

theorem nop : Statement .nop := fun _ => by decide

theorem fft (forward : Bool) : Statement (.fft forward) := fun _ => by revert forward; decide

theorem r2fft : Statement .r2fft := fun _ => by decide

theorem bluestein : Statement .bluestein := fun _ => by decide

theorem bitrev : Statement .bitrev := fun _ => by decide

theorem bfstage (stage : Nat) : Statement (.bfstage stage) := fun h => by
  have h' : stage < 32 := by simpa [Instr.wellFormed] using h
  clear h
  revert stage
  decide

theorem twtab : Statement .twtab := fun _ => by decide

theorem chirptab : Statement .chirptab := fun _ => by decide

theorem fftreal : Statement .fftreal := fun _ => by decide

theorem fftrealhalf (q : Bool) : Statement (.fftrealhalf q) := fun _ => by revert q; decide

theorem fftrealspec (q : Bool) : Statement (.fftrealspec q) := fun _ => by revert q; decide

theorem ifftreal (q : Bool) : Statement (.ifftreal q) := fun _ => by revert q; decide

theorem ifftreals (q : Bool) : Statement (.ifftreals q) := fun _ => by revert q; decide

theorem ifftrealo (q : Bool) : Statement (.ifftrealo q) := fun _ => by revert q; decide

theorem fftshift : Statement .fftshift := fun _ => by decide

end Sys2Proof.Laws.TableRow
end

