-- ==== Sys2Proof/Laws/Steps.lean ====
section
/-! SUPPORT. What one step can do, said once: the inversion of the engine's step, of a host access and of `step`. -/

namespace Sys2Proof.Machine

/-! ### The register window -/

theorem csrAt_offset (r : Csr) : csrAt r.offset = some r := by cases r <;> rfl

theorem csrAt_eq_some {off : Nat} {r : Csr} (h : csrAt off = some r) : off = r.offset := by
  unfold csrAt at h
  split at h <;> simp at h <;> subst h <;> rfl

theorem offset_legal (r : Csr) : r.offset < 256 ∧ r.offset % 4 = 0 := by cases r <;> decide

/-- A 32-bit write at a register's address is a write of that register. -/
theorem busAccess_write (s : State) (r : Csr) (v : BitVec 64) :
    busAccess s (s.cfg.base + r.offset) 4 (some v) = respond (csrWrite s r (v.setWidth 32)) .written := by
  simp [busAccess, csrAccess, csrAt_offset, offset_legal r]

/-- A 32-bit read at a register's address returns its value. -/
theorem busAccess_read (s : State) (r : Csr) :
    busAccess s (s.cfg.base + r.offset) 4 none = respond s (.read32 (csrRead s r)) := by
  simp [busAccess, csrAccess, csrAt_offset, offset_legal r]

/-! ### What a host access can do -/

/-- The four effects a host access can have beside its answer: none, a register write, the access violation flag, a DMEM
write. -/
inductive AccessCase (s : State) (address width : Nat) (data : Option (BitVec 64)) (t : State) : Prop
  | answer (r : Response) (ht : t = respond s r)
  | register (r : Csr) (v : BitVec 64) (hd : data = some v) (hw : width = 4) (ha : address = s.cfg.base + r.offset)
      (ht : t = respond (csrWrite s r (v.setWidth 32)) .written)
  | violation (a : Nat) (r : Response) (hw : width = 8) (ha : address = s.cfg.dbase + a) (h8 : a % 8 = 0)
      (hle : a + 8 ≤ s.cfg.dmemBytes) (hb : s.status.busy = true) (ht : t = respond (setAccv s) r)
  | store (a : Nat) (v : F64) (hd : data = some v) (hw : width = 8) (ha : address = s.cfg.dbase + a) (h8 : a % 8 = 0)
      (hle : a + 8 ≤ s.cfg.dmemBytes) (hb : s.status.busy = false)
      (ht : t = respond { s with dmem := memWrite s.dmem a v } .written)

theorem busAccess_cases (s : State) (address width : Nat) (data : Option (BitVec 64)) :
    AccessCase s address width data (busAccess s address width data) := by
  simp only [busAccess, csrAccess, dmemAccess, Bool.and_eq_true, decide_eq_true_eq]
  split_ifs with h1 h2 h3 h4
  · cases hc : csrAt (address - s.cfg.base) with
    | none => cases data <;> exact .answer _ rfl
    | some r =>
      cases data with
      | none => exact .answer _ rfl
      | some v => exact .register r v rfl h2.1 (by have := csrAt_eq_some hc; omega) rfl
  · exact .answer _ rfl
  · have ha : address = s.cfg.dbase + (address - s.cfg.dbase) := by omega
    cases hb : s.status.busy <;> cases data
    · exact .answer _ rfl
    · exact .store _ _ rfl h4.1.1 ha h4.1.2 h4.2 hb rfl
    · exact .violation _ _ h4.1.1 ha h4.1.2 h4.2 hb rfl
    · exact .violation _ _ h4.1.1 ha h4.1.2 h4.2 hb rfl
  · exact .answer _ rfl
  · exact .answer _ rfl

/-! ### What the engine's step can do -/

/-- With BUSY = 0 the engine does nothing; with BUSY = 1 the command in `CMD` ends with an error, or succeeds. -/
theorem engineStep_cases (s : State) :
    (s.status.busy = false ∧ engineStep s = .next s) ∨
    (s.status.busy = true ∧
      ((∃ e, engineStep s = .next (errorCompletion s e)) ∨
        ∃ i, decodeWord s.cmd = .ok i ∧ failedCheck s (checksOf s i) = none ∧
          engineStep s = .next (successCompletion s (resultOf s [s.nanCtr] i)))) := by
  unfold engineStep
  cases hb : s.status.busy
  · exact .inl ⟨rfl, rfl⟩
  · refine .inr ⟨rfl, ?_⟩
    cases hd : decodeWord s.cmd with
    | error r => exact .inl ⟨_, rfl⟩
    | ok i =>
      simp only [if_true, exec_eq_runCommand]
      rcases runCommand_cases s (checksOf s i) (fun d => resultOf s d i) with ⟨e, _, h⟩ | ⟨h1, h⟩
      · exact .inl ⟨e, h⟩
      · exact .inr ⟨i, rfl, h1, h⟩

/-! ### What a step can do -/

/-- Everything one step can do. `dropEvent s` is `s` with the event at the head of the agenda taken. -/
inductive StepCase (s t : State) : Prop
  | idle (hn : EngineIsNext s) (hb : s.status.busy = false) (ht : t = dropEvent s)
  | fails (hn : EngineIsNext s) (hb : s.status.busy = true) (e : ErrCode) (ht : t = errorCompletion (dropEvent s) e)
  | succeeds (hn : EngineIsNext s) (hb : s.status.busy = true) (i : Instr) (hi : decodeWord s.cmd = .ok i)
      (hc : failedCheck (dropEvent s) (checksOf (dropEvent s) i) = none)
      (ht : t = successCompletion (dropEvent s) (resultOf (dropEvent s) [s.nanCtr] i))
  | reset (rest : List Event) (ha : s.agenda = .rst :: rest) (ht : t = assertReset (dropEvent s))
  | answer (a : HostAccess) (rest : List Event) (ha : s.agenda = .host a :: rest) (r : Response)
      (ht : t = respond (dropEvent s) r)
  | register (r : Csr) (v : BitVec 64) (rest : List Event)
      (ha : s.agenda = .host (.write (s.cfg.base + r.offset) 4 v) :: rest)
      (ht : t = respond (csrWrite (dropEvent s) r (v.setWidth 32)) .written)
  | violation (a : Nat) (v : BitVec 64) (rest : List Event) (r : Response) (hb : s.status.busy = true)
      (h8 : a % 8 = 0) (hle : a + 8 ≤ s.cfg.dmemBytes)
      (ha : s.agenda = .host (.read (s.cfg.dbase + a) 8) :: rest ∨ s.agenda = .host (.write (s.cfg.dbase + a) 8 v) :: rest)
      (ht : t = respond (setAccv (dropEvent s)) r)
  | store (a : Nat) (v : F64) (rest : List Event) (hb : s.status.busy = false) (h8 : a % 8 = 0)
      (hle : a + 8 ≤ s.cfg.dmemBytes) (ha : s.agenda = .host (.write (s.cfg.dbase + a) 8 v) :: rest)
      (ht : t = respond { dropEvent s with dmem := memWrite s.dmem a v } .written)

theorem step_cases {s t : State} (h : step s = .next t) : StepCase s t := by
  have engine : EngineIsNext s → engineStep (dropEvent s) = .next t → StepCase s t := by
    intro hn he
    rcases engineStep_cases (dropEvent s) with ⟨hb, h'⟩ | ⟨hb, ⟨e, h'⟩ | ⟨i, hi, hc, h'⟩⟩ <;> rw [h'] at he <;> cases he
    · exact .idle hn hb rfl
    · exact .fails hn hb e rfl
    · exact .succeeds hn hb i hi hc rfl
  unfold step at h
  split at h
  · rename_i ha
    refine engine (.inl ha) ?_
    have hd : dropEvent s = s := by cases s; simp_all [dropEvent]
    rwa [hd]
  · rename_i rest ha
    refine engine (.inr ⟨rest, ha⟩) ?_
    simpa [dropEvent, ha] using h
  · rename_i a rest ha
    have hd : { s with agenda := rest } = dropEvent s := by simp [dropEvent, ha]
    cases h
    rw [hd]
    cases a with
    | read address width =>
      rcases busAccess_cases (dropEvent s) address width none with
        ⟨r, ht⟩ | ⟨r, v, hx, -, -, -⟩ | ⟨a, r, rfl, rfl, h8, hle, hb, ht⟩ | ⟨a, v, hx, -, -, -, -, -, -⟩
      · exact .answer _ rest ha r ht
      · cases hx
      · exact .violation a 0#64 rest r hb h8 hle (.inl ha) ht
      · cases hx
    | write address width x =>
      rcases busAccess_cases (dropEvent s) address width (some x) with
        ⟨r, ht⟩ | ⟨r, v, hx, rfl, rfl, ht⟩ | ⟨a, r, rfl, rfl, h8, hle, hb, ht⟩ | ⟨a, v, hx, rfl, rfl, h8, hle, hb, ht⟩
      · exact .answer _ rest ha r ht
      · cases hx; exact .register r x rest ha ht
      · exact .violation a x rest r hb h8 hle (.inr ha) ht
      · cases hx; exact .store a x rest hb h8 hle ha ht
  · rename_i rest ha
    cases h
    exact .reset rest ha (by simp [dropEvent, ha])

end Sys2Proof.Machine
end

