-- ==== Sys2Proof/Machine/HostScript.lean ====
section
/-! DEFINITION. The assembler notation and the host scripts of 30_encoding.md R71 to R73: command words from mnemonics,
and agendas from statements. The step function does not use this file. -/

namespace Sys2Proof.Machine

/-- A command as 30_encoding.md R71 writes it: `MNEMONIC[.F|.I][.Q] [S=<s>]`. `direction` is `.F` (true) or `.I`. -/
structure AsmCommand where
  mnemonic : String
  direction : Option Bool
  q : Bool
  stage : Option Nat
deriving DecidableEq, Repr

/-- The command an assembler line stands for, or none where R71 does not allow its suffixes. -/
def asmInstr (a : AsmCommand) : Option Instr :=
  let plain (i : Instr) : Option Instr := if a.direction = none && !a.q && a.stage = none then some i else none
  let withQ (i : Instr) : Option Instr := if a.direction = none && a.stage = none then some i else none
  match a.mnemonic with
  | "NOP" => plain .nop
  | "FFT" => if !a.q && a.stage = none then a.direction.map Instr.fft else none
  | "R2FFT" => plain .r2fft
  | "BLUESTEIN" => plain .bluestein
  | "BITREV" => plain .bitrev
  | "BFSTAGE" => if a.direction = none && !a.q then (a.stage.filter (· ≤ 31)).map Instr.bfstage else none
  | "TWTAB" => plain .twtab
  | "CHIRPTAB" => plain .chirptab
  | "FFTREAL" => plain .fftreal
  | "FFTREALHALF" => withQ (.fftrealhalf a.q)
  | "FFTREALSPEC" => withQ (.fftrealspec a.q)
  | "IFFTREAL" => withQ (.ifftreal a.q)
  | "IFFTREALS" => withQ (.ifftreals a.q)
  | "IFFTREALO" => withQ (.ifftrealo a.q)
  | "FFTSHIFT" => plain .fftshift
  | _ => none

/-- The command word of an assembler line (30_encoding.md R71). -/
def assemble (a : AsmCommand) : Option Word := (asmInstr a).map encode

/-- `csrw NAME, v` (30_encoding.md R72). -/
def csrw (c : Config) (r : Csr) (v : Word) : Event := .host (.write (c.base + r.offset) 4 (v.setWidth 64))

/-- `csrr NAME` (30_encoding.md R72). -/
def csrr (c : Config) (r : Csr) : Event := .host (.read (c.base + r.offset) 4)

/-- `dmw a, v` (30_encoding.md R72). -/
def dmw (c : Config) (a : Nat) (v : F64) : Event := .host (.write (c.dbase + a) 8 v)

/-- `dmr a` (30_encoding.md R72). -/
def dmr (c : Config) (a : Nat) : Event := .host (.read (c.dbase + a) 8)

/-- `cmd C` (30_encoding.md R73), of a command word. -/
def cmdw (c : Config) (w : Word) : Event := csrw c .cmd w

/-- `wait`, when `polls` reads of `STATUS` see BUSY = 1 before the engine's step and one sees BUSY = 0 after it: the
number of reads is not fixed (30_encoding.md R73, 60_exceptions.md R121; log 18). -/
def waitPolls (c : Config) (polls : Nat) : List Event :=
  List.replicate polls (csrr c .status) ++ [.engine, csrr c .status]

/-- `run C` (30_encoding.md R73). -/
def runw (c : Config) (w : Word) (polls : Nat) : List Event := cmdw c w :: waitPolls c polls

/-- `bufs sr, si, dr, di` (30_encoding.md R73). -/
def bufs (c : Config) (sr si dr di : Word) : List Event :=
  [csrw c .srcRe sr, csrw c .srcIm si, csrw c .dstRe dr, csrw c .dstIm di]

/-- `ack`: W1C of DONE, ERR, ACCV and WIGN (30_encoding.md R73). -/
def ack (c : Config) : Event := csrw c .status 0x0000001E#32

/-- `dmwv a, v0, …` (30_encoding.md R73). -/
def dmwv (c : Config) : Nat → List F64 → List Event
  | _, [] => []
  | a, v :: vs => dmw c a v :: dmwv c (a + 8) vs

/-- `dmrv a, k` (30_encoding.md R73). -/
def dmrv (c : Config) (a k : Nat) : List Event := (List.range k).map fun i => dmr c (a + 8 * i)

end Sys2Proof.Machine
end

