-- ==== Sys2Proof/Tests/Slice0.lean ====
section
/-! SUPPORT. The model's own tests: ill-formed terms, decoding of words written out from 30_encoding.md R65 and R67,
one step of every command on the vectors of 95_test_vectors.md, host accesses; and, for every statement with
hypotheses, a state and operands that meet them. -/

namespace Sys2Proof.Tests

open Sys2Proof.Machine

-- The kernel evaluations below run one after the other: each that waits for another would hold a thread of its own.
set_option Elab.async false

/-! ### Well-formedness (R66) -/

theorem test_wellFormed_bfstage_31 : (Instr.bfstage 31).wellFormed = true := by decide

theorem test_wellFormed_refuses_bfstage_32 : (Instr.bfstage 32).wellFormed = false := by decide

/-! ### Decoding: `reserved S Q D OP`, bit by bit (R65, R67) -/

theorem test_decode_nop : decodeWord 0b00000000000000000000000000000000#32 = .ok .nop := by decide

theorem test_decode_fft_forward : decodeWord 0b00000000000000000000000001000001#32 = .ok (.fft true) := by decide

theorem test_decode_fft_inverse : decodeWord 0b00000000000000000000000000000001#32 = .ok (.fft false) := by decide

theorem test_decode_r2fft : decodeWord 0b00000000000000000000000000000010#32 = .ok .r2fft := by decide

theorem test_decode_bluestein : decodeWord 0b00000000000000000000000000000011#32 = .ok .bluestein := by decide

theorem test_decode_bitrev : decodeWord 0b00000000000000000000000000000100#32 = .ok .bitrev := by decide

theorem test_decode_bfstage_2 : decodeWord 0b00000000000000000000001000000101#32 = .ok (.bfstage 2) := by decide

theorem test_decode_bfstage_31 : decodeWord 0b00000000000000000001111100000101#32 = .ok (.bfstage 31) := by decide

theorem test_decode_twtab : decodeWord 0b00000000000000000000000000000110#32 = .ok .twtab := by decide

theorem test_decode_chirptab : decodeWord 0b00000000000000000000000000000111#32 = .ok .chirptab := by decide

theorem test_decode_fftreal : decodeWord 0b00000000000000000000000000001000#32 = .ok .fftreal := by decide

theorem test_decode_fftrealhalf : decodeWord 0b00000000000000000000000000001001#32 = .ok (.fftrealhalf false) := by decide

theorem test_decode_fftrealspec : decodeWord 0b00000000000000000000000010001010#32 = .ok (.fftrealspec true) := by decide

theorem test_decode_ifftreal : decodeWord 0b00000000000000000000000010001011#32 = .ok (.ifftreal true) := by decide

theorem test_decode_ifftreals : decodeWord 0b00000000000000000000000000001100#32 = .ok (.ifftreals false) := by decide

theorem test_decode_ifftrealo : decodeWord 0b00000000000000000000000010001101#32 = .ok (.ifftrealo true) := by decide

theorem test_decode_fftshift : decodeWord 0b00000000000000000000000000001110#32 = .ok .fftshift := by decide

/-- 95_test_vectors.md V51. -/
theorem test_decode_refuses_illegal_words :
    ([0x0000000F, 0x0000003F, 0x00000040, 0x000000C1, 0x00000141, 0x00000082, 0x00002005, 0x80000041, 0x00000049].map
      (decodeTableWord 32)) = List.replicate 9 none := by decide

/-- The first word's bytes, low byte first, then what follows it (20_memory.md R47). -/
theorem test_decode_bytes : decodeBytes [0x05#8, 0x02#8, 0x00#8, 0x00#8, 0xAA#8] = .ok (.bfstage 2, [0xAA#8]) := by decide

/-! ### One step of every command -/

/-- The bytes of the words `ws` at `a`, as DMEM holds them. -/
def bytesAt (a : Nat) (ws : List F64) : Memory :=
  (List.range ws.length).flatMap fun k =>
    (List.range 8).map fun i => (a + 8 * k + i, (rAt ws k).extractLsb' (8 * i) 8)

/-- A machine whose input buffers, at 0x200 and 0x300, hold `re` and `im`, with its output buffers at 0x000 and 0x100. -/
def ready (len outlen : Nat) (re im : List F64) : State :=
  { State.reset with
    len := BitVec.ofNat 32 len, outlen := BitVec.ofNat 32 outlen, srcRe := 0x200#32, srcIm := 0x300#32,
    dstRe := 0x000#32, dstIm := 0x100#32, dmem := bytesAt 0x200 re ++ bytesAt 0x300 im }

/-- The machine after one step on the command word `w`. -/
def ran (w : Nat) (s : State) : State :=
  match step (s.withFetchWord 32 w) with
  | .next t => t
  | .fault _ | .refused _ => s

/-- The complex output of `n` elements. -/
def outC (t : State) (n : Nat) : List Cplx := readSeqC t 0x000 0x100 n

/-- The real output of `n` words. -/
def outR (t : State) (n : Nat) : List F64 := readSeqR t 0x000 n

/-- 95_test_vectors.md V52: success with OUTCNT 0. -/
theorem test_nop : csrRead (ran 0x00 (ready 7 9 [] [])) .status = 2#32 ∧ csrRead (ran 0x00 (ready 7 9 [] [])) .outcnt = 0#32 := by
  decide +kernel

/-- 95_test_vectors.md V20. -/
theorem test_fft_forward : outC (ran 0x41 (ready 8 0 [0x4008000000000000#64, 0x4010000000000000#64,
    0x4000000000000000#64, 0x3FF0000000000000#64, 0xC01C000000000000#64, 0x4010000000000000#64,
    0xC000000000000000#64, 0x4014000000000000#64] [0x4020000000000000#64, 0xC008000000000000#64,
    0x4000000000000000#64, 0x4022000000000000#64, 0x3FF0000000000000#64, 0xC014000000000000#64,
    0x4014000000000000#64, 0x4008000000000000#64])) 8 = [⟨0x4024000000000000#64, 0x4034000000000000#64⟩,
    ⟨0x402EF876CCDF6CDA#64, 0x4008000000000000#64⟩, ⟨0xC038000000000000#64, 0x0000000000000000#64⟩,
    ⟨0x402FA827999FCEF4#64, 0x4030A827999FCEF3#64⟩, ⟨0xC032000000000000#64, 0x4028000000000000#64⟩,
    ⟨0xBFF7C3B666FB66D0#64, 0x4008000000000000#64⟩, ⟨0x4030000000000000#64, 0x4010000000000000#64⟩,
    ⟨0x402457D86660310C#64, 0x40155F619980C433#64⟩] := by
  decide +kernel

/-- 95_test_vectors.md V27. -/
theorem test_fft_inverse : outC (ran 0x01 (ready 3 0 [0x3FF0000000000000#64, 0x4008000000000000#64,
    0x4014000000000000#64] [0x4000000000000000#64, 0x4010000000000000#64, 0x4018000000000000#64])) 3 =
    [⟨0x4022000000000000#64, 0x4028000000000000#64⟩, ⟨0xBFF4498517A7B356#64, 0xC012ED9EBA16132A#64⟩,
    ⟨0xC012ED9EBA16132C#64, 0xBFF4498517A7B356#64⟩] := by
  decide +kernel

/-- 95_test_vectors.md V22. -/
theorem test_r2fft : outC (ran 0x02 (ready 2 0 [0x3FF0000000000000#64, 0x4008000000000000#64]
    [0x4000000000000000#64, 0x4010000000000000#64])) 2 = [⟨0x4010000000000000#64, 0x4018000000000000#64⟩,
    ⟨0xC000000000000000#64, 0xC000000000000000#64⟩] := by
  decide +kernel

/-- 95_test_vectors.md V22. -/
theorem test_r2fft_signed_zeros : outC (ran 0x02 (ready 2 0 [0x8000000000000000#64, 0x8000000000000000#64]
    [0x8000000000000000#64, 0x8000000000000000#64])) 2 = [⟨0x8000000000000000#64, 0x0000000000000000#64⟩,
    ⟨0x0000000000000000#64, 0x8000000000000000#64⟩] := by
  decide +kernel

/-- 95_test_vectors.md V32. -/
theorem test_bluestein : outC (ran 0x03 (ready 3 0 [0x3FF0000000000000#64, 0x4000000000000000#64,
    0x4008000000000000#64] [0x0000000000000000#64, 0x0000000000000000#64, 0x0000000000000000#64])) 3 =
    [⟨0x4018000000000000#64, 0xBCA0000000000000#64⟩, ⟨0xBFF7FFFFFFFFFFFE#64, 0x3FEBB67AE8584CA7#64⟩,
    ⟨0xBFF8000000000000#64, 0xBFEBB67AE8584CAF#64⟩] := by
  decide +kernel

/-- 95_test_vectors.md V15. -/
theorem test_bitrev : outC (ran 0x04 (ready 4 0 [0x3FF0000000000000#64, 0x4008000000000000#64,
    0x4000000000000000#64, 0x4010000000000000#64] [0x0000000000000000#64, 0x8000000000000000#64,
    0x4014000000000000#64, 0x0000000000000000#64])) 4 = [⟨0x3FF0000000000000#64, 0x0000000000000000#64⟩,
    ⟨0x4000000000000000#64, 0x4014000000000000#64⟩, ⟨0x4008000000000000#64, 0x8000000000000000#64⟩,
    ⟨0x4010000000000000#64, 0x0000000000000000#64⟩] := by
  decide +kernel

/-- 95_test_vectors.md V21, pass 1. -/
theorem test_bfstage : outC (ran 0x105 (ready 4 0 [0x4010000000000000#64, 0xC000000000000000#64,
    0x4018000000000000#64, 0xC000000000000000#64] [0x0000000000000000#64, 0x0000000000000000#64,
    0x0000000000000000#64, 0x0000000000000000#64])) 4 = [⟨0x4024000000000000#64, 0x0000000000000000#64⟩,
    ⟨0xC000000000000000#64, 0x4000000000000000#64⟩, ⟨0xC000000000000000#64, 0x0000000000000000#64⟩,
    ⟨0xC000000000000000#64, 0xC000000000000000#64⟩] := by
  decide +kernel

/-- 95_test_vectors.md V10. -/
theorem test_twtab : outC (ran 0x06 (ready 8 0 [] [])) 4 = [⟨0x3FF0000000000000#64, 0x0000000000000000#64⟩,
    ⟨0x3FE6A09E667F3BCD#64, 0x3FE6A09E667F3BCD#64⟩, ⟨0x0000000000000000#64, 0x3FF0000000000000#64⟩,
    ⟨0xBFE6A09E667F3BCD#64, 0x3FE6A09E667F3BCD#64⟩] := by
  decide +kernel

/-- 95_test_vectors.md V31. -/
theorem test_chirptab : outC (ran 0x07 (ready 3 0 [] [])) 3 = [⟨0x3FF0000000000000#64, 0x0000000000000000#64⟩,
    ⟨0x3FE0000000000000#64, 0x3FEBB67AE8584CAA#64⟩, ⟨0xBFE0000000000000#64, 0xBFEBB67AE8584CAA#64⟩] := by
  decide +kernel

/-- 95_test_vectors.md V40. -/
theorem test_fftreal : outC (ran 0x08 (ready 4 0 [0x3FF0000000000000#64, 0x4000000000000000#64,
    0x4008000000000000#64, 0x4010000000000000#64] [])) 4 = [⟨0x4024000000000000#64, 0x0000000000000000#64⟩,
    ⟨0xC000000000000000#64, 0x4000000000000000#64⟩, ⟨0xC000000000000000#64, 0x0000000000000000#64⟩,
    ⟨0xC000000000000000#64, 0xC000000000000000#64⟩] := by
  decide +kernel

/-- 95_test_vectors.md V42. -/
theorem test_fftrealhalf : outC (ran 0x89 (ready 4 0 [0x3FF0000000000000#64, 0x4000000000000000#64,
    0x4008000000000000#64, 0x4010000000000000#64] [])) 3 = [⟨0x4024000000000000#64, 0x0000000000000000#64⟩,
    ⟨0xC000000000000000#64, 0x4000000000000000#64⟩, ⟨0xC000000000000000#64, 0x0000000000000000#64⟩] := by
  decide +kernel

/-- 95_test_vectors.md V43: Q is ignored for an odd length. -/
theorem test_fftrealspec : outC (ran 0x8A (ready 1 0 [0x401C000000000000#64] [])) 1 = [⟨0x401C000000000000#64,
    0x0000000000000000#64⟩] := by
  decide +kernel

/-- 95_test_vectors.md V43. -/
theorem test_fftrealspec_nyquist : outC (ran 0x8A (ready 4 0 [0x3FF0000000000000#64, 0x4000000000000000#64,
    0x4008000000000000#64, 0x4010000000000000#64] [])) 3 = [⟨0x4004000000000000#64, 0x0000000000000000#64⟩,
    ⟨0xBFF0000000000000#64, 0x3FF0000000000000#64⟩, ⟨0xBFE0000000000000#64, 0x0000000000000000#64⟩] := by
  decide +kernel

/-- 95_test_vectors.md V47: the bits of V45. -/
theorem test_ifftreal : outR (ran 0x8B (ready 4 6 [0x402BFFFFFFFFFFFF#64, 0xBFFFFFFFFFFFFFFA#64,
    0xBFEFFFFFFFFFFFFB#64, 0xC000000000000000#64] [0x0000000000000000#64, 0xC00BB67AE8584CAA#64,
    0x3FFBB67AE8584CAC#64, 0x0000000000000000#64])) 6 = [0x4018000000000000#64, 0x4031FFFFFFFFFFFF#64,
    0x4038000000000000#64, 0x4032000000000000#64, 0x4017FFFFFFFFFFFD#64, 0x4028000000000001#64] := by
  decide +kernel

/-- 95_test_vectors.md V44: without Q the Nyquist bin is dropped. -/
theorem test_ifftreals : outR (ran 0x0C (ready 3 4 [0x4024000000000000#64, 0xC000000000000000#64,
    0xC000000000000000#64] [0x0000000000000000#64, 0x4000000000000000#64, 0x0000000000000000#64])) 4 =
    [0x4018000000000000#64, 0x4018000000000000#64, 0x402C000000000000#64, 0x402C000000000000#64] := by
  decide +kernel

/-- 95_test_vectors.md V45. -/
theorem test_ifftrealo : outR (ran 0x8D (ready 3 4 [0x4024000000000000#64, 0xC000000000000000#64,
    0xC000000000000000#64] [0x0000000000000000#64, 0x4000000000000000#64, 0x0000000000000000#64])) 4 =
    [0x4010000000000000#64, 0x4020000000000000#64, 0x4028000000000000#64, 0x4030000000000000#64] := by
  decide +kernel

/-- 95_test_vectors.md V48 and R117, an odd length, moves bit for bit. -/
theorem test_fftshift : outC (ran 0x0E (ready 3 0 [0x3FF0000000000000#64, 0x4000000000000000#64,
    0x4008000000000000#64] [0x7FF8000000000001#64, 0x8000000000000000#64, 0x3FF0000000000000#64])) 3 =
    [⟨0x4008000000000000#64, 0x3FF0000000000000#64⟩, ⟨0x3FF0000000000000#64, 0x7FF8000000000001#64⟩,
    ⟨0x4000000000000000#64, 0x8000000000000000#64⟩] := by
  decide +kernel

/-- 95_test_vectors.md V14: an infinite part times a zero twiddle part is NaN, and the machine goes on. -/
theorem test_butterfly_infinity :
    let r := butterfly [] ⟨0x3FF0000000000000#64, 0#64⟩ ⟨0x7FF0000000000000#64, 0#64⟩ ⟨0x3FF0000000000000#64, 0#64⟩
    r.1.re = 0x7FF0000000000000#64 ∧ r.2.re = 0xFFF0000000000000#64 := by
  decide +kernel

/-! ### Checks and errors (95_test_vectors.md V52) -/

/-- The error code, ERR, DONE and OUTCNT a command ends with. -/
def verdict (t : State) : Nat × Bool × Bool × Nat := (t.status.ecode.toNat, t.status.err, t.status.done, t.outcnt.toNat)

theorem test_error_length : verdict (ran 0x41 (ready 1025 0 [] [])) = (4, true, false, 0) := by decide +kernel

theorem test_error_length_before_address :
    verdict (ran 0x41 { ready 1025 0 [] [] with srcRe := 4#32 }) = (4, true, false, 0) := by decide +kernel

theorem test_error_address :
    verdict (ran 0x41 { ready 2 0 [] [] with dstRe := 0xFFF8#32 }) = (5, true, false, 0) := by decide +kernel

theorem test_error_overlap :
    verdict (ran 0x41 { ready 2 0 [] [] with dstRe := 0x4000#32, dstIm := 0x4008#32 }) = (6, true, false, 0) := by
  decide +kernel

theorem test_error_empty : verdict (ran 0x09 (ready 0 0 [] [])) = (2, true, false, 0) := by decide +kernel

theorem test_error_odd : verdict (ran 0x09 { ready 7 0 [] [] with srcRe := 4#32 }) = (3, true, false, 0) := by
  decide +kernel

theorem test_error_badcmd_first : verdict (ran 0xC1 (ready 1025 0 [] [])) = (1, true, false, 0) := by decide +kernel

theorem test_count_zero_ignores_the_buffers :
    verdict (ran 0x41 { ready 0 0 [] [] with srcRe := 3#32, srcIm := 3#32, dstRe := 3#32, dstIm := 3#32 }) =
      (0, false, true, 0) := by decide +kernel

/-! ### The host -/

/-- The machine after one host access. -/
def after (a : HostAccess) (s : State) : State := hostAccess s a

theorem test_host_reads_id : (after (.read 0x00 4) State.reset).resp = .read32 0x46465442#32 := by decide +kernel

theorem test_host_reads_cfg : (after (.read 0x04 4) State.reset).resp = .read32 0x0000010A#32 := by decide +kernel

theorem test_host_reads_dmemw : (after (.read 0x08 4) State.reset).resp = .read32 0x00002000#32 := by decide +kernel

/-- A DMEM word reads back, at the host address `DBASE + a` (R55). -/
theorem test_host_dmem_round_trip :
    (after (.read 0x10008 8) (after (.write 0x10008 8 0x0123456789ABCDEF#64) State.reset)).resp =
      .read64 0x0123456789ABCDEF#64 := by decide +kernel

/-- R50: a 64-bit access to the register window. -/
theorem test_host_wide_register_access : (after (.write 0x18 8 7#64) State.reset).resp = .busError ∧
    (after (.write 0x18 8 7#64) State.reset).len = 0#32 := by decide +kernel

/-- 95_test_vectors.md P5 (a): while busy a register write is ignored and a DMEM read gives 0, with WIGN and ACCV set. -/
theorem test_host_while_busy :
    let s := after (.read 0x10000 8) (after (.write 0x18 4 7#64) (acceptCommand (ready 2 0 [] []) 0x41#32))
    s.len = 2#32 ∧ s.resp = .read64 0#64 ∧ csrRead s .status = 0x19#32 := by decide +kernel

/-- 95_test_vectors.md P3: ERR is cleared by a write of 1, ECODE is kept. -/
theorem test_host_acknowledges :
    let s := { State.reset with ie := true, irq := true, status := { Status.reset with err := true, ecode := 3#4 } }
    csrRead (after (.write 0x10 4 0x1E#64) s) .status = 0x300#32 ∧ (after (.write 0x10 4 0x1E#64) s).irq = false := by
  decide +kernel

/-- 60_exceptions.md R121 with nothing placed: the engine idles. -/
theorem test_reset_idles : step State.reset = .next State.reset := rfl

/-! ### The assembler (30_encoding.md R71, its examples and its refusals) -/

theorem test_assemble_examples :
    assemble ⟨"FFT", some true, false, none⟩ = some 0x00000041#32 ∧
    assemble ⟨"FFT", some false, false, none⟩ = some 0x00000001#32 ∧
    assemble ⟨"FFTREALSPEC", none, true, none⟩ = some 0x0000008A#32 ∧
    assemble ⟨"BFSTAGE", none, false, some 2⟩ = some 0x00000205#32 := by decide

theorem test_assemble_refuses :
    assemble ⟨"FFT", none, false, none⟩ = none ∧ assemble ⟨"R2FFT", none, true, none⟩ = none ∧
    assemble ⟨"BFSTAGE", none, false, some 32⟩ = none ∧ assemble ⟨"BFSTAGE", none, false, none⟩ = none := by decide

/-! ### Witnesses: states and operands that meet the hypotheses of the statements in Obligations.lean -/

/-- The buffers of 95_test_vectors.md V52, with lengths to choose. -/
def sized (len outlen : Nat) : State :=
  { State.reset with
    len := BitVec.ofNat 32 len, outlen := BitVec.ofNat 32 outlen, srcRe := 0x0000#32, srcIm := 0x2000#32,
    dstRe := 0x4000#32, dstIm := 0x6000#32 }

/-- A machine with the command word `w` accepted and the agenda `agenda`. -/
def pending (w : Word) (agenda : List Event) : State := { acceptCommand (sized 4 4) w with agenda := agenda }

/-- A machine with nothing pending and the agenda `agenda`. -/
def idle (agenda : List Event) : State := { sized 4 4 with agenda := agenda }

theorem witness_DecodeAndEncodeAgree :
    (Instr.bfstage 31).wellFormed = true ∧ (Instr.fftrealspec true).wellFormed = true ∧
      decodeWord 0x1F05#32 = .ok (.bfstage 31) := by decide

theorem witness_DecoderFollowsMatchAndMask :
    decodeWord 0x1F05#32 = .ok (.bfstage 31) ∧
    ⟨"BFSTAGE", 0x00000005#32, 0xFFFFE0FF#32⟩ ∈ opcodeTable ∧
      (OpcodeRow.mk "BFSTAGE" 0x00000005#32 0xFFFFE0FF#32).selects 0x1F05#32 = true := by decide

theorem witness_StepRunsTheCommandInCmd :
    (EngineIsNext (pending 0x41#32 []) ∧ (pending 0x41#32 []).status.busy = true ∧
      decodeWord (pending 0x41#32 []).cmd = .ok (.fft true)) ∧
    (EngineIsNext (pending 0x41#32 [.engine, .rst]) ∧ (pending 0x41#32 [.engine, .rst]).status.busy = true) ∧
    (EngineIsNext (idle [.engine]) ∧ (idle [.engine]).status.busy = false) :=
  ⟨⟨.inl rfl, rfl, rfl⟩, ⟨.inr ⟨[.rst], rfl⟩, rfl⟩, .inr ⟨[], rfl⟩, rfl⟩

theorem witness_PendingCommandCompletes :
    (pending 0x41#32 [.host (.read 0x10 4), .rst]).status.busy = true ∧ (pending 0xF#32 []).status.busy = true := ⟨rfl, rfl⟩

theorem witness_ResetRegisterValues :
    Config.reference.wf ∧ { Config.reference with L := 1, dmemBytes := 8 }.wf ∧
      { Config.reference with L := 28, dmemBytes := 2 ^ 32 }.wf := by decide

theorem witness_ResetInputEffect : (pending 0x41#32 [.rst]).agenda = .rst :: [] := rfl

/-- The host's write of `v` to `r` comes next. -/
def writing (r : Csr) (v : Word) : List Event := [.host (.write r.offset 4 (v.setWidth 64))]

theorem witness_StatusWriteClearsOnes : NextIsCsrWrite (idle (writing .status 0x1E#32)) .status 0x1E#32 [] := rfl

theorem witness_CtrlWriteSetsInterruptEnable : NextIsCsrWrite (pending 1#32 (writing .ctrl 1#32)) .ctrl 1#32 [] := rfl

theorem witness_WritesWhileIdleAcceptOrStore :
    ((idle (writing .cmd 0x41#32)).status.busy = false ∧ NextIsCsrWrite (idle (writing .cmd 0x41#32)) .cmd 0x41#32 []) ∧
    ((idle (writing .len 7#32)).status.busy = false ∧ NextIsCsrWrite (idle (writing .len 7#32)) .len 7#32 []) :=
  ⟨⟨rfl, rfl⟩, rfl, rfl⟩

/-- The machine with every W1C flag but ERR set, before the host writes 0x1E to `STATUS`. -/
def flagged : State :=
  { idle (writing .status 0x1E#32) with
    status := { busy := false, done := true, err := false, accv := true, wign := true, ecode := 0#4 } }

theorem witness_WritesWhileBusyOnlySetWign :
    ((pending 1#32 (writing .dstIm 7#32)).status.busy = true ∧
      NextIsCsrWrite (pending 1#32 (writing .dstIm 7#32)) .dstIm 7#32 []) ∧
    ((pending 1#32 (writing .cmd 7#32)).status.busy = true ∧
      NextIsCsrWrite (pending 1#32 (writing .cmd 7#32)) .cmd 7#32 []) ∧
    (∃ t, step flagged = .next t ∧ flagged.status.wign = true ∧ t.status.wign = false) :=
  ⟨⟨rfl, rfl⟩, ⟨rfl, rfl⟩, _, rfl, rfl, rfl⟩

theorem witness_RegisterReadsAndIgnoredWrites :
    State.reset.cfg.wf ∧
    (idle [.host (.read 0x30 4)]).agenda =
      .host (.read ((idle [.host (.read 0x30 4)]).cfg.base + Csr.outcnt.offset) 4) :: [] ∧
    NextIsCsrWrite (idle (writing .outcnt 7#32)) .outcnt 7#32 [] ∧
    (idle [.host (.read 0x34 4)]).agenda = .host (.read ((idle [.host (.read 0x34 4)]).cfg.base + 0x34) 4) :: [] ∧
    (idle [.host (.write 0xFC 4 1#64)]).agenda =
      .host (.write ((idle [.host (.write 0xFC 4 1#64)]).cfg.base + 0xFC) 4 1#64) :: [] ∧
    (0x34 ≤ 0xFC ∧ 0xFC % 4 = 0 ∧ 0x34 % 4 = 0) := ⟨by decide, rfl, rfl, rfl, rfl, by decide⟩

/-- The first and the last word of the window, read with a wrong width, and its last byte. -/
theorem witness_MalformedRegisterAccessIsBusError :
    (State.reset.cfg.base ≤ 0 ∧ 0 < State.reset.cfg.base + 256 ∧ ¬(8 = 4 ∧ (0 - State.reset.cfg.base) % 4 = 0)) ∧
    (State.reset.cfg.base ≤ 255 ∧ 255 < State.reset.cfg.base + 256 ∧ ¬(4 = 4 ∧ (255 - State.reset.cfg.base) % 4 = 0)) ∧
    (idle [.host (.read 255 4)]).agenda = .host (.read 255 4) :: [] := by decide

/-- The first address past the register window, and the first past DMEM. -/
theorem witness_MalformedDmemAccessIsBusError :
    (¬(State.reset.cfg.base ≤ 256 ∧ 256 < State.reset.cfg.base + 256) ∧ ¬State.reset.cfg.dbase ≤ 256) ∧
    (¬(State.reset.cfg.base ≤ 0x20000 ∧ 0x20000 < State.reset.cfg.base + 256) ∧
      ¬0x20000 + 8 ≤ State.reset.cfg.dbase + State.reset.cfg.dmemBytes) ∧
    (pending 1#32 [.host (.read 256 8)]).agenda = .host (.read 256 8) :: [] := by decide

/-- The last word of DMEM, and an access half past its end. -/
theorem witness_DmemAccessWhileIdle :
    State.reset.cfg.wf ∧ (idle []).status.busy = false ∧ 65528 % 8 = 0 ∧ 65528 + 8 ≤ State.reset.cfg.dmemBytes ∧
    (idle [.host (.write 0x1FFF8 8 1#64)]).agenda =
      .host (.write ((idle [.host (.write 0x1FFF8 8 1#64)]).cfg.dbase + 65528) 8 1#64) :: [] ∧
    (idle [.host (.read 0x10000 8)]).agenda = .host (.read ((idle [.host (.read 0x10000 8)]).cfg.dbase + 0) 8) :: [] ∧
    ¬(4 = 8 ∧ True) ∧ ¬(State.reset.cfg.base ≤ 0x1FFFC ∧ 0x1FFFC < State.reset.cfg.base + 256) := by decide

theorem witness_DmemAccessWhileBusy :
    State.reset.cfg.wf ∧ (pending 1#32 []).status.busy = true ∧ 65528 % 8 = 0 ∧ 65528 + 8 ≤ State.reset.cfg.dmemBytes ∧
    (pending 1#32 [.host (.read 0x1FFF8 8)]).agenda =
      .host (.read ((pending 1#32 [.host (.read 0x1FFF8 8)]).cfg.dbase + 65528) 8) :: [] := by decide

theorem witness_StepKeepsInvariant : Inv State.reset ∧ step State.reset = .next State.reset :=
  ⟨⟨by decide, by simp [State.reset, State.resetWith], rfl, by decide, by decide, fun _ => rfl, by decide, by decide⟩, rfl⟩

/-- A word with OP = 0 that is `NOP`, and one that is not. -/
theorem witness_NopOnlyCompletes : (0#32).toNat % 64 = 0 ∧ (0x40#32).toNat % 64 = 0 ∧ decodeWord 0#32 = .ok .nop := by
  decide

/-- A step that changes an operand register, one that changes CTRL, one OUTCNT, and one a byte of DMEM. -/
theorem witness_RegistersChangeOnlyAtTheirEvents :
    (∃ t, step (idle (writing .len 7#32)) = .next t ∧ csrRead t .len ≠ csrRead (idle (writing .len 7#32)) .len) ∧
    (∃ t, step (idle (writing .ctrl 1#32)) = .next t ∧ csrRead t .ctrl ≠ csrRead (idle (writing .ctrl 1#32)) .ctrl) ∧
    (∃ t, step { pending 0x00#32 [] with outcnt := 5#32 } = .next t ∧ csrRead t .outcnt ≠ 5#32) ∧
    (∃ t, step { idle [.host (.write 0x10000 8 1#64)] with dmem := [(0, 0#8)] } = .next t ∧
      readByte t 0 ≠ readByte { idle [.host (.write 0x10000 8 1#64)] with dmem := [(0, 0#8)] } 0) := by
  refine ⟨?_, ?_, ?_, ?_⟩ <;> exact ⟨_, rfl, by decide⟩

theorem witness_CommandWritesOnlyItsDestination :
    (∃ t, exec (.fft true) (sized 4 4) = .next t) ∧
    declaredOutput (sized 4 4) (.fft true) = .complex 4 ∧
      (¬InBuffer 0x4020 (sized 4 4).dstRe 4 ∧ ¬InBuffer 0x4020 (sized 4 4).dstIm 4) ∧
      (¬InBuffer 0x3FFF (sized 4 4).dstRe 4 ∧ ¬InBuffer 0x3FFF (sized 4 4).dstIm 4) ∧
      (declaredOutput (sized 4 4) (.ifftreal true) = .real 4 ∧ ¬InBuffer 0x6000 (sized 4 4).dstRe 4) := by
  refine ⟨⟨_, rfl⟩, ?_⟩
  simp only [InBuffer]; decide

/-- One failing command for each code. -/
theorem witness_FirstFailingCheckEndsTheCommand :
    ((pending 0xF#32 []).status.busy = true ∧ EngineIsNext (pending 0xF#32 []) ∧
      (∀ r ∈ opcodeTable, r.selects (pending 0xF#32 []).cmd = false) ∧
      (∀ r ∈ opcodeTable, r.selects (pending 0x80000041#32 []).cmd = false)) ∧
    FirstFailure (sized 0 0) (.fftrealhalf true) .empty ∧ FirstFailure (sized 7 0) (.fftrealhalf true) .oddlen ∧
    FirstFailure (sized 1025 0) (.fft true) .len ∧
    FirstFailure { sized 2 0 with dstRe := 0xFFF8#32 } (.fft true) .addr ∧
    FirstFailure { sized 2 0 with dstIm := 0x4008#32 } (.fft true) .overlap := by
  refine ⟨⟨rfl, .inl rfl, by decide, by decide⟩, rfl, ⟨by simp [EmptyFails, sized], rfl⟩, ⟨id, id, by simp only [LengthFails]; decide⟩,
    ⟨id, id, by simp only [LengthFails]; decide, ?_⟩, ⟨id, id, by simp only [LengthFails]; decide, ?_, ?_⟩⟩
  · exact ⟨(0xFFF8#32, 2), by decide, by simp only [BufferOk]; decide⟩
  · rintro ⟨b, hb, h⟩
    revert b
    simp only [BufferOk]; decide
  · simp only [OverlapFails, declaredOutput, Apart]; decide

theorem witness_PassingCommandSucceeds : ∀ e, ¬FirstFailure (sized 1024 0) (.fft true) e := by
  have h : ¬AddressFails (sized 1024 0) (.fft true) := by
    rintro ⟨b, hb, h⟩
    revert b
    simp only [BufferOk]; decide
  intro e
  cases e
  · exact id
  · exact id
  · exact fun h => h.2
  · exact fun h => absurd h.2.2 (by simp only [LengthFails]; decide)
  · exact fun hf => h hf.2.2.2
  · exact fun hf => absurd hf.2.2.2.2 (by simp only [OverlapFails, declaredOutput, Apart]; decide)

theorem witness_HostCannotDisturbACommand :
    (pending 0x41#32 [.host (.write 0x18 4 7#64)]).status.busy = true ∧
      (pending 0x41#32 [.host (.write 0x18 4 7#64)]).agenda = .host (.write 0x18 4 7#64) :: [] := ⟨rfl, rfl⟩

/-- A state with nothing written in DMEM meets the invariant when its flags do. -/
theorem inv_of_flags {s : State} (hm : s.dmem = [])
    (h : s.irq = (s.ie && (s.status.done || s.status.err)) ∧ ¬(s.status.done = true ∧ s.status.err = true) ∧
      (s.status.busy = true → s.status.done = false ∧ s.status.err = false ∧ s.status.ecode = 0#4) ∧
      (s.status.done = true → s.status.ecode = 0#4) ∧ (s.status.err = true → s.status.ecode ≠ 0#4) ∧
      s.status.ecode.toNat ≤ 6) : Inv s :=
  ⟨by simp [hm], by simp [hm], h.1, h.2.1, h.2.2.1, h.2.2.2.1, h.2.2.2.2.1, h.2.2.2.2.2⟩

/-- The machine after a command failed, before the host writes 0x1E to `STATUS`. -/
def failed : State :=
  { idle (writing .status 0x1E#32) with
    status := { busy := false, done := false, err := true, accv := false, wign := false, ecode := 3#4 } }

/-- A step that sets each field of `STATUS`, and one that clears it, from states that meet the invariant. -/
theorem witness_FlagsChangeOnlyAtTheirEvents :
    (Inv (idle (writing .cmd 0x41#32)) ∧ ∃ t, step (idle (writing .cmd 0x41#32)) = .next t ∧ t.status.busy = true) ∧
    (Inv (pending 0x00#32 []) ∧ ∃ t, step (pending 0x00#32 []) = .next t ∧ t.status.busy = false ∧ t.status.done = true) ∧
    (Inv (pending 0x0F#32 []) ∧ ∃ t, step (pending 0x0F#32 []) = .next t ∧ t.status.err = true ∧ t.status.ecode ≠ 0#4) ∧
    (Inv flagged ∧ ∃ t, step flagged = .next t ∧ t.status.done = false ∧ t.status.accv = false ∧ t.status.wign = false) ∧
    (Inv failed ∧ ∃ t, step failed = .next t ∧ t.status.err = false) ∧
    (Inv (pending 1#32 [.host (.read 0x10000 8)]) ∧
      ∃ t, step (pending 1#32 [.host (.read 0x10000 8)]) = .next t ∧ t.status.accv = true) ∧
    (Inv (pending 1#32 (writing .len 7#32)) ∧
      ∃ t, step (pending 1#32 (writing .len 7#32)) = .next t ∧ t.status.wign = true) :=
  ⟨⟨inv_of_flags rfl (by decide), _, rfl, rfl⟩, ⟨inv_of_flags rfl (by decide), _, rfl, rfl, rfl⟩,
    ⟨inv_of_flags rfl (by decide), _, rfl, rfl, by decide⟩, ⟨inv_of_flags rfl (by decide), _, rfl, rfl, rfl, rfl⟩,
    ⟨inv_of_flags rfl (by decide), _, rfl, rfl⟩, ⟨inv_of_flags rfl (by decide), _, rfl, rfl⟩,
    ⟨inv_of_flags rfl (by decide), _, rfl, rfl⟩⟩

/-- Two machines that agree on the input buffers of `BITREV` and differ elsewhere in DMEM. -/
theorem witness_OutputDependsOnInputBuffersOnly :
    declaredInput (sized 4 4) .nop = .none ∧
    (∃ t, exec .bitrev (sized 4 4) = .next t) ∧
    (∀ a, (InBuffer a (sized 4 4).srcRe 4 ∨ InBuffer a (sized 4 4).srcIm 4) →
      readByte { sized 4 4 with dmem := [(0x5000, 1#8)], epoch := 0 } a = readByte (sized 4 4) a) ∧
    ([(0x5000, 1#8)] : Memory) ≠ (sized 4 4).dmem := by
  refine ⟨rfl, ⟨_, rfl⟩, fun a h => ?_, by decide⟩
  have h' : a ≠ 0x5000 := by
    rintro rfl
    revert h
    simp only [InBuffer]; decide
  simp only [readByte, memGet?, if_neg (Ne.symm h')]
  rfl

theorem witness_RealOperandsIgnoreTheImaginaryRegister :
    declaredInput (sized 4 4) (.fftrealhalf true) = .real 4 ∧ (∃ t, exec (.fftrealhalf true) (sized 4 4) = .next t) ∧
    declaredOutput (sized 4 4) (.ifftreals true) = .real 4 ∧ (∃ t, exec (.ifftreals true) (sized 4 4) = .next t) :=
  ⟨rfl, ⟨_, rfl⟩, rfl, ⟨_, rfl⟩⟩

/-- The complex commands, at 0 elements and at NMAX elements (FFT, CHIRPTAB, FFTSHIFT, FFTREAL). -/
theorem witness_any_length : ∀ n ∈ [0, 1024],
    (sized n 0).len.toNat ≤ (sized n 0).cfg.nmax ∧ SourceOk (sized n 0) (sized n 0).len.toNat ∧
      DestOk (sized n 0) (sized n 0).len.toNat ∧ BufferOk (sized n 0) (sized n 0).srcRe (sized n 0).len.toNat := by
  simp only [SourceOk, DestOk, BufferOk, Apart]; decide

/-- The power-of-two commands (R2FFT, BITREV, BFSTAGE), at NMAX elements; R2FFT and BITREV at 1 element. -/
theorem witness_power_of_two : ∀ b ∈ [0, 10],
    IsPowerOfTwo (sized (2 ^ b) 0).len.toNat ∧ (sized (2 ^ b) 0).len.toNat = 2 ^ b ∧
      (sized (2 ^ b) 0).len.toNat ≤ (sized (2 ^ b) 0).cfg.nmax ∧
      SourceOk (sized (2 ^ b) 0) (sized (2 ^ b) 0).len.toNat ∧ DestOk (sized (2 ^ b) 0) (sized (2 ^ b) 0).len.toNat := by
  intro b hb
  have e : (sized (2 ^ b) 0).len.toNat = 2 ^ b := by revert b; decide
  refine ⟨⟨b, e⟩, e, ?_⟩
  clear e
  revert b
  simp only [SourceOk, DestOk, BufferOk, Apart]; decide

/-- The decomposition at 1 element (no pass) and at NMAX elements (ten passes); the machine's clause has the hypotheses of
witness_power_of_two. -/
theorem witness_R2fftWritesTheRadix2Transform :
    (complexInput (sized 1 0)).length = 2 ^ 0 ∧ (complexInput (sized 1024 0)).length = 2 ^ 10 := by
  simp only [length_complexInput]; decide

theorem witness_BfstageWritesOnePass : 2 ^ 9 < (sized 1024 0).len.toNat ∧ 2 ^ 0 < (sized 2 0).len.toNat := by decide

theorem witness_BluesteinWritesTheChirpTransform : ∀ n ∈ [3, 1023],
    3 ≤ (sized n 0).len.toNat ∧ (sized n 0).len.toNat ≤ (sized n 0).cfg.nmax ∧ ¬IsPowerOfTwo (sized n 0).len.toNat ∧
      SourceOk (sized n 0) (sized n 0).len.toNat ∧ DestOk (sized n 0) (sized n 0).len.toNat := by
  intro n hn
  refine ⟨?_, ?_, ?_, ?_⟩
  · revert n; decide
  · revert n; decide
  · rintro ⟨k, hk⟩
    have hlt : (sized n 0).len.toNat < 2 ^ 11 := by clear hk; revert n; decide
    have hk11 : k < 11 := (Nat.pow_lt_pow_iff_right (by decide)).mp (hk ▸ hlt)
    have hne : ∀ k, k < 11 → (sized n 0).len.toNat ≠ 2 ^ k := by clear hk hlt hk11 k; revert n; decide
    exact hne k hk11 hk
  · revert n
    simp only [SourceOk, DestOk, BufferOk, Apart]; decide

/-- The shortest and the longest Bluestein input, and the first and the last element of a sequence. -/
theorem witness_bluestein_elements :
    3 ≤ (complexInput (sized 3 0)).length ∧ 3 ≤ (complexInput (sized 1023 0)).length ∧ 0 < (complexInput (sized 3 0)).length ∧
      1022 < (complexInput (sized 1023 0)).length := by
  simp only [length_complexInput]; decide

theorem witness_TwtabWritesTheTwiddleTable : ∀ b ∈ [0, 11],
    IsPowerOfTwo (sized (2 ^ b) 0).len.toNat ∧ (sized (2 ^ b) 0).len.toNat ≤ 2 * (sized (2 ^ b) 0).cfg.nmax ∧
      DestOk (sized (2 ^ b) 0) ((sized (2 ^ b) 0).len.toNat / 2) := by
  intro b hb
  refine ⟨⟨b, ?_⟩, ?_⟩
  · revert b; decide
  · revert b
    simp only [DestOk, BufferOk, Apart]; decide

theorem witness_FftrealhalfWritesTheHalfSpectrum : ∀ n ∈ [2, 1024],
    (sized n 0).len.toNat ≠ 0 ∧ (sized n 0).len.toNat % 2 = 0 ∧ (sized n 0).len.toNat ≤ (sized n 0).cfg.nmax ∧
      BufferOk (sized n 0) (sized n 0).srcRe (sized n 0).len.toNat ∧
      DestOk (sized n 0) ((sized n 0).len.toNat / 2 + true.toNat) := by
  simp only [DestOk, BufferOk, Apart]; decide

/-- The bins of the shortest and of the longest even input. -/
theorem witness_half_spectrum_bins :
    ((realInput (sized 2 0)).length = 2 * 1 ∧ 1 ≤ 1 ∧ 0 < 1) ∧ ((realInput (sized 1024 0)).length = 2 * 512 ∧ 511 < 512) := by
  simp only [length_realInput]; decide

/-- The bins of an odd and an even input: bin 0, the last of the odd one, the Nyquist bin of the even one; and the odd
lengths for which Q is ignored. -/
theorem witness_normalized_bins :
    (1 ≤ (realInput (sized 1023 0)).length ∧ 511 < (realSpectrum Config.reference [] (realInput (sized 1023 0)) true).length) ∧
    (1 ≤ (realInput (sized 1024 0)).length ∧ 512 < (realSpectrum Config.reference [] (realInput (sized 1024 0)) true).length) ∧
    (sized 1 0).len.toNat % 2 = 1 ∧ (sized 1023 0).len.toNat % 2 = 1 ∧ (1 ≤ 2 ^ 28 ∧ 2 ^ 28 ≤ 2 ^ 28) := by
  simp only [length_realInput, length_realSpectrum]; decide

theorem witness_FftrealspecWritesTheNormalizedSpectrum : ∀ n ∈ [1, 1024],
    (sized n 0).len.toNat ≠ 0 ∧ (sized n 0).len.toNat ≤ (sized n 0).cfg.nmax ∧
      BufferOk (sized n 0) (sized n 0).srcRe (sized n 0).len.toNat ∧
      DestOk (sized n 0) (spectrumCount (sized n 0).len.toNat true) := by
  simp only [DestOk, BufferOk, Apart]; decide

/-- The inverse transforms, at output lengths 0, 1023 (odd) and 1024. -/
theorem witness_inverse_transforms : ∀ n ∈ [0, 1023, 1024],
    (sized 1024 n).len.toNat ≤ (sized 1024 n).cfg.nmax ∧ (sized 1024 n).outlen.toNat ≤ (sized 1024 n).cfg.nmax ∧
      SourceOk (sized 1024 n) (sized 1024 n).len.toNat ∧
      BufferOk (sized 1024 n) (sized 1024 n).dstRe (sized 1024 n).outlen.toNat ∧ (sized 1024 1024).outlen.toNat % 2 = 0 := by
  simp only [SourceOk, BufferOk]; decide

/-- The first and the last word of an output of 1023 words, and the last element of a half-length one of 512. -/
theorem witness_reconstructed_words : 0 < 1023 ∧ 1022 < 1023 ∧ 511 < 512 := by decide

/-- Index 0 and the last index of an input of 4 elements. -/
theorem witness_indices : 0 < (sized 4 0).len.toNat ∧ 3 < (sized 4 0).len.toNat := by decide

/-- A value halfway between two binary64 values, one past the largest, and one that rounds. -/
theorem witness_RoundingIsToNearestEven :
    roundMag (2 ^ 53 + 1) 1 ≠ fInfBits ∧ roundMag ((2 ^ 54 - 1) * 2 ^ 2044) 1 = fInfBits ∧
      roundMag ((2 ^ 54 - 1) * 2 ^ 2044 - 1) 1 ≠ fInfBits ∧ IsFinite fOne := by
  simp only [IsFinite]; decide +kernel

theorem witness_ExactResultsAreReturned :
    (IsFinite fOne ∧ IsFinite fTwo ∧ IsFinite fHalf ∧ fMag fTwo ≠ 0) ∧
      fInt fOne + fInt fOne = fInt fTwo ∧ fInt fTwo - fInt fOne = fInt fOne ∧
      fInt fTwo * fInt fHalf = fInt fOne * 2 ^ 1074 := by
  simp only [IsFinite]; decide +kernel

/-- `2/8 = 1/4`, and a fraction for each exact value. -/
theorem witness_TrigIsExactWhereTheSpecSaysSo :
    (2 < 8 ∧ 1 < 4 ∧ 2 * 4 = 1 * 8) ∧ Real.cos (2 * Real.pi * (0 : ℕ) / (1 : ℕ)) = 1 ∧
      Real.cos (2 * Real.pi * (1 : ℕ) / (2 : ℕ)) = -1 ∧ Real.cos (2 * Real.pi * (1 : ℕ) / (4 : ℕ)) = 0 ∧
      Real.cos (2 * Real.pi * (1 : ℕ) / (6 : ℕ)) = 1 / 2 ∧ Real.sin (2 * Real.pi * (1 : ℕ) / (12 : ℕ)) = 1 / 2 ∧
      Real.sin (2 * Real.pi * (7 : ℕ) / (12 : ℕ)) = -1 / 2 := by
  have e1 : 2 * Real.pi * ((1 : ℕ) : ℝ) / ((2 : ℕ) : ℝ) = Real.pi := by push_cast; ring
  have e2 : 2 * Real.pi * ((1 : ℕ) : ℝ) / ((4 : ℕ) : ℝ) = Real.pi / 2 := by push_cast; ring
  have e3 : 2 * Real.pi * ((1 : ℕ) : ℝ) / ((6 : ℕ) : ℝ) = Real.pi / 3 := by push_cast; ring
  have e4 : 2 * Real.pi * ((1 : ℕ) : ℝ) / ((12 : ℕ) : ℝ) = Real.pi / 6 := by push_cast; ring
  have e5 : 2 * Real.pi * ((7 : ℕ) : ℝ) / ((12 : ℕ) : ℝ) = Real.pi / 6 + Real.pi := by push_cast; ring
  refine ⟨by decide, by simp, ?_, ?_, ?_, ?_, ?_⟩
  · rw [e1, Real.cos_pi]
  · rw [e2, Real.cos_pi_div_two]
  · rw [e3, Real.cos_pi_div_three]
  · rw [e4, Real.sin_pi_div_six]
  · rw [e5, Real.sin_add_pi, Real.sin_pi_div_six]; norm_num

theorem witness_TrigIsWithinOneUlp : 0 < 1 ∧ 2 ^ 29 - 1 < 2 ^ 29 ∧ 2 ^ 29 ≤ 2 ^ 29 := by decide

theorem witness_BitReversalReversesBits : 0 < 2 ^ 0 ∧ 7 < 2 ^ 3 ∧ 0 < 3 ∧ 2 < 3 := by decide

theorem witness_BitReversalPermutes :
    ([cZero] : List Cplx).length = 2 ^ 0 ∧ (List.replicate 8 cZero).length = 2 ^ 3 ∧ 7 < 2 ^ 3 := by decide

/-- The counter before the first and the last iteration, and the sequences its loop permutes. -/
theorem witness_BitReversalCounterRealisesThePermutation :
    (0 < 2 ^ 0 ∧ 0 < 2 ^ 3 ∧ 7 < 2 ^ 3) ∧ ([cZero] : List Cplx).length = 2 ^ 0 ∧ (List.replicate 8 cZero).length = 2 ^ 3 := by
  decide

/-- The last pass and its last pair, and the only pair of length 2; the last entry of the table of size 8 and the only
one of size 2. -/
theorem witness_StageAppliesEachButterflyOnce :
    (1 ≤ 3 ∧ 3 < 2 ^ (3 - 1)) ∧ (1 ≤ 1 ∧ 0 < 2 ^ (1 - 1)) ∧
    ((List.replicate 8 cZero).length = 2 ^ 3 ∧ 2 < 3 ∧ 3 < 2 ^ 2 ∧ 0 < 2 ^ (3 - 1 - 2)) ∧
      ((List.replicate 2 cZero).length = 2 ^ 1 ∧ 0 < 1 ∧ 0 < 2 ^ 0 ∧ 0 < 2 ^ (1 - 1 - 0)) := by decide

theorem witness_WorkingSizeIsSmallestPowerOfTwo :
    3 ≤ 1023 ∧ 2 * 1023 - 3 ≤ 2 ^ 11 ∧ 1023 ≤ Config.reference.nmax - 1 := by decide

/-- The three-point chirp in a buffer of 4, where the two passes meet, and a chirp of one element. -/
theorem witness_KernelIsWrittenInTwoPasses :
    (1 ≤ (List.replicate 3 cZero).length ∧ 2 * (List.replicate 3 cZero).length - 2 ≤ 4 ∧
      (List.replicate 3 cZero).length ≤ 4) ∧
    (1 ≤ [cZero].length ∧ 2 * [cZero].length - 2 ≤ 1 ∧ [cZero].length ≤ 1) := by decide

theorem witness_ScalingByReciprocalIsDivision : 0 ≤ 29 ∧ 29 ≤ 29 := by decide

theorem witness_DispatcherChoosesTheStrategy :
    [cZero].length ≤ 1 ∧ ([] : List Cplx).length ≤ 1 ∧ IsPowerOfTwo [cZero].length ∧
      (2 ≤ [cZero, cZero].length ∧ IsPowerOfTwo [cZero, cZero].length) ∧
      (2 ≤ [cZero, cZero, cZero].length ∧ ¬IsPowerOfTwo [cZero, cZero, cZero].length) := by
  refine ⟨by decide, by decide, ⟨0, rfl⟩, ⟨by decide, 1, rfl⟩, by decide, ?_⟩
  rintro ⟨k, hk⟩
  simp only [List.length_cons, List.length_nil] at hk
  match k, hk with
  | 0, hk => exact absurd hk (by decide)
  | 1, hk => exact absurd hk (by decide)
  | k + 2, hk => have := Nat.one_le_two_pow (n := k); rw [Nat.pow_add] at hk; omega

theorem witness_FullSpectrumIsConjugateSymmetric : 1 ≤ 6 ∧ 2 < (6 + 1) / 2 ∧ 6 % 2 = 0 ∧ (1 ≤ 5 ∧ 2 < (5 + 1) / 2) := by
  decide

theorem witness_ShiftTwice : [cZero, cZero].length % 2 = 0 ∧ [cZero].length % 2 = 1 ∧ 0 < [cZero].length := by decide

/-- Finite operands with a nonzero and a zero sum, difference, product and quotient, a division by zero, a NaN, and
infinities of both signs. -/
theorem witness_ArithmeticIsCorrectlyRounded :
    (IsFinite fOne ∧ IsFinite fTwo ∧ IsFinite fZero ∧ IsFinite (fNeg fOne)) ∧
    (fInt fOne + fInt fTwo ≠ 0 ∧ fInt fOne + fInt (fNeg fOne) = 0 ∧ fInt (fNeg fZero) + fInt (fNeg fZero) = 0) ∧
    (fInt fOne - fInt fTwo ≠ 0 ∧ fInt fOne - fInt fOne = 0 ∧ fInt (fNeg fZero) - fInt fZero = 0) ∧
    (¬IsZero fTwo ∧ IsZero fZero ∧ IsZero (fNeg fZero)) ∧ fIsNaN 0x7FF8000000000000#64 = true ∧
    (fIsInf (signedInfinity false) = true ∧ fIsInf (signedInfinity true) = true) ∧
    fIsInf (fMul [] 0x7FEFFFFFFFFFFFFF#64 fTwo) = true := by
  simp only [IsFinite, IsZero]; decide +kernel

/-- 40_units.md R77: `-0 - (-0) = +0`; and an inexact quotient, 1/3, rounded to nearest. -/
theorem test_signed_zero_and_inexact_quotient :
    fSub [] (fNeg fZero) (fNeg fZero) = fZero ∧ fDiv [] fOne 0x4008000000000000#64 = 0x3FD5555555555555#64 := by
  decide +kernel

/-- R110: the lengths 3 and 2^28 as binary64 values. -/
theorem test_lengths_as_binary64 : fOfNat 3 = 0x4008000000000000#64 ∧ fOfNat (2 ^ 28) = 0x41B0000000000000#64 := by
  decide +kernel

/-- R75: pass 1 of 8 points, group 1, takes the entry 2 of the table of size 8, `TRIG(2, 8) = (0, 1)`. -/
theorem test_twiddle_entry : twiddle Config.reference 8 2 1 = ⟨0x0000000000000000#64, 0x3FF0000000000000#64⟩ := by
  decide +kernel

theorem witness_DmemWordsAreLittleEndian : 0 < 8 ∧ 7 < 8 := by decide

end Sys2Proof.Tests
end

section
/-! The binary64 values in the order of their encodings, and the rounding function. -/

namespace Sys2Proof.Machine

/-! ### The magnitudes in the order of their encodings -/

/-- The magnitude the low 63 bits `m` encode, in units of 2^-1074; past the finite values the same rule goes on, with
`2^2098` at the infinity. -/
def magOf (m : Nat) : Nat := if m / 2 ^ 52 = 0 then m else (2 ^ 52 + m % 2 ^ 52) * 2 ^ (m / 2 ^ 52 - 1)

/-- A significand `k` and the exponent `e` of its unit give the encoding `e * 2^52 + k`, also where `k` is one past the
largest significand. -/
theorem magOf_of_significand {e k : Nat} (hk : k ≤ 2 ^ 53) (h : e = 0 ∨ 2 ^ 52 ≤ k) :
    magOf (e * 2 ^ 52 + k) = k * 2 ^ e := by
  rcases Nat.lt_or_ge k (2 ^ 52) with hlt | hge
  · obtain rfl : e = 0 := h.resolve_right (by omega)
    rw [magOf, if_pos (by omega)]; simp
  rcases Nat.lt_or_eq_of_le hk with hlt | rfl
  · have hdiv : (e * 2 ^ 52 + k) / 2 ^ 52 = e + 1 := by omega
    have hmod : 2 ^ 52 + (e * 2 ^ 52 + k) % 2 ^ 52 = k := by omega
    rw [magOf, if_neg (by omega), hdiv, hmod, Nat.add_sub_cancel]
  · have hdiv : (e * 2 ^ 52 + 2 ^ 53) / 2 ^ 52 = e + 2 := by omega
    have hmod : (e * 2 ^ 52 + 2 ^ 53) % 2 ^ 52 = 0 := by omega
    rw [magOf, if_neg (by omega), hdiv, hmod, show e + 2 - 1 = e + 1 from rfl, Nat.pow_succ 2 e]
    ring

theorem magOf_succ (m : Nat) : magOf (m + 1) = magOf m + 2 ^ (m / 2 ^ 52 - 1) := by
  obtain ⟨e, k, he, hm, hk, h⟩ :
      ∃ e k, m / 2 ^ 52 - 1 = e ∧ m = e * 2 ^ 52 + k ∧ k < 2 ^ 53 ∧ (e = 0 ∨ 2 ^ 52 ≤ k) :=
    ⟨m / 2 ^ 52 - 1, m - (m / 2 ^ 52 - 1) * 2 ^ 52, rfl, by omega, by omega, by omega⟩
  rw [he, hm, Nat.add_assoc, magOf_of_significand hk.le h, magOf_of_significand (k := k + 1) hk (by omega)]
  ring

theorem magOf_strictMono : StrictMono magOf :=
  strictMono_nat_of_lt_succ fun m => by rw [magOf_succ]; have := Nat.two_pow_pos (m / 2 ^ 52 - 1); omega

theorem magOf_fInfBits : magOf fInfBits = 2 ^ 53 * 2 ^ 2045 := by
  rw [show fInfBits = 2045 * 2 ^ 52 + 2 ^ 53 from rfl, magOf_of_significand le_rfl (.inr (by norm_num))]

theorem magOf_maxFinite : magOf (fInfBits - 1) = (2 ^ 53 - 1) * 2 ^ 2045 := by
  rw [show fInfBits - 1 = 2045 * 2 ^ 52 + (2 ^ 53 - 1) from rfl,
    magOf_of_significand (by norm_num) (.inr (by norm_num))]

/-! ### The rounding function -/

theorem div_two_pow_binade_lt (q : Nat) : q / 2 ^ binade q < 2 ^ 53 := by
  rw [Nat.div_lt_iff_lt_mul (Nat.two_pow_pos _), ← Nat.pow_add]
  exact Nat.lt_log2_self.trans_le (Nat.pow_le_pow_right (by norm_num) (by rw [binade]; omega))

theorem le_div_two_pow_binade (q : Nat) : binade q = 0 ∨ 2 ^ 52 ≤ q / 2 ^ binade q := by
  rcases Nat.eq_zero_or_pos (binade q) with h | h
  · exact .inl h
  · right
    have hq : q ≠ 0 := by rintro rfl; simp [binade] at h
    rw [Nat.le_div_iff_mul_le (Nat.two_pow_pos _), ← Nat.pow_add]
    exact (Nat.pow_le_pow_right (by norm_num) (by rw [binade] at h ⊢; omega)).trans (Nat.log2_self_le hq)

/-- The rounded encoding before overflow is looked at. -/
def roundIndex (n d : Nat) : Nat := binade (n / d) * 2 ^ 52 + roundQuot n (d * 2 ^ binade (n / d))

theorem roundMag_eq (n d : Nat) : roundMag n d = min (roundIndex n d) fInfBits := rfl

/-- What rounding does: `n / d` lies between two neighbouring magnitudes, and the nearer one is taken, of two equally
near ones the even encoding. -/
theorem roundIndex_bracket (n : Nat) {d : Nat} (hd : 0 < d) :
    ∃ j, magOf j * d ≤ n ∧ n < magOf (j + 1) * d ∧ magOf (j + 1) = magOf j + 2 ^ binade (n / d) ∧
      roundIndex n d =
        if (magOf j + magOf (j + 1)) * d < 2 * n ∨ ((magOf j + magOf (j + 1)) * d = 2 * n ∧ j % 2 = 1) then j + 1
        else j := by
  have hlt := div_two_pow_binade_lt (n / d)
  have hge := le_div_two_pow_binade (n / d)
  rw [Nat.div_div_eq_div_mul] at hlt hge
  rw [roundIndex, roundQuot]
  generalize binade (n / d) = e at *
  have hu : 0 < d * 2 ^ e := Nat.mul_pos hd (Nat.two_pow_pos e)
  have hn := Nat.div_add_mod n (d * 2 ^ e)
  have hr := Nat.mod_lt n hu
  generalize n / (d * 2 ^ e) = k at *
  generalize n % (d * 2 ^ e) = r at *
  have h0 : magOf (e * 2 ^ 52 + k) * d = d * 2 ^ e * k := by rw [magOf_of_significand hlt.le hge]; ring
  have h1 : magOf (e * 2 ^ 52 + k + 1) * d = d * 2 ^ e * k + d * 2 ^ e := by
    rw [Nat.add_assoc, magOf_of_significand (k := k + 1) hlt (by omega)]; ring
  refine ⟨e * 2 ^ 52 + k, by omega, by omega, ?_, ?_⟩
  · rw [Nat.add_assoc, magOf_of_significand (k := k + 1) hlt (by omega), magOf_of_significand hlt.le hge]; ring
  · rw [Nat.add_mul, h0, h1]; split_ifs <;> omega

/-- No magnitude is nearer to `n / d` than the rounded one; where another is equally near, the rounded one's encoding is
even. -/
theorem roundIndex_nearest (n : Nat) {d : Nat} (hd : 0 < d) (i : Nat) :
    ((n : Int) - magOf (roundIndex n d) * d).natAbs ≤ ((n : Int) - magOf i * d).natAbs ∧
      (((n : Int) - magOf (roundIndex n d) * d).natAbs = ((n : Int) - magOf i * d).natAbs → i ≠ roundIndex n d →
        roundIndex n d % 2 = 0) := by
  obtain ⟨j, hle, hlt, -, hr⟩ := roundIndex_bracket n hd
  have hstrict {a b : Nat} (h : a < b) : magOf a * d < magOf b * d :=
    Nat.mul_lt_mul_of_pos_right (magOf_strictMono h) hd
  rw [hr, Nat.add_mul]
  simp only [← Nat.cast_mul]
  rcases Nat.lt_trichotomy i j with hi | rfl | hi
  · have := hstrict hi
    split_ifs <;> omega
  · split_ifs <;> omega
  · rcases Nat.lt_or_eq_of_le (show j + 1 ≤ i from hi) with hi | rfl
    · have := hstrict hi
      split_ifs <;> omega
    · split_ifs <;> omega

theorem fInfBits_le_roundIndex_iff (n : Nat) {d : Nat} (hd : 0 < d) :
    fInfBits ≤ roundIndex n d ↔ (2 ^ 54 - 1) * 2 ^ 2044 * d ≤ n := by
  obtain ⟨j, hle, hlt, -, hr⟩ := roundIndex_bracket n hd
  have hmono {a b : Nat} (h : a ≤ b) : magOf a * d ≤ magOf b * d :=
    Nat.mul_le_mul_right d (magOf_strictMono.monotone h)
  have hhalf : (magOf (fInfBits - 1) + magOf fInfBits) * d = 2 * ((2 ^ 54 - 1) * 2 ^ 2044 * d) := by
    rw [magOf_maxFinite, magOf_fInfBits, show 2045 = 2044 + 1 from rfl, pow_succ 2 2044]; omega
  have hgap := hmono (Nat.sub_le fInfBits 1)
  generalize (2 ^ 54 - 1) * 2 ^ 2044 * d = t at *
  rw [Nat.add_mul] at hhalf hr
  rcases Nat.lt_trichotomy j (fInfBits - 1) with hj | rfl | hj
  · have := hmono (show j + 1 ≤ fInfBits - 1 by omega)
    split_ifs at hr <;> omega
  · rw [show fInfBits - 1 + 1 = fInfBits from rfl] at hlt hr
    have : (fInfBits - 1) % 2 = 1 := by decide
    split_ifs at hr <;> omega
  · have := hmono (show fInfBits ≤ j by omega)
    split_ifs at hr <;> omega

theorem roundMag_le (n d : Nat) : roundMag n d ≤ fInfBits := Nat.min_le_right _ _

theorem roundMag_eq_fInfBits_iff (n : Nat) {d : Nat} (hd : 0 < d) :
    roundMag n d = fInfBits ↔ (2 ^ 54 - 1) * 2 ^ 2044 * d ≤ n := by
  rw [roundMag_eq, min_eq_right_iff, fInfBits_le_roundIndex_iff n hd]

theorem roundMag_of_finite {n d : Nat} (h : roundMag n d ≠ fInfBits) : roundMag n d = roundIndex n d := by
  rw [roundMag_eq] at h ⊢; omega

/-- A magnitude that is itself encoded rounds to its own encoding. -/
theorem roundMag_magOf {i : Nat} (hi : i < fInfBits) {n d : Nat} (hd : 0 < d) (hn : n = magOf i * d) :
    roundMag n d = i := by
  have h := (roundIndex_nearest n hd i).1
  have h0 : (n : Int) - magOf i * d = 0 := by rw [hn]; push_cast; ring
  rw [h0, Int.natAbs_zero, Nat.le_zero, Int.natAbs_eq_zero, hn] at h
  have hm : magOf i * d = magOf (roundIndex n d) * d := by rw [hn]; exact_mod_cast sub_eq_zero.mp h
  have := magOf_strictMono.injective (Nat.eq_of_mul_eq_mul_right hd hm)
  rw [roundMag_eq, ← this]; omega

end Sys2Proof.Machine
end

section
/-! Signs, magnitudes and classes of binary64 values, through the sign and the low 63 bits of the encoding. -/

namespace Sys2Proof.Machine

/-! ### The sign and the low 63 bits -/

/-- The encoding without its sign bit. -/
def fBits (x : F64) : Nat := x.toNat % 2 ^ 63

theorem fBits_lt (x : F64) : fBits x < 2 ^ 63 := Nat.mod_lt _ (by norm_num)

theorem fSign_iff (x : F64) : fSign x = true ↔ 2 ^ 63 ≤ x.toNat := by
  have := x.isLt
  rw [fSign, ← BitVec.msb_eq_getLsbD_last x, BitVec.msb_eq_decide, decide_eq_true_eq]

theorem toNat_eq (x : F64) : x.toNat = fBits x + if fSign x then 2 ^ 63 else 0 := by
  have := x.isLt
  have := fSign_iff x
  rw [fBits]
  split_ifs with h
  · have := this.mp h; omega
  · have := mt this.mpr h; omega

theorem ext_sign_bits {x y : F64} (hs : fSign x = fSign y) (hb : fBits x = fBits y) : x = y :=
  BitVec.eq_of_toNat_eq (by rw [toNat_eq x, toNat_eq y, hs, hb])

theorem toNat_fPack (s : Bool) {m : Nat} (hm : m < 2 ^ 63) : (fPack s m).toNat = m + if s then 2 ^ 63 else 0 := by
  rw [fPack, BitVec.toNat_ofNat, Nat.mod_eq_of_lt (by split_ifs <;> omega)]

theorem fSign_fPack (s : Bool) {m : Nat} (hm : m < 2 ^ 63) : fSign (fPack s m) = s := by
  rw [Bool.eq_iff_iff, fSign_iff, toNat_fPack s hm]
  cases s
  · simp; omega
  · simp

theorem fBits_fPack (s : Bool) {m : Nat} (hm : m < 2 ^ 63) : fBits (fPack s m) = m := by
  rw [fBits, toNat_fPack s hm]
  split_ifs <;> omega

theorem fPack_fSign_fBits (x : F64) : fPack (fSign x) (fBits x) = x :=
  ext_sign_bits (fSign_fPack _ (fBits_lt x)) (fBits_fPack _ (fBits_lt x))

theorem toNat_mod_two (x : F64) : x.toNat % 2 = fBits x % 2 := by rw [fBits]; omega

theorem fExp_eq (x : F64) : fExp x = fBits x / 2 ^ 52 := by rw [fExp, fBits]; omega

theorem fFrac_eq (x : F64) : fFrac x = fBits x % 2 ^ 52 := by rw [fFrac, fBits]; omega

theorem fSign_fNeg (x : F64) : fSign (fNeg x) = !fSign x := by simp [fSign, fNeg]

theorem fBits_fNeg (x : F64) : fBits (fNeg x) = fBits x := by
  have hbits (y : F64) : fBits y = (y.extractLsb' 0 63).toNat := by simp [fBits, BitVec.extractLsb'_toNat]
  rw [hbits, hbits, fNeg, BitVec.extractLsb'_xor]; simp

theorem fNeg_fPack (s : Bool) {m : Nat} (hm : m < 2 ^ 63) : fNeg (fPack s m) = fPack (!s) m :=
  ext_sign_bits (by rw [fSign_fNeg, fSign_fPack s hm, fSign_fPack _ hm])
    (by rw [fBits_fNeg, fBits_fPack s hm, fBits_fPack _ hm])

theorem fNeg_fNeg (x : F64) : fNeg (fNeg x) = x :=
  ext_sign_bits (by rw [fSign_fNeg, fSign_fNeg, Bool.not_not]) (by rw [fBits_fNeg, fBits_fNeg])

/-! ### Magnitudes and integers -/

theorem fMag_eq (x : F64) : fMag x = magOf (fBits x) := by
  rw [fMag, magOf, fExp_eq, fFrac_eq]
  split_ifs with h
  · rw [Nat.mod_eq_of_lt (by omega)]
  · rfl

theorem fMag_fPack (s : Bool) {m : Nat} (hm : m < 2 ^ 63) : fMag (fPack s m) = magOf m := by
  rw [fMag_eq, fBits_fPack s hm]

theorem fMag_fNeg (x : F64) : fMag (fNeg x) = fMag x := by rw [fMag_eq, fMag_eq, fBits_fNeg]

theorem fMag_eq_zero_iff (x : F64) : fMag x = 0 ↔ fBits x = 0 := by
  rw [fMag_eq]
  exact magOf_strictMono.injective.eq_iff (b := 0)

theorem fInt_fNeg (x : F64) : fInt (fNeg x) = -fInt x := by
  rw [fInt, fInt, fSign_fNeg, fMag_fNeg]; cases fSign x <;> simp

theorem natAbs_fInt (x : F64) : (fInt x).natAbs = fMag x := by rw [fInt]; split_ifs <;> simp

theorem fInt_neg_iff {x : F64} (hx : fMag x ≠ 0) : fInt x < 0 ↔ fSign x = true := by
  rw [fInt]; split_ifs with h
  · simp [h]; omega
  · simp [h]

/-! ### Classes -/

theorem fIsNaN_iff (x : F64) : fIsNaN x = true ↔ fInfBits < fBits x := by
  rw [← fIsNaN_fPack (fSign x) _ (fBits_lt x), fPack_fSign_fBits]

theorem fIsInf_iff (x : F64) : fIsInf x = true ↔ fBits x = fInfBits := by
  have := fBits_lt x
  rw [fIsInf, fExp_eq, fFrac_eq, fInfBits, Bool.and_eq_true, decide_eq_true_eq, decide_eq_true_eq]
  omega

theorem isFinite_iff (x : F64) : IsFinite x ↔ fBits x < fInfBits := by
  rw [IsFinite, ← Bool.not_eq_true, ← Bool.not_eq_true, fIsNaN_iff, fIsInf_iff]; omega

theorem fIsInf_fNeg (x : F64) : fIsInf (fNeg x) = fIsInf x := by
  rw [Bool.eq_iff_iff, fIsInf_iff, fIsInf_iff, fBits_fNeg]

theorem IsFinite.fNeg {x : F64} (hx : IsFinite x) : IsFinite (fNeg x) := by
  rw [isFinite_iff, fBits_fNeg]; exact (isFinite_iff x).mp hx

theorem fIsNaN_of_fIsInf {x : F64} (hx : fIsInf x = true) : fIsNaN x = false := by
  rw [fIsInf_iff] at hx; rw [← Bool.not_eq_true, fIsNaN_iff]; omega

theorem fPack_zero (s : Bool) : fPack s 0 = signedZero s := by cases s <;> rfl

theorem fPack_fInfBits (s : Bool) : fPack s fInfBits = signedInfinity s := by cases s <;> rfl

theorem eq_signedInfinity_of_fIsInf {x : F64} (hx : fIsInf x = true) : x = signedInfinity (fSign x) := by
  rw [← fPack_fInfBits, ← (fIsInf_iff x).mp hx, fPack_fSign_fBits]

theorem isZero_iff (x : F64) : IsZero x ↔ fMag x = 0 := by
  rw [fMag_eq_zero_iff, IsZero]
  constructor
  · rintro (rfl | rfl) <;> rfl
  · intro h
    have hx : x = signedZero (fSign x) := by rw [← fPack_zero, ← h, fPack_fSign_fBits]
    rw [hx]; cases fSign x
    · exact .inl rfl
    · exact .inr rfl

/-! ### Rounding a signed value -/

theorem roundMag_lt (n d : Nat) : roundMag n d < 2 ^ 63 := (roundMag_le n d).trans_lt (by norm_num [fInfBits])

theorem isFinite_fRound (s : Bool) {n d : Nat} (h : roundMag n d ≠ fInfBits) : IsFinite (fRound s n d) := by
  rw [isFinite_iff, fRound, fBits_fPack s (roundMag_lt n d)]
  exact (roundMag_le n d).lt_of_ne h

/-- No finite value is nearer than a finite rounded one; of two equally near ones the even encoding is taken. -/
theorem fRound_nearest (s : Bool) (n : Nat) {d : Nat} (hd : 0 < d) (h : roundMag n d ≠ fInfBits) (y : F64) :
    ((n : Int) - fMag (fRound s n d) * d).natAbs ≤ ((n : Int) - fMag y * d).natAbs ∧
      (((n : Int) - fMag (fRound s n d) * d).natAbs = ((n : Int) - fMag y * d).natAbs → fMag y ≠ fMag (fRound s n d) →
        roundMag n d % 2 = 0) := by
  rw [fRound, fMag_fPack s (roundMag_lt n d), fMag_eq y, roundMag_of_finite h]
  obtain ⟨hle, heven⟩ := roundIndex_nearest n hd (fBits y)
  exact ⟨hle, fun heq hne => heven heq fun hy => hne (by rw [hy])⟩

/-- Settles O44: the rounded encoding is one of the two around `n / d`, the nearer one, the even one of two. -/
theorem roundingIsToNearestEven : Obligations.RoundingIsToNearestEven := by
  intro n d hd
  exact ⟨roundMag_eq_fInfBits_iff n hd, fun h => ⟨isFinite_fRound false h, fun y _ => fRound_nearest false n hd h y⟩⟩

theorem correctlyRounded_fRound (s : Bool) (n : Nat) {d : Nat} (hd : 0 < d) :
    CorrectlyRounded (fRound s n d) s n d := by
  have hlt := roundMag_lt n d
  have hinf : fIsInf (fRound s n d) = true ↔ roundMag n d = fInfBits := by
    rw [fIsInf_iff, fRound, fBits_fPack s hlt]
  have hfin (h : fIsInf (fRound s n d) = false) : roundMag n d ≠ fInfBits := fun he =>
    Bool.false_ne_true (h.symm.trans (hinf.mpr he))
  refine ⟨rfl, fSign_fPack s hlt, ?_, hinf.trans (roundMag_eq_fInfBits_iff n hd),
    fun h y _ => (fRound_nearest s n hd (hfin h) y).1, fun h y _ hne heq => ?_⟩
  · rw [← Bool.not_eq_true, fIsNaN_iff, fRound, fBits_fPack s hlt, not_lt]
    exact roundMag_le n d
  · rw [toNat_mod_two, fRound, fBits_fPack s hlt]
    exact (fRound_nearest s n hd (hfin h) y).2 heq hne

/-- A value that is itself a finite binary64 value rounds to itself. -/
theorem fRound_exact {z : F64} (hz : IsFinite z) {s : Bool} (hs : s = fSign z) {n d : Nat} (hd : 0 < d)
    (hn : n = fMag z * d) : fRound s n d = z := by
  rw [fRound, roundMag_magOf ((isFinite_iff z).mp hz) hd (by rw [hn, fMag_eq]), hs, fPack_fSign_fBits]

/-! ### The four operations, class by class -/

section Classes

variable {x y : F64} (d : Draw)

theorem fAdd_of_nan (h : fIsNaN x = true ∨ fIsNaN y = true) : fIsNaN (fAdd d x y) = true := by
  rw [fAdd, if_pos (by simpa using h), fIsNaN_fNaN]

theorem fMul_of_nan (h : fIsNaN x = true ∨ fIsNaN y = true) : fIsNaN (fMul d x y) = true := by
  rw [fMul, if_pos (by simpa using h), fIsNaN_fNaN]

theorem fDiv_of_nan (h : fIsNaN x = true ∨ fIsNaN y = true) : fIsNaN (fDiv d x y) = true := by
  rw [fDiv, if_pos (by simpa using h), fIsNaN_fNaN]

theorem fAdd_finite (hx : IsFinite x) (hy : IsFinite y) :
    fAdd d x y = if fInt x + fInt y = 0 then signedZero (fSign x && fSign y)
      else fRound (decide (fInt x + fInt y < 0)) (fInt x + fInt y).natAbs 1 := by
  simp [fAdd, hx.1, hx.2, hy.1, hy.2, fPack_zero]

theorem fMul_finite (hx : IsFinite x) (hy : IsFinite y) :
    fMul d x y = fRound (fSign x != fSign y) (fMag x * fMag y) (2 ^ 1074) := by
  rw [fMul, if_neg (by simp [hx.1, hy.1]), if_neg (by simp [hx.2]), if_neg (by simp [hy.2])]

theorem fDiv_finite (hx : IsFinite x) (hy : IsFinite y) :
    fDiv d x y = if fMag y = 0 then (if fMag x = 0 then fNaN d else signedInfinity (fSign x != fSign y))
      else fRound (fSign x != fSign y) (fMag x * 2 ^ 1074) (fMag y) := by
  rw [fDiv, if_neg (by simp [hx.1, hy.1]), if_neg (by simp [hx.2]), if_neg (by simp [hy.2]), fPack_fInfBits]

theorem fAdd_inf_left (hx : fIsInf x = true) (hy : IsFinite y) : fAdd d x y = x := by
  simp [fAdd, hx, hy.1, hy.2, fIsNaN_of_fIsInf hx]

theorem fAdd_inf_right (hx : IsFinite x) (hy : fIsInf y = true) : fAdd d x y = y := by
  simp [fAdd, hy, hx.1, hx.2, fIsNaN_of_fIsInf hy]

theorem fAdd_inf_inf (hx : fIsInf x = true) (hy : fIsInf y = true) :
    fAdd d x y = if fSign x = fSign y then x else fNaN d := by
  simp [fAdd, hx, hy, fIsNaN_of_fIsInf hx, fIsNaN_of_fIsInf hy]

theorem fMul_inf_left (hx : fIsInf x = true) (hy : fIsNaN y = false) :
    fMul d x y = if fMag y = 0 then fNaN d else signedInfinity (fSign x != fSign y) := by
  simp [fMul, hx, hy, fIsNaN_of_fIsInf hx, fPack_fInfBits]

theorem fMul_inf_right (hx : IsFinite x) (hy : fIsInf y = true) :
    fMul d x y = if fMag x = 0 then fNaN d else signedInfinity (fSign x != fSign y) := by
  simp [fMul, hx.1, hx.2, hy, fIsNaN_of_fIsInf hy, fPack_fInfBits]

theorem fDiv_inf_left (hx : fIsInf x = true) (hy : fIsNaN y = false) :
    fDiv d x y = if fIsInf y = true then fNaN d else signedInfinity (fSign x != fSign y) := by
  simp [fDiv, hx, hy, fIsNaN_of_fIsInf hx, fPack_fInfBits]

theorem fDiv_inf_right (hx : IsFinite x) (hy : fIsInf y = true) : fDiv d x y = signedZero (fSign x != fSign y) := by
  simp [fDiv, hx.1, hx.2, hy, fIsNaN_of_fIsInf hy, fPack_zero]

end Classes

theorem fMag_ne_zero_of_fIsInf {x : F64} (hx : fIsInf x = true) : fMag x ≠ 0 := by
  rw [Ne, fMag_eq_zero_iff, (fIsInf_iff x).mp hx]; decide

/-- Settles O60, class by class of the operands; subtraction is addition of the negated operand. -/
theorem arithmeticIsCorrectlyRounded : Obligations.ArithmeticIsCorrectlyRounded := by
  intro d x y
  simp only [isZero_iff, ← fInt_fNeg, sub_eq_add_neg, ← fSign_fNeg, fSub]
  refine ⟨fun hx hy => ?finite, fun h => ?nan, fun hx hy => ?infInf, fun hx hy => ?infFinite, fun hx hy => ?finiteInf⟩
  case finite =>
    refine ⟨fun h => ?_, fun h => ?_, fun h => ?_, fun h => ?_, ?_, fun h => ?_, fun h h' => ?_, fun h h' => ?_⟩
    · rw [fAdd_finite d hx hy, if_neg h]; exact correctlyRounded_fRound _ _ one_pos
    · rw [fAdd_finite d hx hy, if_pos h]
    · rw [fAdd_finite d hx hy.fNeg, if_neg h]; exact correctlyRounded_fRound _ _ one_pos
    · rw [fAdd_finite d hx hy.fNeg, if_pos h]
    · rw [fMul_finite d hx hy]; exact correctlyRounded_fRound _ _ (by positivity)
    · rw [fDiv_finite d hx hy, if_neg h]; exact correctlyRounded_fRound _ _ (Nat.pos_of_ne_zero h)
    · rw [fDiv_finite d hx hy, if_pos h, if_neg h']
    · rw [fDiv_finite d hx hy, if_pos h, if_pos h', fIsNaN_fNaN]
  case nan =>
    exact ⟨fAdd_of_nan d h, fAdd_of_nan d (by rwa [fIsNaN_fNeg]), fMul_of_nan d h, fDiv_of_nan d h⟩
  case infInf =>
    refine ⟨?_, ?_, ?_⟩
    · rw [fAdd_inf_inf d hx hy, fAdd_inf_inf d hx (by rwa [fIsInf_fNeg]), fSign_fNeg]
      cases fSign x <;> cases fSign y <;> simp [fIsNaN_fNaN]
    · rw [fMul_inf_left d hx (fIsNaN_of_fIsInf hy), if_neg (fMag_ne_zero_of_fIsInf hy)]
    · rw [fDiv_inf_left d hx (fIsNaN_of_fIsInf hy), if_pos hy, fIsNaN_fNaN]
  case infFinite =>
    refine ⟨fAdd_inf_left d hx hy, fAdd_inf_left d hx hy.fNeg, fun h => ?_, fun h => ?_, ?_⟩
    · rw [fMul_inf_left d hx hy.1, if_pos h, fIsNaN_fNaN]
    · rw [fMul_inf_left d hx hy.1, if_neg h]
    · rw [fDiv_inf_left d hx hy.1, if_neg (by simp [hy.2])]
  case finiteInf =>
    refine ⟨fAdd_inf_right d hx hy, fAdd_inf_right d hx (by rwa [fIsInf_fNeg]), fun h => ?_, fun h => ?_,
      fDiv_inf_right d hx hy⟩
    · rw [fMul_inf_right d hx hy, if_pos h, fIsNaN_fNaN]
    · rw [fMul_inf_right d hx hy, if_neg h]

theorem fAdd_exact (d : Draw) {x y z : F64} (hx : IsFinite x) (hy : IsFinite y) (hz : IsFinite z) (h0 : fMag z ≠ 0)
    (h : fInt x + fInt y = fInt z) : fAdd d x y = z := by
  have hne : fInt z ≠ 0 := by rwa [Ne, ← Int.natAbs_eq_zero, natAbs_fInt]
  rw [fAdd_finite d hx hy, h, if_neg hne]
  exact fRound_exact hz (by rw [Bool.eq_iff_iff, decide_eq_true_eq, fInt_neg_iff h0]) one_pos
    (by rw [natAbs_fInt, Nat.mul_one])

/-- The sign of a product of nonzero values. -/
theorem fInt_mul_neg_iff {x y : F64} (hx : fMag x ≠ 0) (hy : fMag y ≠ 0) :
    fInt x * fInt y < 0 ↔ (fSign x != fSign y) = true := by
  have hpos (v : F64) (hv : fMag v ≠ 0) : 0 < fInt v ↔ fSign v = false := by
    have := fInt_neg_iff hv
    have := natAbs_fInt v
    rw [← Bool.not_eq_true, ← fInt_neg_iff hv]; omega
  rw [mul_neg_iff, hpos x hx, hpos y hy, fInt_neg_iff hx, fInt_neg_iff hy]
  cases fSign x <;> cases fSign y <;> decide

theorem fMul_exact (d : Draw) {x y z : F64} (hx : IsFinite x) (hy : IsFinite y) (hz : IsFinite z) (h0 : fMag z ≠ 0)
    (h : fInt x * fInt y = fInt z * 2 ^ 1074) : fMul d x y = z := by
  have hcast : (2 : Int) ^ 1074 = ((2 ^ 1074 : Nat) : Int) := by rw [Nat.cast_pow, Nat.cast_ofNat]
  have hmag : fMag x * fMag y = fMag z * 2 ^ 1074 := by
    rw [← natAbs_fInt, ← natAbs_fInt, ← natAbs_fInt z, ← Int.natAbs_mul, h, Int.natAbs_mul, hcast, Int.natAbs_natCast]
  have hne : fMag x * fMag y ≠ 0 := by rw [hmag]; exact Nat.mul_ne_zero h0 (by positivity)
  have hsign : (fSign x != fSign y) = fSign z := by
    rw [Bool.eq_iff_iff, ← fInt_mul_neg_iff (left_ne_zero_of_mul hne) (right_ne_zero_of_mul hne), h,
      ← fInt_neg_iff h0]
    have hpos : (0 : Int) < 2 ^ 1074 := by positivity
    exact ⟨fun hz => neg_of_mul_neg_left hz hpos.le, fun hz => mul_neg_of_neg_of_pos hz hpos⟩
  rw [fMul_finite d hx hy]
  exact fRound_exact hz hsign (by positivity) hmag

/-- Settles O45: a value that is encoded rounds to itself. -/
theorem exactResultsAreReturned : Obligations.ExactResultsAreReturned := by
  intro d x y z hx hy hz h0
  refine ⟨fAdd_exact d hx hy hz h0, fun h => fAdd_exact d hx hy.fNeg hz h0 ?_, fMul_exact d hx hy hz h0⟩
  rw [fInt_fNeg, ← sub_eq_add_neg, h]

/-! ### The product by a conjugate -/

theorem SameUpToNaN.trans {x y z : F64} (hxy : SameUpToNaN x y) (hyz : SameUpToNaN y z) : SameUpToNaN x z := by
  rcases hxy with rfl | ⟨hx, hy⟩
  · exact hyz
  · rcases hyz with rfl | ⟨-, hz⟩
    · exact .inr ⟨hx, hy⟩
    · exact .inr ⟨hx, hz⟩

theorem fMul_fNeg_right (d : Draw) (x y : F64) : SameUpToNaN (fMul d x (fNeg y)) (fNeg (fMul d x y)) := by
  have hsign : (fSign x != !fSign y) = !(fSign x != fSign y) := by cases fSign x <;> cases fSign y <;> rfl
  have hNaN : SameUpToNaN (fNaN d) (fNeg (fNaN d)) := .inr ⟨fIsNaN_fNaN d, by rw [fIsNaN_fNeg, fIsNaN_fNaN]⟩
  have hinf : fInfBits < 2 ^ 63 := by norm_num [fInfBits]
  simp only [fMul, fIsNaN_fNeg, fIsInf_fNeg, fMag_fNeg, fSign_fNeg, hsign]
  split_ifs
  · exact hNaN
  · exact hNaN
  · exact .inl (fNeg_fPack _ hinf).symm
  · exact hNaN
  · exact .inl (fNeg_fPack _ hinf).symm
  · exact .inl (fNeg_fPack _ (roundMag_lt _ _)).symm

theorem fAdd_comm (d : Draw) (x y : F64) : SameUpToNaN (fAdd d x y) (fAdd d y x) := by
  rcases Bool.eq_false_or_eq_true (fIsNaN x || fIsNaN y) with h | h
  · rw [Bool.or_eq_true] at h
    exact .inr ⟨fAdd_of_nan d h, fAdd_of_nan d h.symm⟩
  obtain ⟨hnx, hny⟩ := Bool.or_eq_false_iff.mp h
  rcases Bool.eq_false_or_eq_true (fIsInf x) with hx | hx <;> rcases Bool.eq_false_or_eq_true (fIsInf y) with hy | hy
  · rw [fAdd_inf_inf d hx hy, fAdd_inf_inf d hy hx]
    by_cases hs : fSign x = fSign y
    · rw [if_pos hs, if_pos hs.symm, eq_signedInfinity_of_fIsInf hx, eq_signedInfinity_of_fIsInf hy, hs]
      exact .refl _
    · rw [if_neg hs, if_neg (Ne.symm hs)]
      exact .refl _
  · rw [fAdd_inf_left d hx ⟨hny, hy⟩, fAdd_inf_right d ⟨hny, hy⟩ hx]
    exact .refl _
  · rw [fAdd_inf_right d ⟨hnx, hx⟩ hy, fAdd_inf_left d hy ⟨hnx, hx⟩]
    exact .refl _
  · rw [fAdd_finite d ⟨hnx, hx⟩ ⟨hny, hy⟩, fAdd_finite d ⟨hny, hy⟩ ⟨hnx, hx⟩, add_comm (fInt x), Bool.and_comm]
    exact .refl _

theorem fSub_fNeg (d : Draw) (x y : F64) : fSub d x (fNeg y) = fAdd d x y := by rw [fSub, fNeg_fNeg]

/-- Settles O46: the draws only name NaN encodings, and a product by a negated factor is the negated product. -/
theorem conjugateProductIdentity : Obligations.ConjugateProductIdentity := by
  refine ⟨fun d e a b v => ⟨⟨?_, ?_⟩, ⟨?_, ?_⟩, ⟨?_, ?_⟩, ⟨?_, ?_⟩⟩, fun a => ⟨rfl, rfl⟩, rfl, fun d a w => ⟨?_, ?_⟩⟩
  · exact fAdd_same _ _ (.refl _) (.refl _)
  · exact fAdd_same _ _ (.refl _) (.refl _)
  · exact fSub_same _ _ (.refl _) (.refl _)
  · exact fSub_same _ _ (.refl _) (.refl _)
  · exact fMul_same _ _ (.refl _) (.refl _)
  · exact fMul_same _ _ (.refl _) (.refl _)
  · exact fSub_same _ _ (fMul_same _ _ (.refl _) (.refl _)) (fMul_same _ _ (.refl _) (.refl _))
  · exact fAdd_same _ _ (fMul_same _ _ (.refl _) (.refl _)) (fMul_same _ _ (.refl _) (.refl _))
  · rw [← fSub_fNeg]
    exact fSub_same _ _ (.refl _) (fMul_fNeg_right _ _ _)
  · exact (fAdd_same _ _ (fMul_fNeg_right _ _ _) (.refl _)).trans (fAdd_comm _ _ _)

end Sys2Proof.Machine
end

section
/-! `TRIG` at the fractions of a turn where the cosine or the sine is 0, 1, -1, 1/2 or -1/2 (00_scope.md R12 (b)), and
its dependence on the fraction only (R12 (a)). -/

namespace Sys2Proof.Machine

/-! ### Fractions -/

theorem den_eq_of_proportional {p q a b : Nat} (hpq : Nat.Coprime p q) (hab : Nat.Coprime a b) (h : p * b = a * q) :
    q = b :=
  Nat.dvd_antisymm (hpq.symm.dvd_of_dvd_mul_left (h ▸ Nat.dvd_mul_left q a))
    (hab.symm.dvd_of_dvd_mul_left (h ▸ Nat.dvd_mul_left b p))

/-- A fraction below 1 in lowest terms. -/
theorem reduced_fraction {p q : Nat} (h : p < q) :
    p / Nat.gcd p q < q / Nat.gcd p q ∧ Nat.Coprime (p / Nat.gcd p q) (q / Nat.gcd p q) ∧
      p * (q / Nat.gcd p q) = p / Nat.gcd p q * q := by
  have hg : 0 < Nat.gcd p q := Nat.gcd_pos_of_pos_right p (by omega)
  refine ⟨Nat.div_lt_div_of_lt_of_dvd (Nat.gcd_dvd_right p q) h, Nat.coprime_div_gcd_div_gcd hg, ?_⟩
  rw [← Nat.mul_div_assoc _ (Nat.gcd_dvd_right p q), Nat.div_mul_right_comm (Nat.gcd_dvd_left p q)]

theorem trig_eq_of_proportional (c : Config) {p q p' q' : Nat} (h : p < q) (h' : p' < q') (heq : p * q' = p' * q) :
    trig c p q = trig c p' q' := by
  obtain ⟨hlt, hcop, hprop⟩ := reduced_fraction h
  obtain ⟨hlt', hcop', hprop'⟩ := reduced_fraction h'
  rw [trig, trig]
  generalize p / Nat.gcd p q = a at *
  generalize q / Nat.gcd p q = b at *
  generalize p' / Nat.gcd p' q' = a' at *
  generalize q' / Nat.gcd p' q' = b' at *
  have hab : a * b' = a' * b := by
    have hpos : 0 < q * q' := Nat.mul_pos (by omega) (by omega)
    refine Nat.eq_of_mul_eq_mul_right hpos ?_
    calc a * b' * (q * q') = a * q * (b' * q') := by ring
      _ = p * q' * b * b' := by rw [← hprop]; ring
      _ = a' * q' * b * q := by rw [heq, ← hprop']; ring
      _ = a' * b * (q * q') := by ring
  obtain rfl := den_eq_of_proportional hcop hcop' hab
  rw [Nat.eq_of_mul_eq_mul_right (by omega) hab]

/-! ### Angles -/

/-- The angle `p / q` of a full turn. -/
noncomputable def turn (p q : Nat) : ℝ := 2 * Real.pi * p / q

theorem turn_eq_of_proportional {p q p' q' : Nat} (h : 0 < q) (h' : 0 < q') (heq : p * q' = p' * q) :
    turn p q = turn p' q' := by
  have heq' : (p : ℝ) * q' = p' * q := by exact_mod_cast heq
  rw [turn, turn, div_eq_div_iff (by positivity) (by positivity), mul_assoc, heq', ← mul_assoc]

theorem turn_reduced {p q : Nat} (h : p < q) :
    2 * Real.pi * p / q = turn (p / Nat.gcd p q) (q / Nat.gcd p q) :=
  have hred := reduced_fraction h
  turn_eq_of_proportional (Nat.zero_lt_of_lt h) (Nat.zero_lt_of_lt hred.1) hred.2.2

theorem fraction_mem {p q : Nat} (h : p < q) : 0 ≤ (p : ℝ) / q ∧ (p : ℝ) / q < 1 := by
  have hq : (0 : ℝ) < q := by exact_mod_cast (Nat.zero_le p).trans_lt h
  exact ⟨by positivity, (div_lt_one hq).mpr (by exact_mod_cast h)⟩

/-- Two fractions of a turn below 1 that differ by whole turns are equal. -/
theorem proportional_of_turn_eq {p q a b : Nat} (hp : p < q) (ha : a < b) {k : ℤ}
    (h : turn a b = 2 * k * Real.pi + turn p q) : p * b = a * q := by
  obtain ⟨hx0, hx1⟩ := fraction_mem hp
  obtain ⟨hy0, hy1⟩ := fraction_mem ha
  have hk : (a : ℝ) / b = k + p / q :=
    mul_left_cancel₀ Real.two_pi_pos.ne' (by rw [turn, turn] at h; linear_combination h)
  have hlo : -1 < k := by exact_mod_cast (by linarith : (-1 : ℝ) < k)
  have hhi : k < 1 := by exact_mod_cast (by linarith : (k : ℝ) < 1)
  obtain rfl : k = 0 := by omega
  rw [Int.cast_zero, zero_add, div_eq_div_iff (by norm_cast; omega) (by norm_cast; omega)] at hk
  exact_mod_cast hk.symm

/-- Two fractions of a turn below 1 whose sum is `m` half turns: `m` is 0, 1, 2 or 3. -/
theorem sum_of_turn_eq {p q a b : Nat} (hp : p < q) (ha : a < b) {m : ℤ} (h : turn a b = m * Real.pi - turn p q) :
    0 ≤ m ∧ m < 4 ∧ 2 * ((p * b + a * q : Nat) : ℤ) = m * (q * b : Nat) := by
  obtain ⟨hx0, hx1⟩ := fraction_mem hp
  obtain ⟨hy0, hy1⟩ := fraction_mem ha
  have hq : (q : ℝ) ≠ 0 := by norm_cast; omega
  have hb : (b : ℝ) ≠ 0 := by norm_cast; omega
  have hm : 2 * ((p : ℝ) / q + a / b) = m :=
    mul_left_cancel₀ Real.pi_pos.ne' (by rw [turn, turn] at h; linear_combination h)
  refine ⟨by exact_mod_cast (by linarith : (0 : ℝ) ≤ m), by exact_mod_cast (by linarith : (m : ℝ) < 4), ?_⟩
  have : 2 * ((p : ℝ) * b + a * q) = m * (q * b) := by rw [← hm]; field_simp
  exact_mod_cast this

/-- Equal cosines of two fractions of a turn: the fractions are equal or add to 1. -/
theorem fractions_of_cos_eq {p q a b : Nat} (hp : p < q) (ha : a < b)
    (h : Real.cos (turn p q) = Real.cos (turn a b)) : p * b = a * q ∨ p * b + a * q = q * b := by
  obtain ⟨k, hk | hk⟩ := Real.cos_eq_cos_iff.mp h
  · exact .inl (proportional_of_turn_eq hp ha hk)
  · obtain ⟨hlo, hhi, hsum⟩ := sum_of_turn_eq (m := 2 * k) hp ha (by rw [hk]; push_cast; ring)
    obtain rfl | rfl : k = 0 ∨ k = 1 := by omega
    · left; omega
    · right; omega

/-- Equal sines of two fractions of a turn: the fractions are equal or add to 1/2 or 3/2. -/
theorem fractions_of_sin_eq {p q a b : Nat} (hp : p < q) (ha : a < b)
    (h : Real.sin (turn p q) = Real.sin (turn a b)) :
    p * b = a * q ∨ 2 * (p * b + a * q) = q * b ∨ 2 * (p * b + a * q) = 3 * (q * b) := by
  obtain ⟨k, hk | hk⟩ := Real.sin_eq_sin_iff.mp h
  · exact .inl (proportional_of_turn_eq hp ha hk)
  · obtain ⟨hlo, hhi, hsum⟩ := sum_of_turn_eq (m := 2 * k + 1) hp ha (by rw [hk]; push_cast; ring)
    obtain rfl | rfl : k = 0 ∨ k = 1 := by omega
    · right; left; omega
    · right; right; omega

/-! ### The exact values -/

theorem realOf_eq (x : F64) : realOf x = (if fSign x then -1 else 1) * ((fMag x : ℝ) / 2 ^ 1074) := by
  rw [realOf, fInt]
  split_ifs
  · rw [Int.cast_neg, Int.cast_natCast, neg_div, neg_one_mul]
  · rw [Int.cast_natCast, one_mul]

theorem realOf_fNeg (x : F64) : realOf (fNeg x) = -realOf x := by
  rw [realOf, realOf, fInt_fNeg, Int.cast_neg, neg_div]

theorem realOf_fZero : realOf fZero = 0 := by
  rw [realOf_eq, (fMag_eq_zero_iff fZero).mpr rfl, Nat.cast_zero, zero_div, mul_zero]

/-- The value of the encoding with the fraction 0 and the exponent field `e + 1`. -/
theorem realOf_two_zpow {x : F64} {e : Nat} (hs : fSign x = false) (hb : fBits x = e * 2 ^ 52 + 2 ^ 52) :
    realOf x = 2 ^ (52 + e - 1074 : ℤ) := by
  rw [realOf_eq, fMag_eq, hb, magOf_of_significand (by norm_num) (.inr le_rfl), hs, if_neg (by decide), one_mul,
    zpow_sub₀ two_ne_zero, zpow_add₀ two_ne_zero]
  norm_cast

theorem realOf_fOne : realOf fOne = 1 := by
  rw [realOf_two_zpow (e := 1022) rfl rfl]; norm_num

theorem realOf_fHalf : realOf fHalf = 1 / 2 := by
  rw [realOf_two_zpow (e := 1021) rfl rfl]; norm_num

theorem cos_turn_values :
    Real.cos (turn 0 1) = 1 ∧ Real.cos (turn 1 2) = -1 ∧ Real.cos (turn 1 3) = -1 / 2 ∧
      Real.cos (turn 2 3) = -1 / 2 ∧ Real.cos (turn 1 4) = 0 ∧ Real.cos (turn 3 4) = 0 ∧
      Real.cos (turn 1 6) = 1 / 2 ∧ Real.cos (turn 5 6) = 1 / 2 := by
  have h01 : turn 0 1 = 0 := by rw [turn]; push_cast; ring
  have h12 : turn 1 2 = Real.pi := by rw [turn]; push_cast; ring
  have h13 : turn 1 3 = Real.pi - Real.pi / 3 := by rw [turn]; push_cast; ring
  have h23 : turn 2 3 = Real.pi / 3 + Real.pi := by rw [turn]; push_cast; ring
  have h14 : turn 1 4 = Real.pi / 2 := by rw [turn]; push_cast; ring
  have h34 : turn 3 4 = Real.pi / 2 + Real.pi := by rw [turn]; push_cast; ring
  have h16 : turn 1 6 = Real.pi / 3 := by rw [turn]; push_cast; ring
  have h56 : turn 5 6 = 2 * Real.pi - Real.pi / 3 := by rw [turn]; push_cast; ring
  rw [h01, h12, h13, h23, h14, h34, h16, h56]
  norm_num [Real.cos_add_pi, Real.cos_pi_sub, Real.cos_two_pi_sub]

theorem sin_turn_values :
    Real.sin (turn 0 1) = 0 ∧ Real.sin (turn 1 2) = 0 ∧ Real.sin (turn 1 4) = 1 ∧ Real.sin (turn 3 4) = -1 ∧
      Real.sin (turn 1 12) = 1 / 2 ∧ Real.sin (turn 5 12) = 1 / 2 ∧ Real.sin (turn 7 12) = -1 / 2 ∧
      Real.sin (turn 11 12) = -1 / 2 := by
  have h01 : turn 0 1 = 0 := by rw [turn]; push_cast; ring
  have h12 : turn 1 2 = Real.pi := by rw [turn]; push_cast; ring
  have h14 : turn 1 4 = Real.pi / 2 := by rw [turn]; push_cast; ring
  have h34 : turn 3 4 = Real.pi / 2 + Real.pi := by rw [turn]; push_cast; ring
  have h1 : turn 1 12 = Real.pi / 6 := by rw [turn]; push_cast; ring
  have h5 : turn 5 12 = Real.pi - Real.pi / 6 := by rw [turn]; push_cast; ring
  have h7 : turn 7 12 = Real.pi / 6 + Real.pi := by rw [turn]; push_cast; ring
  have h11 : turn 11 12 = 2 * Real.pi - Real.pi / 6 := by rw [turn]; push_cast; ring
  rw [h01, h12, h14, h34, h1, h5, h7, h11]
  norm_num [Real.sin_add_pi, Real.sin_pi_sub, Real.sin_two_pi_sub]

/-- An exact component of a fraction in lowest terms is the cosine. -/
theorem realOf_exactCos {p q : Nat} {x : F64} (hlt : p < q) (hcop : Nat.Coprime p q) (h : exactCos q = some x) :
    realOf x = Real.cos (turn p q) := by
  obtain ⟨v01, v12, v13, v23, v14, v34, v16, v56⟩ := cos_turn_values
  unfold exactCos at h
  split at h
  case h_1 =>
    obtain rfl : p = 0 := by omega
    cases h; rw [realOf_fOne, v01]
  case h_2 =>
    obtain rfl : p = 1 := by interval_cases p <;> revert hcop <;> decide
    cases h; rw [realOf_fNeg, realOf_fOne, v12]
  case h_3 =>
    obtain rfl | rfl : p = 1 ∨ p = 2 := by interval_cases p <;> revert hcop <;> decide
    · cases h; rw [realOf_fNeg, realOf_fHalf, v13, neg_div]
    · cases h; rw [realOf_fNeg, realOf_fHalf, v23, neg_div]
  case h_4 =>
    obtain rfl | rfl : p = 1 ∨ p = 3 := by interval_cases p <;> revert hcop <;> decide
    · cases h; rw [realOf_fZero, v14]
    · cases h; rw [realOf_fZero, v34]
  case h_5 =>
    obtain rfl | rfl : p = 1 ∨ p = 5 := by interval_cases p <;> revert hcop <;> decide
    · cases h; rw [realOf_fHalf, v16]
    · cases h; rw [realOf_fHalf, v56]
  case h_6 => cases h

/-- An exact component of a fraction in lowest terms is the sine. -/
theorem realOf_exactSin {p q : Nat} {x : F64} (hlt : p < q) (hcop : Nat.Coprime p q) (h : exactSin p q = some x) :
    realOf x = Real.sin (turn p q) := by
  obtain ⟨v01, v12, v14, v34, v1, v5, v7, v11⟩ := sin_turn_values
  unfold exactSin at h
  split at h
  case h_1 =>
    obtain rfl : p = 0 := by omega
    cases h; rw [realOf_fZero, v01]
  case h_2 =>
    obtain rfl : p = 1 := by interval_cases p <;> revert hcop <;> decide
    cases h; rw [realOf_fZero, v12]
  case h_3 =>
    obtain rfl | rfl : p = 1 ∨ p = 3 := by interval_cases p <;> revert hcop <;> decide
    · cases h; rw [if_pos rfl, realOf_fOne, v14]
    · cases h; rw [if_neg (by decide), realOf_fNeg, realOf_fOne, v34]
  case h_4 =>
    obtain rfl | rfl | rfl | rfl : p = 1 ∨ p = 5 ∨ p = 7 ∨ p = 11 := by interval_cases p <;> revert hcop <;> decide
    · cases h; rw [if_pos (by decide), realOf_fHalf, v1]
    · cases h; rw [if_pos (by decide), realOf_fHalf, v5]
    · cases h; rw [if_neg (by decide), realOf_fNeg, realOf_fHalf, v7, neg_div]
    · cases h; rw [if_neg (by decide), realOf_fNeg, realOf_fHalf, v11, neg_div]
  case h_5 => cases h

/-- A cosine of one of the five values is at a fraction that has an exact component. -/
theorem exists_exactCos {p q : Nat} (hlt : p < q) (hcop : Nat.Coprime p q) {v : ℝ}
    (hv : v = 0 ∨ v = 1 ∨ v = -1 ∨ v = 1 / 2 ∨ v = -1 / 2) (h : Real.cos (turn p q) = v) :
    ∃ x, exactCos q = some x ∧ (v = 0 → x = fZero) := by
  obtain ⟨v01, v12, v13, v23, v14, v34, v16, v56⟩ := cos_turn_values
  have hden {a b a' : Nat} (hab : a < b) (hc : Nat.Coprime a b) (hc' : Nat.Coprime a' b) (ha' : a + a' = b)
      (hcos : Real.cos (turn p q) = Real.cos (turn a b)) : q = b := by
    rcases fractions_of_cos_eq hlt hab hcos with he | he
    · exact den_eq_of_proportional hcop hc he
    · exact den_eq_of_proportional hcop hc' (by subst ha'; nlinarith)
  rcases hv with rfl | rfl | rfl | rfl | rfl
  · obtain rfl := hden (a := 1) (b := 4) (a' := 3) (by decide) (by decide) (by decide) rfl (h.trans v14.symm)
    exact ⟨_, rfl, fun _ => rfl⟩
  · obtain rfl := hden (a := 0) (b := 1) (a' := 1) (by decide) (by decide) (by decide) rfl (h.trans v01.symm)
    exact ⟨_, rfl, fun h0 => absurd h0 (by norm_num)⟩
  · obtain rfl := hden (a := 1) (b := 2) (a' := 1) (by decide) (by decide) (by decide) rfl (h.trans v12.symm)
    exact ⟨_, rfl, fun h0 => absurd h0 (by norm_num)⟩
  · obtain rfl := hden (a := 1) (b := 6) (a' := 5) (by decide) (by decide) (by decide) rfl (h.trans v16.symm)
    exact ⟨_, rfl, fun h0 => absurd h0 (by norm_num)⟩
  · obtain rfl := hden (a := 1) (b := 3) (a' := 2) (by decide) (by decide) (by decide) rfl (h.trans v13.symm)
    exact ⟨_, rfl, fun h0 => absurd h0 (by norm_num)⟩

/-- A sine of one of the five values is at a fraction that has an exact component. -/
theorem exists_exactSin {p q : Nat} (hlt : p < q) (hcop : Nat.Coprime p q) {v : ℝ}
    (hv : v = 0 ∨ v = 1 ∨ v = -1 ∨ v = 1 / 2 ∨ v = -1 / 2) (h : Real.sin (turn p q) = v) :
    ∃ x, exactSin p q = some x ∧ (v = 0 → x = fZero) := by
  obtain ⟨v01, v12, v14, v34, v1, v5, v7, v11⟩ := sin_turn_values
  have hden {a b : Nat} (hc : Nat.Coprime a b) (he : p * b = a * q) : q = b := den_eq_of_proportional hcop hc he
  rcases hv with rfl | rfl | rfl | rfl | rfl
  · rcases fractions_of_sin_eq hlt (a := 0) (b := 1) (by decide) (h.trans v01.symm) with he | he | he
    · obtain rfl := hden (a := 0) (b := 1) (by decide) (by omega)
      exact ⟨_, rfl, fun _ => rfl⟩
    · obtain rfl := hden (a := 1) (b := 2) (by decide) (by omega)
      exact ⟨_, rfl, fun _ => rfl⟩
    · omega
  · have he := fractions_of_sin_eq hlt (a := 1) (b := 4) (by decide) (h.trans v14.symm)
    obtain rfl := hden (a := 1) (b := 4) (by decide) (by omega)
    exact ⟨_, rfl, fun h0 => absurd h0 (by norm_num)⟩
  · have he := fractions_of_sin_eq hlt (a := 3) (b := 4) (by decide) (h.trans v34.symm)
    obtain rfl := hden (a := 3) (b := 4) (by decide) (by omega)
    exact ⟨_, rfl, fun h0 => absurd h0 (by norm_num)⟩
  · obtain rfl : q = 12 := by
      rcases fractions_of_sin_eq hlt (a := 1) (b := 12) (by decide) (h.trans v1.symm) with he | he | he
      · exact hden (a := 1) (by decide) (by omega)
      · exact hden (a := 5) (by decide) (by omega)
      · omega
    exact ⟨_, rfl, fun h0 => absurd h0 (by norm_num)⟩
  · obtain rfl : q = 12 := by
      rcases fractions_of_sin_eq hlt (a := 7) (b := 12) (by decide) (h.trans v7.symm) with he | he | he
      · exact hden (a := 7) (by decide) (by omega)
      · omega
      · exact hden (a := 11) (by decide) (by omega)
    exact ⟨_, rfl, fun h0 => absurd h0 (by norm_num)⟩

theorem trigComponent_some (x : F64) (given : Option F64) (v : Int) : trigComponent (some x) given v = x := rfl

/-- Settles O47: the reduced fraction decides `TRIG`, and the fractions with the five values are those `TRIG` gives
exact components for. -/
theorem trigIsExactWhereTheSpecSaysSo : Obligations.TrigIsExactWhereTheSpecSaysSo := by
  intro c p q h
  refine ⟨fun p' q' h' heq => trig_eq_of_proportional c h h' heq, fun v hv => ?_⟩
  obtain ⟨hlt, hcop, -⟩ := reduced_fraction h
  rw [turn_reduced h]
  refine ⟨fun hcos => ?_, fun hsin => ?_⟩
  · obtain ⟨x, hx, hx0⟩ := exists_exactCos hlt hcop hv hcos
    have hre : (trig c p q).re = x := by rw [trig, trigReduced, hx, trigComponent_some]
    rw [hre, realOf_exactCos hlt hcop hx]
    exact ⟨hcos, hx0⟩
  · obtain ⟨x, hx, hx0⟩ := exists_exactSin hlt hcop hv hsin
    have him : (trig c p q).im = x := by rw [trig, trigReduced, hx, trigComponent_some]
    rw [him, realOf_exactSin hlt hcop hx]
    exact ⟨hsin, hx0⟩

end Sys2Proof.Machine
end

section
/-! The integer part of `π * 2^256`, by Machin's formula. -/

namespace Sys2Proof.Machine

/-- The first `n` terms of the series of `arctan (1 / k)`. -/
def arctanSum (k : ℚ) : Nat → ℚ
  | 0 => 0
  | n + 1 => arctanSum k n + (-1) ^ n * (k⁻¹ ^ (2 * n + 1) / (2 * n + 1 : Nat))

theorem arctanSum_eq (k : ℚ) (n : Nat) :
    (arctanSum k n : ℝ) = ∑ i ∈ Finset.range n, (-1) ^ i * ((k : ℝ)⁻¹ ^ (2 * i + 1) / (2 * i + 1 : Nat)) := by
  induction n with
  | zero => simp [arctanSum]
  | succ n ih => rw [arctanSum, Finset.sum_range_succ, ← ih]; push_cast; rfl

/-- An even number of terms is below the arctangent, an odd number above. -/
theorem arctanSum_bounds {k : ℚ} (hk : 1 < k) (m : Nat) :
    (arctanSum k (2 * m) : ℝ) ≤ Real.arctan (k : ℝ)⁻¹ ∧ Real.arctan (k : ℝ)⁻¹ ≤ arctanSum k (2 * m + 1) := by
  have hk' : (1 : ℝ) < k := by exact_mod_cast hk
  have h0 : 0 < (k : ℝ)⁻¹ := by positivity
  have h1 : (k : ℝ)⁻¹ < 1 := inv_lt_one_of_one_lt₀ hk'
  have hsum := (Real.hasSum_arctan (x := (k : ℝ)⁻¹) (by rwa [Real.norm_of_nonneg h0.le])).tendsto_sum_nat
  simp only [mul_div_assoc] at hsum
  have hanti : Antitone fun i : Nat => (k : ℝ)⁻¹ ^ (2 * i + 1) / (2 * i + 1 : Nat) := by
    refine antitone_nat_of_succ_le fun i => ?_
    exact div_le_div₀ (by positivity) (pow_le_pow_of_le_one h0.le h1.le (by omega)) (by positivity)
      (by exact_mod_cast (by omega : 2 * i + 1 ≤ 2 * (i + 1) + 1))
  rw [arctanSum_eq, arctanSum_eq]
  exact ⟨hanti.alternating_series_le_tendsto hsum m, hanti.tendsto_le_alternating_series hsum m⟩

/-- `piFixed` is the integer part of `π * 2^256`: 57 and 19 terms of the two series of Machin's formula decide it. -/
theorem piFixed_bounds : (piFixed : ℝ) ≤ 2 ^ 256 * Real.pi ∧ 2 ^ 256 * Real.pi ≤ piFixed + 1 := by
  have hlo : (piFixed : ℚ) ≤ 2 ^ 256 * (4 * (4 * arctanSum 5 (2 * 28) - arctanSum 239 (2 * 9 + 1))) := by decide +kernel
  have hhi : 2 ^ 256 * (4 * (4 * arctanSum 5 (2 * 28 + 1) - arctanSum 239 (2 * 9))) ≤ (piFixed : ℚ) + 1 := by
    decide +kernel
  rify at hlo hhi
  have hpi := Real.four_mul_arctan_inv_5_sub_arctan_inv_239
  obtain ⟨lo5, hi5⟩ := arctanSum_bounds (k := 5) (by norm_num) 28
  obtain ⟨lo239, hi239⟩ := arctanSum_bounds (k := 239) (by norm_num) 9
  rw [Rat.cast_ofNat] at lo5 hi5 lo239 hi239
  constructor <;> linarith

end Sys2Proof.Machine
end

section
/-! The error of the fixed-point evaluation of cosine and sine, at most 2^-249. -/

namespace Sys2Proof.Machine

/-! ### The series -/

/-- The first `n` terms of the alternating series that begins with `y^j / j!`. -/
noncomputable def taylorSum (y : ℝ) : (n j : Nat) → ℝ
  | 0, _ => 0
  | n + 1, j => y ^ j / (Nat.factorial j : ℝ) - taylorSum y n (j + 2)

theorem altSeries_le (x2 fuel j t : Nat) : altSeries x2 fuel j t ≤ t := by
  cases fuel with
  | zero => exact le_rfl
  | succ fuel => exact Nat.sub_le _ _

/-- One term from the one before it in units of `1 / S`: the error 3 of `t` is multiplied by at most `1 / c`, and the
error of the factor and the rounding down add at most `1 / c` and 1. -/
theorem scaledTerm_close {S c t x2 : Nat} {u z : ℝ} (hS : 0 < S) (hc : 2 ≤ c) (hx : x2 ≤ S) (hu0 : 0 ≤ u) (hu1 : u ≤ 1)
    (hz : |(x2 : ℝ) - S * z| ≤ 1) (ht : |(t : ℝ) - S * u| ≤ 3) :
    |((t * x2 / S / c : Nat) : ℝ) - S * (u * z / c)| ≤ 3 := by
  have hS' : (0 : ℝ) < S := by exact_mod_cast hS
  have hc' : (2 : ℝ) ≤ c := by exact_mod_cast hc
  have hx' : (x2 : ℝ) ≤ S := by exact_mod_cast hx
  have hdiv : (t : ℝ) * x2 = S * c * (t * x2 / (S * c) : Nat) + (t * x2 % (S * c) : Nat) := by
    exact_mod_cast (Nat.div_add_mod (t * x2) (S * c)).symm
  have hr : ((t * x2 % (S * c) : Nat) : ℝ) ≤ S * c := by
    exact_mod_cast (Nat.mod_lt (t * x2) (Nat.mul_pos hS (by omega))).le
  have hr0 : (0 : ℝ) ≤ (t * x2 % (S * c) : Nat) := Nat.cast_nonneg _
  have hprod : |(t : ℝ) * x2 - S * u * (S * z)| ≤ 4 * S := by
    calc |(t : ℝ) * x2 - S * u * (S * z)| = |(t - S * u) * x2 + S * u * (x2 - S * z)| := by congr 1; ring
      _ ≤ |(t : ℝ) - S * u| * x2 + S * u * |x2 - S * z| := by
        refine (abs_add_le _ _).trans (le_of_eq ?_)
        rw [abs_mul, abs_mul, Nat.abs_cast, abs_of_nonneg (by positivity : 0 ≤ S * u)]
      _ ≤ 3 * S + S * 1 * 1 := by gcongr
      _ = 4 * S := by ring
  rw [Nat.div_div_eq_div_mul]
  have hscaled : S * c * (((t * x2 / (S * c) : Nat) : ℝ) - S * (u * z / c)) =
      t * x2 - S * u * (S * z) - (t * x2 % (S * c) : Nat) := by
    rw [hdiv]; field_simp; ring
  have hpos : 0 < (S : ℝ) * c := by positivity
  have hSc : 2 * (S : ℝ) ≤ S * c := by nlinarith
  rw [abs_le] at hprod ⊢
  constructor <;> refine le_of_mul_le_mul_left ?_ hpos <;> rw [hscaled] <;> linarith

theorem nextTerm_close {y : ℝ} (hy0 : 0 ≤ y) (hy1 : y ≤ 1) {x2 : Nat} (hx : x2 ≤ 2 ^ trigBits)
    (hx2 : |(x2 : ℝ) - 2 ^ trigBits * y ^ 2| ≤ 1) {j t : Nat}
    (ht : |(t : ℝ) - 2 ^ trigBits * (y ^ j / (Nat.factorial j : ℝ))| ≤ 3) :
    |((t * x2 / 2 ^ trigBits / ((j + 1) * (j + 2)) : Nat) : ℝ) -
      2 ^ trigBits * (y ^ (j + 2) / (Nat.factorial (j + 2) : ℝ))| ≤ 3 := by
  have hfac : (Nat.factorial (j + 2) : ℝ) = ((j + 1) * (j + 2) : Nat) * Nat.factorial j := by
    rw [Nat.factorial_succ, Nat.factorial_succ]; push_cast; ring
  have hnext : y ^ (j + 2) / (Nat.factorial (j + 2) : ℝ) =
      y ^ j / (Nat.factorial j : ℝ) * y ^ 2 / ((j + 1) * (j + 2) : Nat) := by rw [hfac, pow_add]; field_simp
  have hone : y ^ j / (Nat.factorial j : ℝ) ≤ 1 :=
    (div_le_one (by positivity)).mpr ((pow_le_one₀ hy0 hy1).trans (by exact_mod_cast Nat.factorial_pos j))
  have hcast : (2 : ℝ) ^ trigBits = (2 ^ trigBits : Nat) := by norm_cast
  rw [hcast] at hx2 ht ⊢
  rw [hnext]
  exact scaledTerm_close (Nat.two_pow_pos _) (Nat.mul_le_mul (Nat.le_add_left 1 j) (Nat.le_add_left 2 j)) hx
    (by positivity) hone hx2 ht

theorem nextTerm_le {x2 : Nat} (hx : x2 ≤ 2 ^ trigBits) (t c : Nat) : t * x2 / 2 ^ trigBits / c ≤ t :=
  (Nat.div_le_self _ _).trans (Nat.div_le_of_le_mul (by rw [Nat.mul_comm t]; exact Nat.mul_le_mul_right t hx))

/-- The fixed-point series against the exact one: each of the `fuel + 1` terms is within 3 units. -/
theorem altSeries_close {y : ℝ} (hy0 : 0 ≤ y) (hy1 : y ≤ 1) {x2 : Nat} (hx : x2 ≤ 2 ^ trigBits)
    (hx2 : |(x2 : ℝ) - 2 ^ trigBits * y ^ 2| ≤ 1) (fuel : Nat) {j t : Nat}
    (ht : |(t : ℝ) - 2 ^ trigBits * (y ^ j / (Nat.factorial j : ℝ))| ≤ 3) :
    |(altSeries x2 fuel j t : ℝ) - 2 ^ trigBits * taylorSum y (fuel + 1) j| ≤ 3 * (fuel + 1) := by
  induction fuel generalizing j t with
  | zero => simpa [altSeries, taylorSum] using ht
  | succ fuel ih =>
    have hrest := ih (nextTerm_close hy0 hy1 hx hx2 ht)
    have hsub := (altSeries_le x2 fuel (j + 2) _).trans (nextTerm_le hx t ((j + 1) * (j + 2)))
    rw [altSeries, taylorSum, Nat.cast_sub hsub, mul_sub]
    rw [abs_le] at *
    push_cast
    constructor <;> linarith

/-! ### The cosine and the sine -/

theorem sum_exp_eq_taylorSum (y : ℝ) (n j : Nat) :
    ∑ m ∈ Finset.range (2 * n), ((y : ℂ) * Complex.I) ^ (m + j) / (Nat.factorial (m + j) : ℂ) =
      Complex.I ^ j * (taylorSum y n j + taylorSum y n (j + 1) * Complex.I) := by
  induction n generalizing j with
  | zero => simp [taylorSum]
  | succ n ih =>
    rw [show 2 * (n + 1) = 2 * n + 1 + 1 from rfl, Finset.sum_range_succ', Finset.sum_range_succ']
    simp only [Nat.add_assoc, Nat.zero_add]
    rw [show 1 + (1 + j) = j + 2 by omega, ih (j + 2), show 1 + j = j + 1 by omega, taylorSum, taylorSum]
    push_cast
    rw [mul_pow, mul_pow, pow_succ Complex.I j, pow_add Complex.I j 2, Complex.I_sq]
    ring

theorem taylorSum_close {y : ℝ} (hy0 : 0 ≤ y) (hy1 : y ≤ 1) :
    |2 ^ trigBits * taylorSum y 31 0 - 2 ^ trigBits * Real.cos y| ≤ 1 ∧
      |2 ^ trigBits * taylorSum y 31 1 - 2 ^ trigBits * Real.sin y| ≤ 1 := by
  have hnorm : ‖(y : ℂ) * Complex.I‖ = y := by rw [norm_mul, Complex.norm_I, mul_one, Complex.norm_of_nonneg hy0]
  have hbound := Complex.exp_bound (x := y * Complex.I) (hnorm.trans_le hy1) (n := 2 * 31) (by norm_num)
  have hsum := sum_exp_eq_taylorSum y 31 0
  simp only [Nat.add_zero, pow_zero, one_mul] at hsum
  have hsmall : ((2 * 31).succ : ℝ) * ((Nat.factorial (2 * 31) : ℝ) * (2 * 31 : Nat))⁻¹ ≤ (2 ^ trigBits)⁻¹ := by
    rw [trigBits]; norm_num [Nat.factorial]
  have htail :
      ‖Complex.exp (y * Complex.I) - (taylorSum y 31 0 + taylorSum y 31 1 * Complex.I)‖ ≤ (2 ^ trigBits)⁻¹ := by
    rw [hsum, hnorm] at hbound
    exact hbound.trans ((mul_le_of_le_one_left (by positivity) (pow_le_one₀ hy0 hy1)).trans hsmall)
  rw [Complex.exp_mul_I] at htail
  have hre := (Complex.abs_re_le_norm _).trans htail
  have him := (Complex.abs_im_le_norm _).trans htail
  simp only [Complex.sub_re, Complex.sub_im, Complex.add_re, Complex.add_im, Complex.mul_re, Complex.mul_im,
    Complex.ofReal_re, Complex.ofReal_im, Complex.I_re, Complex.I_im, Complex.cos_ofReal_re, Complex.cos_ofReal_im,
    Complex.sin_ofReal_re, Complex.sin_ofReal_im, mul_zero, mul_one, sub_zero, add_zero, zero_add] at hre him
  rw [abs_sub_comm] at hre him
  have hscale {a b : ℝ} (h : |a - b| ≤ (2 ^ trigBits)⁻¹) : |2 ^ trigBits * a - 2 ^ trigBits * b| ≤ 1 := by
    rw [← mul_sub, abs_mul, abs_of_pos (by positivity)]
    exact (mul_le_mul_of_nonneg_left h (by positivity)).trans_eq (mul_inv_cancel₀ (by positivity))
  exact ⟨hscale hre, hscale him⟩

/-- The fixed-point cosine and sine of the fixed-point angle `x`. -/
theorem cosSinFixed_close_of_fixed {x : Nat} (hx : x ≤ 2 ^ trigBits) :
    |((cosSinFixed x).1 : ℝ) - 2 ^ trigBits * Real.cos (x / 2 ^ trigBits)| ≤ 94 ∧
      |((cosSinFixed x).2 : ℝ) - 2 ^ trigBits * Real.sin (x / 2 ^ trigBits)| ≤ 94 := by
  have hcast : ((2 ^ trigBits : Nat) : ℝ) = 2 ^ trigBits := by norm_cast
  have hS : (0 : ℝ) < 2 ^ trigBits := by positivity
  have hx' : (x : ℝ) ≤ 2 ^ trigBits := by rw [← hcast]; exact_mod_cast hx
  have hy0 : 0 ≤ (x : ℝ) / 2 ^ trigBits := by positivity
  have hy1 : (x : ℝ) / 2 ^ trigBits ≤ 1 := (div_le_one hS).mpr hx'
  have hx2 : x * x / 2 ^ trigBits ≤ 2 ^ trigBits := Nat.div_le_of_le_mul (Nat.mul_le_mul hx hx)
  have hsq : |((x * x / 2 ^ trigBits : Nat) : ℝ) - 2 ^ trigBits * (x / 2 ^ trigBits) ^ 2| ≤ 1 := by
    have heq : (2 : ℝ) ^ trigBits * (x / 2 ^ trigBits) ^ 2 = (x * x : Nat) / (2 ^ trigBits : Nat) := by
      rw [hcast]; push_cast; field_simp
    have hlo := Nat.lt_floor_add_one (((x * x : Nat) : ℝ) / (2 ^ trigBits : Nat))
    have hhi := Nat.floor_le (a := ((x * x : Nat) : ℝ) / (2 ^ trigBits : Nat)) (by positivity)
    rw [Nat.floor_div_eq_div] at hlo hhi
    rw [heq, abs_le]
    constructor <;> linarith
  obtain ⟨hcos, hsin⟩ := taylorSum_close hy0 hy1
  have c := altSeries_close hy0 hy1 hx2 hsq 30 (j := 0) (t := 2 ^ trigBits) (by simp)
  have s := altSeries_close hy0 hy1 hx2 hsq 30 (j := 1) (t := x)
    (by rw [pow_one, Nat.factorial_one, Nat.cast_one, div_one, mul_div_cancel₀ _ hS.ne']; norm_num)
  rw [cosSinFixed]
  exact ⟨(abs_sub_le _ _ _).trans ((add_le_add c hcos).trans (by norm_num)),
    (abs_sub_le _ _ _).trans ((add_le_add s hsin).trans (by norm_num))⟩

/-- The angle `a / (4q)` of a half turn, `0 ≤ a ≤ q`, and its fixed-point value. -/
theorem fixedAngle_close {a q : Nat} (hq : 0 < q) (ha : a ≤ q) :
    piFixed * a / (4 * q) ≤ 2 ^ trigBits ∧
      |((piFixed * a / (4 * q) : Nat) : ℝ) - 2 ^ trigBits * (Real.pi * a / (4 * q))| ≤ 2 := by
  have hq' : (0 : ℝ) < q := by exact_mod_cast hq
  have hx := Nat.floor_div_eq_div (K := ℝ) (piFixed * a) (4 * q)
  have hlo := Nat.lt_floor_add_one (((piFixed * a : Nat) : ℝ) / (4 * q : Nat))
  have hhi := Nat.floor_le (a := ((piFixed * a : Nat) : ℝ) / (4 * q : Nat)) (by positivity)
  rw [hx] at hlo hhi
  obtain ⟨hpi0, hpi1⟩ := piFixed_bounds
  have hle : (a : ℝ) / (4 * q) ≤ 1 := (div_le_one (by positivity)).mpr (by
    have : (a : ℝ) ≤ q := by exact_mod_cast ha
    linarith)
  have h0 : 0 ≤ (a : ℝ) / (4 * q) := by positivity
  constructor
  · refine Nat.div_le_of_le_mul ?_
    calc piFixed * a ≤ 2 ^ trigBits * 4 * q := Nat.mul_le_mul (by decide) ha
      _ = 4 * q * 2 ^ trigBits := by ring
  · have heq : ((piFixed * a : Nat) : ℝ) / (4 * q : Nat) = piFixed * (a / (4 * q)) := by push_cast; ring
    rw [heq] at hlo hhi
    rw [trigBits, mul_div_assoc, ← mul_assoc, abs_le]
    constructor <;> nlinarith

/-- The fixed-point cosine and sine of an angle in the first octant are within 96 units of 2^-256. -/
theorem cosSinFixed_close {a q : Nat} (hq : 0 < q) (ha : a ≤ q) :
    |((cosSinFixed (piFixed * a / (4 * q))).1 : ℝ) - 2 ^ trigBits * Real.cos (Real.pi * a / (4 * q))| ≤ 96 ∧
      |((cosSinFixed (piFixed * a / (4 * q))).2 : ℝ) - 2 ^ trigBits * Real.sin (Real.pi * a / (4 * q))| ≤ 96 := by
  obtain ⟨hx, hangle⟩ := fixedAngle_close hq ha
  obtain ⟨hcos, hsin⟩ := cosSinFixed_close_of_fixed hx
  have hS : (0 : ℝ) < 2 ^ trigBits := by positivity
  generalize piFixed * a / (4 * q) = x at *
  have hscaled {u v : ℝ} (h : |u - v| ≤ |(x : ℝ) / 2 ^ trigBits - Real.pi * a / (4 * q)|) :
      |2 ^ trigBits * u - 2 ^ trigBits * v| ≤ 2 := by
    rw [← mul_sub, abs_mul, abs_of_pos hS]
    refine (mul_le_mul_of_nonneg_left h hS.le).trans (le_of_eq_of_le ?_ hangle)
    rw [← abs_of_pos hS, ← abs_mul, abs_of_pos hS, mul_sub, mul_div_cancel₀ _ hS.ne']
  exact ⟨(abs_sub_le _ _ _).trans ((add_le_add hcos (hscaled (Real.abs_cos_sub_cos_le _ _))).trans (by norm_num)),
    (abs_sub_le _ _ _).trans ((add_le_add hsin (hscaled (Real.abs_sin_sub_sin_le _ _))).trans (by norm_num))⟩

/-! ### The octants -/

/-- The cosine and the sine of an angle of the octant `o`, from those of its distance to the nearest quarter turn. -/
def octantPair {α : Type} [Neg α] (o : Nat) (c s : α) : α × α :=
  match o with
  | 0 => (c, s)
  | 1 => (s, c)
  | 2 => (-s, c)
  | 3 => (-c, s)
  | 4 => (-c, -s)
  | 5 => (-s, -c)
  | 6 => (s, -c)
  | _ => (c, -s)

/-- The distance of `p / q` of a turn from the nearest quarter turn, in units of `1 / (8q)` of a turn. -/
def octantRest (p q : Nat) : Nat := if 8 * p / q % 2 = 0 then 8 * p % q else q - 8 * p % q

theorem octantRest_le {p q : Nat} (h : p < q) : octantRest p q ≤ q := by
  have := Nat.mod_lt (8 * p) (Nat.zero_lt_of_lt h)
  rw [octantRest]; split_ifs <;> omega

theorem trigFixed_eq (p q : Nat) :
    trigFixed p q = octantPair (8 * p / q) ((cosSinFixed (piFixed * octantRest p q / (4 * q))).1 : Int)
      ((cosSinFixed (piFixed * octantRest p q / (4 * q))).2 : Int) := rfl

theorem octantPair_rel {α β : Type} [Neg α] [Neg β] {R : α → β → Prop} (hneg : ∀ x y, R x y → R (-x) (-y)) {c s : α}
    {c' s' : β} (hc : R c c') (hs : R s s') (o : Nat) :
    R (octantPair o c s).1 (octantPair o c' s').1 ∧ R (octantPair o c s).2 (octantPair o c' s').2 := by
  unfold octantPair
  split
  · exact ⟨hc, hs⟩
  · exact ⟨hs, hc⟩
  · exact ⟨hneg _ _ hs, hc⟩
  · exact ⟨hneg _ _ hc, hs⟩
  · exact ⟨hneg _ _ hc, hneg _ _ hs⟩
  · exact ⟨hneg _ _ hs, hneg _ _ hc⟩
  · exact ⟨hs, hneg _ _ hc⟩
  · exact ⟨hc, hneg _ _ hs⟩

theorem octantPair_forall {α : Type} [Neg α] {P : α → Prop} (hneg : ∀ x, P x → P (-x)) {c s : α} (hc : P c) (hs : P s)
    (o : Nat) : P (octantPair o c s).1 ∧ P (octantPair o c s).2 :=
  octantPair_rel (R := fun x _ : α => P x) (c' := c) (s' := s) (fun x _ => hneg x) hc hs o

theorem turn_eq_octant {p q : Nat} (h : p < q) :
    (8 * p / q % 2 = 0 ∧ turn p q = (8 * p / q : Nat) * (Real.pi / 4) + Real.pi * octantRest p q / (4 * q)) ∨
      (8 * p / q % 2 = 1 ∧
        turn p q = ((8 * p / q : Nat) + 1) * (Real.pi / 4) - Real.pi * octantRest p q / (4 * q)) := by
  have hq : (q : ℝ) ≠ 0 := by norm_cast; omega
  have hdiv : (8 * p : ℝ) = q * (8 * p / q : Nat) + (8 * p % q : Nat) := by
    exact_mod_cast (Nat.div_add_mod (8 * p) q).symm
  have hturn : turn p q = Real.pi * (8 * p) / (4 * q) := by rw [turn]; field_simp; ring
  rw [hturn, hdiv, octantRest]
  split_ifs with hpar
  · left
    refine ⟨hpar, ?_⟩
    field_simp
  · right
    refine ⟨by omega, ?_⟩
    rw [Nat.cast_sub (Nat.mod_lt _ (by omega)).le]
    field_simp; ring

theorem cos_sin_turn {p q : Nat} (h : p < q) :
    octantPair (8 * p / q) (Real.cos (Real.pi * octantRest p q / (4 * q)))
        (Real.sin (Real.pi * octantRest p q / (4 * q))) = (Real.cos (turn p q), Real.sin (turn p q)) := by
  have ho : 8 * p / q < 8 := Nat.div_lt_of_lt_mul (by omega)
  have hturn := turn_eq_octant h
  generalize 8 * p / q = o at *
  generalize Real.pi * octantRest p q / (4 * q) = θ at *
  generalize turn p q = φ at *
  interval_cases o
  · obtain rfl : φ = θ := by simpa using hturn
    rfl
  · obtain rfl : φ = Real.pi / 2 - θ := by simp at hturn; linarith
    rw [Real.cos_pi_div_two_sub, Real.sin_pi_div_two_sub]; rfl
  · obtain rfl : φ = θ + Real.pi / 2 := by simp at hturn; linarith
    rw [Real.cos_add_pi_div_two, Real.sin_add_pi_div_two]; rfl
  · obtain rfl : φ = Real.pi - θ := by simp at hturn; linarith
    rw [Real.cos_pi_sub, Real.sin_pi_sub]; rfl
  · obtain rfl : φ = θ + Real.pi := by simp at hturn; linarith
    rw [Real.cos_add_pi, Real.sin_add_pi]; rfl
  · obtain rfl : φ = Real.pi / 2 - θ + Real.pi := by simp at hturn; linarith
    rw [Real.cos_add_pi, Real.sin_add_pi, Real.cos_pi_div_two_sub, Real.sin_pi_div_two_sub]; rfl
  · obtain rfl : φ = θ + Real.pi / 2 + Real.pi := by simp at hturn; linarith
    rw [Real.cos_add_pi, Real.sin_add_pi, Real.cos_add_pi_div_two, Real.sin_add_pi_div_two, neg_neg]; rfl
  · obtain rfl : φ = 2 * Real.pi - θ := by simp at hturn; linarith
    rw [Real.cos_two_pi_sub, Real.sin_two_pi_sub]; rfl

end Sys2Proof.Machine
end

section
/-! Every component of `TRIG` is within 1 unit in the last place (00_scope.md R12 (c)). -/

namespace Sys2Proof.Machine

/-! ### The unit in the last place -/

/-- The unit of the binade of the whole number `N` of units 2^-1074 is at most that of a real number not below it. -/
theorem two_pow_binade_le_ulpOf {N : Nat} {v : ℝ} (h : (N : ℝ) ≤ |v| * 2 ^ 1074) :
    (2 : ℝ) ^ binade N / 2 ^ 1074 ≤ ulpOf v := by
  have hz : (2 : ℝ) ^ binade N / 2 ^ 1074 = 2 ^ ((binade N : ℤ) - 1074) := by
    rw [zpow_sub₀ two_ne_zero, zpow_natCast]; norm_cast
  rw [hz, ulpOf]
  refine zpow_le_zpow_right₀ one_le_two ?_
  rcases Nat.le_total (Nat.log2 N) 52 with hsmall | hlarge
  · rw [binade, Nat.sub_eq_zero_of_le hsmall]
    exact le_max_of_le_right (by norm_num)
  · have hN : N ≠ 0 := by rintro rfl; simp at hlarge
    have hpow : ((2 ^ Nat.log2 N : Nat) : ℝ) ≤ |v| * 2 ^ 1074 := le_trans (by exact_mod_cast Nat.log2_self_le hN) h
    have hle : ((2 : Nat) : ℝ) ^ ((Nat.log2 N : ℤ) - 1074) ≤ |v| := by
      rw [Nat.cast_ofNat, zpow_sub₀ two_ne_zero, zpow_natCast, div_le_iff₀ (by positivity)]
      exact_mod_cast hpow
    have hv : 0 < |v| := lt_of_lt_of_le (by positivity) hle
    have hlog := (Int.zpow_le_iff_le_log one_lt_two hv).mp hle
    rw [binade]
    exact le_max_of_le_left (by omega)

/-- A magnitude lies within half a unit in the last place of every nonnegative number. -/
theorem exists_magOf_close {c : ℝ} (hc : 0 ≤ c) :
    ∃ i, |(magOf i : ℝ) - c| ≤ 2 ^ binade ⌊c⌋₊ / 2 := by
  obtain ⟨j, hle, hlt, hgap, -⟩ := roundIndex_bracket ⌊c⌋₊ one_pos
  rw [Nat.mul_one] at hle hlt
  rw [Nat.div_one] at hgap
  have hlo : (magOf j : ℝ) ≤ c := (Nat.le_floor_iff hc).mp hle
  have hhi : c < magOf (j + 1) := (Nat.floor_lt hc).mp hlt
  have hgap' : (magOf (j + 1) : ℝ) = magOf j + 2 ^ binade ⌊c⌋₊ := by exact_mod_cast hgap
  rcases le_total (c - magOf j) (2 ^ binade ⌊c⌋₊ / 2) with h | h
  · exact ⟨j, by rw [abs_le]; constructor <;> linarith⟩
  · exact ⟨j + 1, by rw [abs_le]; constructor <;> linarith⟩

/-- The rounded value of a whole number `n` near the real number `c`: half a unit in the last place of `c`, and twice
the distance of `n` from `c`. -/
theorem roundIndex_close (n : Nat) {c : ℝ} (hc : 0 ≤ c) :
    |(magOf (roundIndex n 1) : ℝ) - c| ≤ 2 ^ binade ⌊c⌋₊ / 2 + 2 * |(n : ℝ) - c| := by
  obtain ⟨i, hi⟩ := exists_magOf_close hc
  have hnear : |(n : ℝ) - magOf (roundIndex n 1)| ≤ |(n : ℝ) - magOf i| := by
    have h := (roundIndex_nearest n one_pos i).1
    rw [Nat.cast_one, mul_one, mul_one] at h
    have habs : |(n : ℤ) - magOf (roundIndex n 1)| ≤ |(n : ℤ) - magOf i| := by
      rw [Int.abs_eq_natAbs, Int.abs_eq_natAbs]; exact_mod_cast h
    exact_mod_cast habs
  have hvia := abs_sub_le (magOf (roundIndex n 1) : ℝ) n c
  have hvia' := abs_sub_le (n : ℝ) c (magOf i)
  rw [abs_sub_comm _ (n : ℝ)] at hvia
  rw [abs_sub_comm c] at hvia'
  linarith

theorem sub_le_binade {k N : Nat} (h : 2 ^ k ≤ N) : k - 52 ≤ binade N := by
  have hN : N ≠ 0 := by have := Nat.two_pow_pos k; omega
  have := (Nat.le_log2 hN).mpr h
  rw [binade]; omega

/-! ### The components -/

/-- The 256-bit evaluation `v` of `x` is within 96 units of 2^-256. -/
def FixedClose (v : Int) (x : ℝ) : Prop := |(v : ℝ) - 2 ^ trigBits * x| ≤ 96

theorem FixedClose.neg {v : Int} {x : ℝ} (h : FixedClose v x) : FixedClose (-v) (-x) := by
  rw [FixedClose, Int.cast_neg, mul_neg, neg_sub_neg, abs_sub_comm]; exact h

theorem trigFixed_close {p q : Nat} (h : p < q) :
    FixedClose (trigFixed p q).1 (Real.cos (turn p q)) ∧ FixedClose (trigFixed p q).2 (Real.sin (turn p q)) := by
  obtain ⟨hc, hs⟩ := cosSinFixed_close (Nat.zero_lt_of_lt h) (octantRest_le h)
  rw [trigFixed_eq]
  have hrel := octantPair_rel (R := FixedClose) (fun _ _ => FixedClose.neg) hc hs (8 * p / q)
  rwa [cos_sin_turn h] at hrel

/-- An angle whose fraction in lowest terms has no denominator 1, 2 or 4 is no multiple of a quarter turn. -/
theorem octantRest_pos {p q : Nat} (h : p < q) (hcop : Nat.Coprime p q) (hq : q ≠ 1 ∧ q ≠ 2 ∧ q ≠ 4) :
    0 < octantRest p q := by
  have hdiv := Nat.div_add_mod (8 * p) q
  have hmod := Nat.mod_lt (8 * p) (Nat.zero_lt_of_lt h)
  rw [octantRest]
  split_ifs with hpar
  · refine Nat.pos_of_ne_zero fun h0 => ?_
    obtain ⟨m, hm⟩ := Nat.dvd_of_mod_eq_zero hpar
    have hdvd : q ∣ p * 4 := ⟨m, by rw [hm, h0] at hdiv; linarith⟩
    have hle := Nat.le_of_dvd (by norm_num) (hcop.symm.dvd_of_dvd_mul_left hdvd)
    have hdvd4 := hcop.symm.dvd_of_dvd_mul_left hdvd
    interval_cases q <;> omega
  · omega

theorem turn_component_ge {p q : Nat} (h : p < q) (hcop : Nat.Coprime p q) (hq : q ≠ 1 ∧ q ≠ 2 ∧ q ≠ 4) :
    1 / (2 * q) ≤ |Real.cos (turn p q)| ∧ 1 / (2 * q) ≤ |Real.sin (turn p q)| := by
  have hturn := cos_sin_turn h
  have hq1 : (1 : ℝ) ≤ q := by exact_mod_cast Nat.one_le_of_lt h
  have ha1 : (1 : ℝ) ≤ octantRest p q := by exact_mod_cast octantRest_pos h hcop hq
  have haq : (octantRest p q : ℝ) ≤ q := by exact_mod_cast octantRest_le h
  generalize (octantRest p q : ℝ) = a at *
  have hscale : 2 / Real.pi * (Real.pi * a / (4 * q)) = a / (2 * q) := by field_simp; norm_num
  have hθ0 : 0 ≤ Real.pi * a / (4 * q) := by positivity
  have hθ1 : Real.pi * a / (4 * q) ≤ Real.pi / 2 := by
    rw [div_le_div_iff₀ (by positivity) two_pos]; nlinarith [Real.pi_pos]
  have hs := Real.mul_le_sin hθ0 hθ1
  have hc := Real.one_sub_mul_le_cos hθ0 hθ1
  rw [hscale] at hs hc
  have hs' : 1 / (2 * (q : ℝ)) ≤ a / (2 * q) := by gcongr
  have hc' : 1 / (2 * (q : ℝ)) ≤ 1 - a / (2 * q) := by
    rw [le_sub_iff_add_le, ← add_div, div_le_one (by positivity)]; linarith
  have hall := octantPair_forall (P := fun x : ℝ => 1 / (2 * q) ≤ |x|) (fun x hx => by rwa [abs_neg])
    ((hc'.trans hc).trans (le_abs_self _)) ((hs'.trans hs).trans (le_abs_self _)) (8 * p / q)
  rwa [hturn] at hall

/-! ### Fixed point and binary64 -/

/-- The unit 2^-256 of the evaluation, in units of 2^-1074. -/
noncomputable def fixedUnit : ℝ := 2 ^ 818

theorem fixedUnit_pos : 0 < fixedUnit := by rw [fixedUnit]; positivity

theorem two_pow_1074_eq : (2 : ℝ) ^ 1074 = 2 ^ trigBits * fixedUnit := by rw [fixedUnit, trigBits, ← pow_add]

theorem trigSlack_cast : (trigSlack : ℝ) = 2 ^ 16 * fixedUnit := by
  rw [fixedUnit, trigSlack, ← pow_add, Nat.cast_pow, Nat.cast_ofNat]

theorem fixedUnits_cast (v : Int) : (fixedUnits v : ℝ) = |(v : ℝ)| * fixedUnit := by
  rw [fixedUnit, fixedUnits, trigBits, Nat.cast_mul, Nat.cast_natAbs, Int.cast_abs, Nat.cast_pow, Nat.cast_ofNat]

theorem signed_fixedUnits_cast (v : Int) :
    ((if v < 0 then -(fixedUnits v : Int) else fixedUnits v : Int) : ℝ) = v * fixedUnit := by
  split_ifs with hv
  · rw [Int.cast_neg, Int.cast_natCast, fixedUnits_cast, abs_of_neg (by exact_mod_cast hv), neg_mul, neg_neg]
  · rw [Int.cast_natCast, fixedUnits_cast, abs_of_nonneg (by exact_mod_cast not_lt.mp hv)]

theorem fixedUnits_close {v : Int} {x : ℝ} (h : FixedClose v x) :
    |(fixedUnits v : ℝ) - |x| * 2 ^ 1074| ≤ 96 * fixedUnit := by
  have hS : (0 : ℝ) < 2 ^ trigBits := by positivity
  have habs : |(|(v : ℝ)| - |x| * 2 ^ trigBits)| ≤ 96 := by
    refine le_trans ?_ h
    rw [mul_comm |x|, ← abs_of_pos hS, ← abs_mul, abs_of_pos hS]
    exact abs_abs_sub_abs_le _ _
  rw [fixedUnits_cast, two_pow_1074_eq, ← mul_assoc, ← sub_mul, abs_mul, abs_of_pos fixedUnit_pos]
  exact mul_le_mul_of_nonneg_right habs fixedUnit_pos.le

theorem fixedUnits_sub_trigSlack_le {v : Int} {x : ℝ} (hv : FixedClose v x) :
    ((fixedUnits v - trigSlack : Nat) : ℝ) ≤ |x| * 2 ^ 1074 := by
  have hw := fixedUnit_pos
  have hclose := (abs_le.mp (fixedUnits_close hv)).2
  have hnonneg : 0 ≤ |x| * 2 ^ 1074 := by positivity
  generalize |x| * 2 ^ 1074 = c at *
  rcases Nat.le_total (fixedUnits v) trigSlack with h | h
  · rwa [Nat.sub_eq_zero_of_le h, Nat.cast_zero]
  · rw [Nat.cast_sub h, trigSlack_cast]; linarith

/-- An implementation's entry that the model admits. -/
theorem realOf_withinUlp {y : F64} {v : Int} {x : ℝ} (hv : FixedClose v x) (h : withinUlp y v = true) :
    IsFinite y ∧ |realOf y - x| ≤ ulpOf x := by
  have hw := fixedUnit_pos
  have hU : (0 : ℝ) < 2 ^ 1074 := by positivity
  rw [withinUlp, Bool.and_eq_true, Bool.and_eq_true, Bool.not_eq_true', Bool.not_eq_true', decide_eq_true_eq] at h
  obtain ⟨hfin, hle⟩ := h
  refine ⟨hfin, le_trans ?_ (two_pow_binade_le_ulpOf (fixedUnits_sub_trigSlack_le hv))⟩
  have hle' : |(fInt y : ℝ) - v * fixedUnit| + 2 ^ 16 * fixedUnit ≤ 2 ^ binade (fixedUnits v - trigSlack) := by
    rw [← trigSlack_cast, ← signed_fixedUnits_cast, ← Int.cast_sub, ← Int.cast_abs, ← Nat.cast_natAbs]
    exact_mod_cast hle
  have hv' : |(v : ℝ) * fixedUnit - x * 2 ^ 1074| ≤ 96 * fixedUnit := by
    rw [two_pow_1074_eq, ← mul_assoc, mul_comm x, ← sub_mul, abs_mul, abs_of_pos hw]
    exact mul_le_mul_of_nonneg_right hv hw.le
  rw [realOf, div_sub' hU.ne', abs_div, abs_of_pos hU, mul_comm]
  refine div_le_div_of_nonneg_right ?_ hU.le
  generalize x * 2 ^ 1074 = c at *
  have := abs_sub_le (fInt y : ℝ) (v * fixedUnit) c
  linarith

/-- Away from 0 the evaluation has the sign of the number. -/
theorem FixedClose.sign {v : Int} {x : ℝ} (hv : FixedClose v x) (hlo : (2 ^ 30)⁻¹ ≤ |x|) :
    x = (if decide (v < 0) = true then -1 else 1) * |x| := by
  rw [FixedClose, trigBits, abs_le] at hv
  obtain ⟨hv0, hv1⟩ := hv
  by_cases hneg : v < 0
  · have hv' : (v : ℝ) < 0 := by exact_mod_cast hneg
    rw [if_pos (decide_eq_true hneg)]
    rcases abs_cases x with ⟨habs, h0⟩ | ⟨habs, h0⟩
    · rw [habs] at hlo; norm_num1 at *; linarith
    · rw [habs]; ring
  · have hv' : (0 : ℝ) ≤ v := by exact_mod_cast not_lt.mp hneg
    rw [if_neg (by simpa using hneg)]
    rcases abs_cases x with ⟨habs, h0⟩ | ⟨habs, h0⟩
    · rw [habs, one_mul]
    · rw [habs] at hlo; norm_num1 at *; linarith

theorem realOf_fRound (s : Bool) {n : Nat} (h : roundMag n 1 ≠ fInfBits) :
    realOf (fRound s n 1) = (if s then -1 else 1) * ((magOf (roundIndex n 1) : ℝ) / 2 ^ 1074) := by
  rw [realOf_eq, fRound, fSign_fPack _ (roundMag_lt _ _), fMag_fPack _ (roundMag_lt _ _), roundMag_of_finite h]

theorem roundMag_fixedUnits_finite {v : Int} {x : ℝ} (hv : FixedClose v x) (hhi : |x| ≤ 1) :
    roundMag (fixedUnits v) 1 ≠ fInfBits := by
  have hclose := (abs_le.mp (fixedUnits_close hv)).2
  have hx : |x| * 2 ^ 1074 ≤ 2 ^ trigBits * fixedUnit := by
    rw [← two_pow_1074_eq]; exact mul_le_of_le_one_left (by positivity) hhi
  have hle : (fixedUnits v : ℝ) ≤ 2 ^ 2 * (2 ^ 256 * fixedUnit) := by
    rw [trigBits] at hx
    generalize |x| * 2 ^ 1074 = c at *
    linarith [fixedUnit_pos]
  rw [fixedUnit, ← pow_add, ← pow_add] at hle
  rw [Ne, roundMag_eq_fInfBits_iff _ one_pos, not_le, Nat.mul_one]
  have hunits : fixedUnits v ≤ 2 ^ (2 + (256 + 818)) := by exact_mod_cast hle
  have hpow : 2 ^ (2 + (256 + 818)) < 2 ^ 2044 := pow_lt_pow_right₀ one_lt_two (by norm_num)
  have hthreshold : 2 ^ 2044 ≤ (2 ^ 54 - 1) * 2 ^ 2044 := le_mul_of_one_le_left (Nat.zero_le _) (by norm_num)
  exact (hunits.trans_lt hpow).trans_le hthreshold

/-- The unit in the last place of a number not below 2^-30 is far above the error of the evaluation. -/
theorem fixedError_le_binade {x : ℝ} (hlo : (2 ^ 30)⁻¹ ≤ |x|) :
    4 * (96 * fixedUnit) ≤ (2 : ℝ) ^ binade ⌊|x| * 2 ^ 1074⌋₊ := by
  have hfloor : 2 ^ 1044 ≤ ⌊|x| * 2 ^ 1074⌋₊ := by
    refine Nat.le_floor ?_
    rw [Nat.cast_pow, Nat.cast_ofNat, show 1074 = 30 + 1044 from rfl, pow_add 2 30 1044, ← mul_assoc]
    exact le_mul_of_one_le_left (by positivity) ((inv_le_iff_one_le_mul₀ (by positivity)).mp hlo)
  calc 4 * (96 * fixedUnit) ≤ 2 ^ 174 * fixedUnit := by linarith [fixedUnit_pos]
    _ = 2 ^ (1044 - 52) := by rw [fixedUnit, ← pow_add]
    _ ≤ 2 ^ binade ⌊|x| * 2 ^ 1074⌋₊ := pow_le_pow_right₀ one_le_two (sub_le_binade hfloor)

/-- The rounded 256-bit evaluation of a number that is not too near 0. -/
theorem realOf_fixedToF64 {v : Int} {x : ℝ} (hv : FixedClose v x) (hlo : (2 ^ 30)⁻¹ ≤ |x|) (hhi : |x| ≤ 1) :
    IsFinite (fixedToF64 v) ∧ |realOf (fixedToF64 v) - x| ≤ ulpOf x := by
  have hU : (0 : ℝ) < 2 ^ 1074 := by positivity
  have hfin := roundMag_fixedUnits_finite hv hhi
  refine ⟨isFinite_fRound _ hfin, ?_⟩
  have hc : 0 ≤ |x| * 2 ^ 1074 := by positivity
  have hmag : |(magOf (roundIndex (fixedUnits v) 1) : ℝ) - |x| * 2 ^ 1074| ≤ 2 ^ binade ⌊|x| * 2 ^ 1074⌋₊ := by
    have hround := roundIndex_close (fixedUnits v) hc
    have hclose := fixedUnits_close hv
    have herr := fixedError_le_binade hlo
    generalize |x| * 2 ^ 1074 = c at *
    linarith
  have hsign := hv.sign hlo
  have habs : |if decide (v < 0) = true then (-1 : ℝ) else 1| = 1 := by split_ifs <;> norm_num
  calc |realOf (fixedToF64 v) - x|
      = |(if decide (v < 0) = true then -1 else 1) * ((magOf (roundIndex (fixedUnits v) 1) : ℝ) / 2 ^ 1074 - |x|)| := by
        rw [mul_sub, ← hsign, fixedToF64, realOf_fRound _ hfin]
    _ = |(magOf (roundIndex (fixedUnits v) 1) : ℝ) - |x| * 2 ^ 1074| / 2 ^ 1074 := by
        rw [abs_mul, habs, one_mul, div_sub' hU.ne', abs_div, abs_of_pos hU, mul_comm |x|]
    _ ≤ 2 ^ binade ⌊|x| * 2 ^ 1074⌋₊ / 2 ^ 1074 := div_le_div_of_nonneg_right hmag hU.le
    _ ≤ ulpOf x := two_pow_binade_le_ulpOf (Nat.floor_le hc)

theorem ulpOf_nonneg (v : ℝ) : 0 ≤ ulpOf v := by rw [ulpOf]; positivity

/-- One component of `TRIG`, whichever of the three sources gives it. -/
theorem trigComponent_close {exact given : Option F64} {v : Int} {x : ℝ}
    (hexact : ∀ y, exact = some y → IsFinite y ∧ realOf y = x) (hv : FixedClose v x)
    (hlo : exact = none → (2 ^ 30)⁻¹ ≤ |x|) (hhi : |x| ≤ 1) :
    IsFinite (trigComponent exact given v) ∧ |realOf (trigComponent exact given v) - x| ≤ ulpOf x := by
  match exact, given with
  | some y, _ =>
    obtain ⟨hfin, hval⟩ := hexact y rfl
    rw [trigComponent_some, hval, sub_self, abs_zero]
    exact ⟨hfin, ulpOf_nonneg x⟩
  | none, some y =>
    rw [trigComponent]
    split_ifs with hy
    · exact realOf_withinUlp hv hy
    · exact realOf_fixedToF64 hv (hlo rfl) hhi
  | none, none => exact realOf_fixedToF64 hv (hlo rfl) hhi

theorem isFinite_exactCos {q : Nat} {x : F64} (h : exactCos q = some x) : IsFinite x := by
  unfold exactCos at h
  split at h <;> cases h <;> exact ⟨by decide, by decide⟩

theorem isFinite_exactSin {p q : Nat} {x : F64} (h : exactSin p q = some x) : IsFinite x := by
  unfold exactSin at h
  split at h <;> cases h
  · exact ⟨by decide, by decide⟩
  · exact ⟨by decide, by decide⟩
  · split_ifs <;> exact ⟨by decide, by decide⟩
  · split_ifs <;> exact ⟨by decide, by decide⟩

theorem exactCos_none {q : Nat} (h : exactCos q = none) : q ≠ 1 ∧ q ≠ 2 ∧ q ≠ 4 := by
  refine ⟨?_, ?_, ?_⟩ <;> rintro rfl <;> cases h

theorem exactSin_none {p q : Nat} (h : exactSin p q = none) : q ≠ 1 ∧ q ≠ 2 ∧ q ≠ 4 := by
  refine ⟨?_, ?_, ?_⟩ <;> rintro rfl <;> cases h

/-- Settles O48: an exact component has no error, an admitted entry is checked against the fixed-point evaluation, and
the rounded evaluation is within half a unit and a small part of another. -/
theorem trigIsWithinOneUlp : Obligations.TrigIsWithinOneUlp := by
  intro c p q h hq
  obtain ⟨hlt, hcop, -⟩ := reduced_fraction h
  have hq' : q / Nat.gcd p q ≤ 2 ^ 29 := (Nat.div_le_self _ _).trans hq
  rw [turn_reduced h, trig, trigReduced]
  generalize p / Nat.gcd p q = a at *
  generalize q / Nat.gcd p q = b at *
  obtain ⟨hcos, hsin⟩ := trigFixed_close hlt
  have hbound : ((2 : ℝ) ^ 30)⁻¹ ≤ 1 / (2 * b) := by
    have hb : (b : ℝ) ≤ 2 ^ 29 := by exact_mod_cast hq'
    have hb0 : (0 : ℝ) < b := by exact_mod_cast Nat.zero_lt_of_lt hlt
    rw [← one_div]
    exact one_div_le_one_div_of_le (by positivity) (by linarith)
  exact ⟨trigComponent_close (fun y hy => ⟨isFinite_exactCos hy, realOf_exactCos hlt hcop hy⟩) hcos
      (fun hnone => hbound.trans (turn_component_ge hlt hcop (exactCos_none hnone)).1) (Real.abs_cos_le_one _),
    trigComponent_close (fun y hy => ⟨isFinite_exactSin hy, realOf_exactSin hlt hcop hy⟩) hsin
      (fun hnone => hbound.trans (turn_component_ge hlt hcop (exactSin_none hnone)).2) (Real.abs_sin_le_one _)⟩

end Sys2Proof.Machine
end

section
/-! Register accesses: what a host read and a host write of each register do (10_state.md R23 to R38). -/

namespace Sys2Proof.Machine

/-- The registers a host write stores whole while BUSY = 0 (10_state.md R35, R36). -/
abbrev operandRegs : List Csr := [.len, .outlen, .srcRe, .srcIm, .dstRe, .dstIm]

/-- The registers a host write never changes (10_state.md R23). -/
abbrev readOnlyRegs : List Csr := [.id, .cfg, .dmemw, .outcnt]

theorem csr_classes (r : Csr) : r ∈ readOnlyRegs ∨ r = .ctrl ∨ r = .status ∨ r = .cmd ∨ r ∈ operandRegs := by
  cases r <;> decide

/-! ### The words of `STATUS` and `CTRL` -/

/-- The five flags of `STATUS` (10_state.md R28). -/
theorem statusWord_flags (t : Status) :
    (statusWord t).getLsbD 0 = t.busy ∧ (statusWord t).getLsbD 1 = t.done ∧ (statusWord t).getLsbD 2 = t.err ∧
      (statusWord t).getLsbD 3 = t.accv ∧ (statusWord t).getLsbD 4 = t.wign := by
  simp only [statusWord, BitVec.getLsbD_append, BitVec.getLsbD_ofBool]
  exact ⟨rfl, rfl, rfl, rfl, rfl⟩

/-- Above the flags `STATUS` holds ECODE in bits 11:8 and zeros (10_state.md R28). -/
theorem statusWord_above_flags (t : Status) (i : Nat) :
    (statusWord t).getLsbD (i + 5) = (decide (3 ≤ i) && t.ecode.getLsbD (i - 3)) := by
  simp only [statusWord, BitVec.getLsbD_append, BitVec.getLsbD_zero, BitVec.getLsbD_ofBool]
  match i with
  | 0 | 1 | 2 => rfl
  | i + 3 => simpa using BitVec.lt_of_getLsbD

/-- A write to `STATUS` clears the W1C bits, those of the mask 0x1E, that it writes as 1 (10_state.md R28). -/
theorem statusWord_statusClear (t : Status) (v : Word) :
    statusWord (statusClear t v) = statusWord t &&& ~~~(v &&& 0x1E#32) := by
  refine BitVec.eq_of_getLsbD_eq fun i hi => ?_
  simp only [BitVec.getLsbD_and, BitVec.getLsbD_not, hi, decide_true, Bool.true_and]
  match i with
  | 0 | 1 | 2 | 3 | 4 => simp [statusWord_flags, statusClear, -BitVec.getLsbD_eq_getElem]
  | i + 5 =>
    have hmask : (0x1E#32).getLsbD (i + 5) = false := by
      have hlt : 0x1E < 2 ^ (i + 5) := by have := Nat.two_pow_pos i; rw [Nat.pow_add]; omega
      simp [BitVec.getLsbD_ofNat, Nat.testBit_lt_two_pow hlt]
    simp [statusWord_above_flags, statusClear, hmask]

theorem ctrlWord_eq (ie : Bool) : ctrlWord ie = if ie = true then 1#32 else 0#32 := by cases ie <;> rfl

/-- `CTRL` keeps bit 0 of what is written (10_state.md R27). -/
theorem ctrlWord_getLsbD_zero (v : Word) : ctrlWord (v.getLsbD 0) = v &&& 1#32 := by
  rw [BitVec.and_one_eq_setWidth_ofBool_getLsbD]
  cases v.getLsbD 0 <;> rfl

/-! ### Reads -/

@[simp] theorem csrRead_respond (s : State) (a : Response) (r : Csr) : csrRead (respond s a) r = csrRead s r := by
  cases r <;> rfl

@[simp] theorem csrRead_dropEvent (s : State) (r : Csr) : csrRead (dropEvent s) r = csrRead s r := by cases r <;> rfl

/-- Only the flags of `STATUS` are seen to change when an access violation is recorded. -/
theorem csrRead_setAccv (s : State) {r : Csr} (h : r ≠ .status) : csrRead (setAccv s) r = csrRead s r := by
  cases r <;> simp_all [csrRead]

/-- An ignored write is seen only in the flags of `STATUS`. -/
theorem csrRead_setWign (s : State) {r : Csr} (h : r ≠ .status) : csrRead (setWign s) r = csrRead s r := by
  cases r <;> simp_all [csrRead]

theorem HostOwnedUnchanged.csrRead_eq {s t : State} (h : HostOwnedUnchanged s t) {r : Csr} (hs : r ≠ .status)
    (ho : r ≠ .outcnt) : csrRead t r = csrRead s r := by
  cases r <;> simp_all [csrRead, h.cfg, h.ie, h.cmd, h.len, h.outlen, h.srcRe, h.srcIm, h.dstRe, h.dstIm]

/-! ### Writes -/

section Writes
variable {s : State} {r : Csr}

theorem csrWrite_readOnly (hr : r ∈ readOnlyRegs) (v : Word) : csrWrite s r v = s := by
  revert r; simp [csrWrite]

theorem csrWrite_cmd_idle (hb : s.status.busy = false) (v : Word) : csrWrite s .cmd v = acceptCommand s v := by
  simp [csrWrite, unlessBusy, hb]

/-- R33: the write is ignored. -/
theorem csrWrite_busy (hb : s.status.busy = true) (hr : r ∈ .cmd :: operandRegs) (v : Word) :
    csrWrite s r v = setWign s := by
  revert r; simp [csrWrite, unlessBusy, hb]

/-- `t` is `s` with `v` stored in the operand register `r`. -/
structure OperandStored (s : State) (r : Csr) (v : Word) (t : State) : Prop where
  value : csrRead t r = v
  others : ∀ r', r' ≠ r → csrRead t r' = csrRead s r'
  cfg : t.cfg = s.cfg
  ie : t.ie = s.ie
  status : t.status = s.status
  irq : t.irq = s.irq
  dmem : t.dmem = s.dmem
  epoch : t.epoch = s.epoch
  agenda : t.agenda = s.agenda

theorem operandStored_csrWrite (hb : s.status.busy = false) (hr : r ∈ operandRegs) (v : Word) :
    OperandStored s r v (csrWrite s r v) := by
  have others : ∀ r', r' ≠ r → csrRead (csrWrite s r v) r' = csrRead s r' := by
    intro r' hne
    cases r' <;> revert r <;> simp [csrWrite, unlessBusy, hb, csrRead]
  have value : csrRead (csrWrite s r v) r = v := by revert r; simp [csrWrite, unlessBusy, hb, csrRead]
  constructor
  case value => exact value
  case others => exact others
  all_goals revert r; simp [csrWrite, unlessBusy, hb]

/-- Everything a host write of `v` to the register `r` can do. -/
inductive CsrWriteCase (s : State) (r : Csr) (v : Word) (t : State) : Prop
  | readOnly (hr : r ∈ readOnlyRegs) (ht : t = s)
  | control (hr : r = .ctrl) (ht : t = updateIrq { s with ie := v.getLsbD 0 })
  | acknowledgement (hr : r = .status) (ht : t = acknowledge s v)
  | acceptance (hr : r = .cmd) (hb : s.status.busy = false) (ht : t = acceptCommand s v)
  | operand (hr : r ∈ operandRegs) (hb : s.status.busy = false) (ht : OperandStored s r v t)
  | ignored (hr : r ∈ .cmd :: operandRegs) (hb : s.status.busy = true) (ht : t = setWign s)

theorem csrWrite_cases (s : State) (r : Csr) (v : Word) : CsrWriteCase s r v (csrWrite s r v) := by
  rcases csr_classes r with hr | rfl | rfl | rfl | hr
  · exact .readOnly hr (csrWrite_readOnly hr v)
  · exact .control rfl rfl
  · exact .acknowledgement rfl rfl
  · cases hb : s.status.busy
    · exact .acceptance rfl hb (csrWrite_cmd_idle hb v)
    · exact .ignored (by simp) hb (csrWrite_busy hb (by simp) v)
  · cases hb : s.status.busy
    · exact .operand hr hb (operandStored_csrWrite hb hr v)
    · exact .ignored (List.mem_cons_of_mem _ hr) hb (csrWrite_busy hb (List.mem_cons_of_mem _ hr) v)

/-- A write changes no register but its own and the flags of `STATUS`. -/
theorem csrRead_csrWrite_ne {r' : Csr} (hne : r' ≠ r) (hs : r' ≠ .status) (v : Word) :
    csrRead (csrWrite s r v) r' = csrRead s r' := by
  rcases csrWrite_cases s r v with ⟨_, h⟩ | ⟨rfl, h⟩ | ⟨rfl, h⟩ | ⟨rfl, _, h⟩ | ⟨_, _, h⟩ | ⟨_, _, h⟩
  case readOnly => rw [h]
  case operand => exact h.others r' hne
  all_goals rw [h]; cases r' <;> simp_all [csrRead]

/-- What a write stores in `CMD` or an operand register, where it changes it. -/
theorem csrRead_csrWrite_stored (hr : r ∈ .cmd :: operandRegs) {v : Word}
    (hne : csrRead (csrWrite s r v) r ≠ csrRead s r) : s.status.busy = false ∧ csrRead (csrWrite s r v) r = v := by
  cases hb : s.status.busy
  · refine ⟨rfl, ?_⟩
    rcases List.mem_cons.mp hr with rfl | hr
    · rw [csrWrite_cmd_idle hb]; rfl
    · exact (operandStored_csrWrite hb hr v).value
  · rw [csrWrite_busy hb hr] at hne
    exact absurd (csrRead_setWign s (by rintro rfl; simp at hr)) hne

theorem csrWrite_frame (s : State) (r : Csr) (v : Word) :
    (csrWrite s r v).cfg = s.cfg ∧ (csrWrite s r v).dmem = s.dmem ∧ (csrWrite s r v).epoch = s.epoch := by
  rcases csrWrite_cases s r v with ⟨_, h⟩ | ⟨_, h⟩ | ⟨_, h⟩ | ⟨_, _, h⟩ | ⟨_, _, h⟩ | ⟨_, _, h⟩
  case operand => exact ⟨h.cfg, h.dmem, h.epoch⟩
  all_goals rw [h]; exact ⟨rfl, rfl, rfl⟩

end Writes

/-! ### The step on a register access -/

theorem step_csrWrite {s : State} {r : Csr} {v : Word} {rest : List Event} (h : NextIsCsrWrite s r v rest) :
    step s = .next (respond (csrWrite { s with agenda := rest } r v) .written) := by
  have hv : (v.setWidth 64).setWidth 32 = v := by simp
  simp only [step, show s.agenda = _ from h, hostAccess]
  rw [← hv, ← busAccess_write]; simp

theorem step_csrRead {s : State} {r : Csr} {rest : List Event}
    (h : s.agenda = .host (.read (s.cfg.base + r.offset) 4) :: rest) :
    step s = .next { s with agenda := rest, resp := .read32 (csrRead s r) } := by
  simp only [step, h, hostAccess]
  exact congrArg _ (busAccess_read { s with agenda := rest } r)

/-! ### The statements about single registers -/

/-- Settles O9, bit by bit. -/
theorem statusWordLayout : Obligations.StatusWordLayout := by
  intro t
  obtain ⟨hbusy, hdone, herr, haccv, hwign⟩ := statusWord_flags t
  have hbits : ∀ i, (statusWord t).getLsbD (5 + i) = (decide (3 ≤ i) && t.ecode.getLsbD (i - 3)) := fun i => by
    rw [Nat.add_comm, statusWord_above_flags]
  refine ⟨hbusy, hdone, herr, haccv, hwign, ?_, ?_, ?_⟩ <;> refine BitVec.eq_of_getLsbD_eq fun i hi => ?_
  · simp [show 8 + i = 5 + (3 + i) by omega, hbits, hi]
  · simp [hbits, hi]
  · have htop : t.ecode.getLsbD (7 + i - 3) = false := BitVec.getLsbD_of_ge _ _ (by omega)
    simp [show 12 + i = 5 + (7 + i) by omega, hbits, htop]

/-- Settles O10: the write is the acknowledgement. -/
theorem statusWriteClearsOnes : Obligations.StatusWriteClearsOnes := by
  intro s v rest h
  exact ⟨_, step_csrWrite h, statusWord_statusClear s.status v, rfl, rfl⟩

/-- Settles O11: the word of `CTRL` is its one bit, and the write takes that bit whatever BUSY is. -/
theorem ctrlWriteSetsInterruptEnable : Obligations.CtrlWriteSetsInterruptEnable := by
  refine ⟨fun c => ctrlWord_eq false, fun s => ctrlWord_eq s.ie, fun s v rest h => ?_⟩
  exact ⟨_, step_csrWrite h, ctrlWord_getLsbD_zero v, rfl⟩

/-- The layout of `CFG` (10_state.md R25). -/
theorem cfgWord_layout {L : Nat} (h : L ≤ 28) :
    let w := 0x00000100#32 ||| BitVec.ofNat 32 L
    w.extractLsb' 0 5 = BitVec.ofNat 5 L ∧ w.extractLsb' 5 3 = 0#3 ∧ w.extractLsb' 8 8 = 0x01#8 ∧
      w.extractLsb' 16 16 = 0#16 := by
  revert L; decide

theorem csrAt_reserved {off : Nat} (h : 0x34 ≤ off) : csrAt off = none := by
  cases hc : csrAt off with
  | none => rfl
  | some r =>
    have hlt : r.offset < 0x34 := by cases r <;> decide
    have := csrAt_eq_some hc
    omega

/-- An access to a reserved offset reads 0 and does nothing (10_state.md R38). -/
theorem busAccess_reserved (s : State) {off : Nat} (hlo : 0x34 ≤ off) (hhi : off ≤ 0xFC) (h4 : off % 4 = 0)
    (data : Option (BitVec 64)) :
    busAccess s (s.cfg.base + off) 4 data = respond s (if data = none then .read32 0#32 else .written) := by
  have hlt : off < 256 := by omega
  cases data <;> simp [busAccess, csrAccess, csrAt_reserved hlo, hlt, h4]

/-- Settles O14: the layout of `CFG` is checked for every L, and the accesses are `busAccess_read`, a write of a read-only
register and `busAccess_reserved`. -/
theorem registerReadsAndIgnoredWrites : Obligations.RegisterReadsAndIgnoredWrites := by
  refine ⟨fun s => ⟨rfl, ?_⟩, fun s r rest h => step_csrRead h, fun s r v rest hr h => ?_,
    fun s off rest hlo hhi h4 => ⟨fun h => ?_, fun v h => ?_⟩⟩
  · rintro ⟨-, hL, -, -, hD, -⟩
    obtain ⟨hlen, hzero, hversion, htop⟩ := cfgWord_layout hL
    refine ⟨hlen, hzero, hversion, htop, ?_⟩
    simp only [csrRead, BitVec.toNat_ofNat]
    omega
  · rw [step_csrWrite h, csrWrite_readOnly hr]; rfl
  · simp only [step, h, hostAccess]
    exact congrArg _ (busAccess_reserved { s with agenda := rest } hlo hhi h4 none)
  · simp only [step, h, hostAccess]
    exact congrArg _ (busAccess_reserved { s with agenda := rest } hlo hhi h4 (some v))

end Sys2Proof.Machine
end

section
/-! Every step, field by field: what it does to `STATUS`, to the registers and to DMEM, and that it keeps the invariant. -/

namespace Sys2Proof.Machine

/-! ### What a step does to `STATUS` -/

/-- Everything one step can do to `STATUS` (10_state.md R28). -/
inductive StatusCase (s t : State) : Prop
  | unchanged (h : t.status = s.status)
  | failed (hn : EngineIsNext s) (hb : s.status.busy = true) (e : ErrCode) (h : t.status = statusFailed s.status e)
  | done (hn : EngineIsNext s) (hb : s.status.busy = true) (h : t.status = statusDone s.status)
  | reset (rest : List Event) (ha : s.agenda = .rst :: rest) (h : t.status = Status.reset)
  | accepted (v : BitVec 64) (rest : List Event)
      (ha : s.agenda = .host (.write (s.cfg.base + Csr.cmd.offset) 4 v) :: rest) (hb : s.status.busy = false)
      (h : t.status = statusAccepted s.status)
  | cleared (v : BitVec 64) (rest : List Event)
      (ha : s.agenda = .host (.write (s.cfg.base + Csr.status.offset) 4 v) :: rest)
      (h : t.status = statusClear s.status (v.setWidth 32))
  | ignored (r : Csr) (v : BitVec 64) (rest : List Event)
      (ha : s.agenda = .host (.write (s.cfg.base + r.offset) 4 v) :: rest) (hr : r ∈ .cmd :: operandRegs)
      (hb : s.status.busy = true) (h : t.status = { s.status with wign := true })
  | violated (a : Nat) (v : BitVec 64) (rest : List Event)
      (ha : s.agenda = .host (.read (s.cfg.dbase + a) 8) :: rest ∨ s.agenda = .host (.write (s.cfg.dbase + a) 8 v) :: rest)
      (hle : a + 8 ≤ s.cfg.dmemBytes) (hb : s.status.busy = true) (h : t.status = { s.status with accv := true })

theorem status_cases {s t : State} (h : step s = .next t) : StatusCase s t := by
  cases step_cases h with
  | idle _ _ ht => exact .unchanged (by rw [ht]; rfl)
  | fails hn hb e ht => exact .failed hn hb e (by rw [ht]; rfl)
  | succeeds hn hb i _ _ ht => exact .done hn hb (by rw [ht, successCompletion_status]; rfl)
  | reset rest ha ht => exact .reset rest ha (by rw [ht]; rfl)
  | answer _ _ _ _ ht => exact .unchanged (by rw [ht]; rfl)
  | violation a v rest _ hb _ hle ha ht => exact .violated a v rest ha hle hb (by rw [ht]; rfl)
  | store _ _ _ _ _ _ _ ht => exact .unchanged (by rw [ht]; rfl)
  | register r v rest ha ht =>
    have hst : t.status = (csrWrite (dropEvent s) r (v.setWidth 32)).status := by rw [ht, respond_status]
    cases csrWrite_cases (dropEvent s) r (v.setWidth 32) with
    | readOnly _ hw => exact .unchanged (by rw [hst, hw]; rfl)
    | control _ hw => exact .unchanged (by rw [hst, hw]; rfl)
    | acknowledgement hr hw => exact .cleared v rest (hr ▸ ha) (by rw [hst, hw]; rfl)
    | acceptance hr hb hw => exact .accepted v rest (hr ▸ ha) hb (by rw [hst, hw]; rfl)
    | operand _ _ hw => exact .unchanged (by rw [hst, hw.status]; rfl)
    | ignored hr hb hw => exact .ignored r v rest ha hr hb (by rw [hst, hw]; rfl)

/-- Settles O13: a write to `CMD` or an operand register while BUSY = 1 is `setWign`, and of all a step can do to
`STATUS` only a write of 1 to its bit and reset clear WIGN. -/
theorem writesWhileBusyOnlySetWign : Obligations.WritesWhileBusyOnlySetWign := by
  refine ⟨fun s r v rest hb hr h => ?_, fun s t h hs ht => ?_⟩
  · rw [step_csrWrite h, csrWrite_busy (s := { s with agenda := rest }) hb hr]; rfl
  · cases status_cases h with
    | reset rest ha _ => exact .inr ⟨rest, ha⟩
    | cleared v rest ha hst =>
      refine .inl ⟨v, rest, ha, ?_⟩
      simpa [hst, statusClear, hs] using ht
    | unchanged hst | failed _ _ _ hst | done _ _ hst | accepted _ _ _ _ hst | ignored _ _ _ _ _ _ hst
    | violated _ _ _ _ _ _ hst =>
      simp [hst, hs, statusFailed, statusDone, statusAccepted] at ht

/-! ### The events that change a field of `STATUS` -/

/-- Settles O26: each case of `status_cases` changes the fields its row of R28 names. The invariant says that DONE, ERR
and ECODE are 0 while BUSY is 1, so a completion finds them so. -/
theorem flagsChangeOnlyAtTheirEvents : Obligations.FlagsChangeOnlyAtTheirEvents := by
  intro s t hInv h writes acceptance completion reset
  cases status_cases h with
  | unchanged hst => simp +contextual [hst]
  | failed hn hb e hst =>
    obtain ⟨hdone, herr, hcode⟩ := hInv.busyClear hb
    have hcompletion : completion := ⟨hb, by simp [hst, statusFailed], hn⟩
    have hne : e.code ≠ 0#4 := by cases e <;> decide
    simp +contextual [hst, statusFailed, hb, hdone, herr, hcompletion, hne]
  | done hn hb hst =>
    obtain ⟨hdone, herr, hcode⟩ := hInv.busyClear hb
    have hcompletion : completion := ⟨hb, by simp [hst, statusDone], hn⟩
    simp +contextual [hst, statusDone, hb, hdone, herr, hcompletion]
  | reset rest ha hst =>
    have hreset : reset := ⟨rest, ha⟩
    simp [hst, Status.reset, hreset]
  | accepted v rest ha hb hst =>
    have hacceptance : acceptance := ⟨hb, by simp [hst, statusAccepted], v, rest, ha⟩
    simp +contextual [hst, statusAccepted, hb, hacceptance]
  | cleared v rest ha hst =>
    have hwrites : writes .status v := ⟨rest, ha⟩
    have hset : ∀ i, v.getLsbD i = true → ∃ v, writes .status v ∧ v.getLsbD i = true := fun i hi => ⟨v, ⟨rest, ha⟩, hi⟩
    simpa +contextual [hst, statusClear] using
      ⟨fun _ hv => .inl (hset 1 hv), fun _ hv => .inl (hset 2 hv), fun _ hv => .inl (hset 3 hv),
        fun _ hv => .inl (hset 4 hv)⟩
  | ignored r v rest ha hr hb hst =>
    have hevent : ∃ r v, r ∈ Csr.cmd :: operandRegs ∧ writes r v := ⟨r, v, hr, rest, ha⟩
    simpa +contextual [hst, hb] using fun _ : s.status.wign = false => hevent
  | violated a v rest ha hle hb hst =>
    simpa +contextual [hst, hb] using fun _ : s.status.accv = false => ⟨a, hle, v, rest, ha⟩

/-! ### The invariant -/

/-- The part of the invariant that speaks of `STATUS` alone (10_state.md R30, R31; 60_exceptions.md R118, R120, R123). -/
structure StatusInv (t : Status) : Prop where
  notDoneAndErr : ¬(t.done = true ∧ t.err = true)
  busyClear : t.busy = true → t.done = false ∧ t.err = false ∧ t.ecode = 0#4
  doneCode : t.done = true → t.ecode = 0#4
  errCode : t.err = true → t.ecode ≠ 0#4
  codeRange : t.ecode.toNat ≤ 6

/-- The part of the invariant that speaks of DMEM: canonical, and inside the first `size` bytes. -/
def MemoryInv (size : Nat) (m : Memory) : Prop := Memory.wf m ∧ ∀ x ∈ m, x.1 < size

theorem inv_iff (s : State) :
    Inv s ↔ StatusInv s.status ∧ MemoryInv s.cfg.dmemBytes s.dmem ∧ s.irq = irqLevel s.ie s.status :=
  ⟨fun h => ⟨⟨h.notDoneAndErr, h.busyClear, h.doneCode, h.errCode, h.codeRange⟩, ⟨h.memWf, h.memInside⟩, h.irqLevel⟩,
    fun ⟨hs, hm, hi⟩ => ⟨hm.1, hm.2, hi, hs.notDoneAndErr, hs.busyClear, hs.doneCode, hs.errCode, hs.codeRange⟩⟩

/-- Acceptance clears DONE, ERR and ECODE, whatever they were (60_exceptions.md R120). -/
theorem statusInv_statusAccepted (t : Status) : StatusInv (statusAccepted t) := by
  constructor <;> simp [statusAccepted]

/-- An error completion sets its code, which is one of 1 to 6 (60_exceptions.md R122). -/
theorem statusInv_statusFailed (t : Status) (e : ErrCode) : StatusInv (statusFailed t e) := by
  constructor <;> cases e <;> simp [statusFailed, ErrCode.code]

/-- A success finds ERR and ECODE at 0, since BUSY was 1 (60_exceptions.md R123). -/
theorem StatusInv.statusDone {t : Status} (h : StatusInv t) (hb : t.busy = true) : StatusInv (statusDone t) := by
  obtain ⟨hdone, herr, hcode⟩ := h.busyClear hb
  constructor <;> simp [Machine.statusDone, herr, hcode]

theorem StatusInv.statusClear {t : Status} (h : StatusInv t) (v : Word) : StatusInv (statusClear t v) where
  notDoneAndErr hc := h.notDoneAndErr ⟨(Bool.and_eq_true_iff.mp hc.1).1, (Bool.and_eq_true_iff.mp hc.2).1⟩
  busyClear hb := by
    obtain ⟨hdone, herr, hcode⟩ := h.busyClear hb
    simp [Machine.statusClear, hdone, herr, hcode]
  doneCode hd := h.doneCode (Bool.and_eq_true_iff.mp hd).1
  errCode he := h.errCode (Bool.and_eq_true_iff.mp he).1
  codeRange := h.codeRange

theorem step_keeps_statusInv {s t : State} (h : step s = .next t) (hs : StatusInv s.status) : StatusInv t.status := by
  cases status_cases h with
  | unchanged hst => rwa [hst]
  | failed _ _ e hst => exact hst ▸ statusInv_statusFailed _ e
  | done _ hb hst => exact hst ▸ hs.statusDone hb
  | reset _ _ hst => rw [hst]; constructor <;> decide
  | accepted _ _ _ _ hst => exact hst ▸ statusInv_statusAccepted _
  | cleared v _ _ hst => exact hst ▸ hs.statusClear _
  | ignored _ _ _ _ _ _ hst | violated _ _ _ _ _ _ hst => rw [hst]; exact { hs with }

/-! ### The interrupt output -/

theorem csrWrite_keeps_irqLevel {s : State} (hi : s.irq = irqLevel s.ie s.status) (r : Csr) (v : Word) :
    (csrWrite s r v).irq = irqLevel (csrWrite s r v).ie (csrWrite s r v).status := by
  cases csrWrite_cases s r v with
  | operand _ _ h => rw [h.irq, h.ie, h.status, hi]
  | readOnly _ h | ignored _ _ h => rw [h]; exact hi
  | control _ h | acknowledgement _ h | acceptance _ _ h => rw [h]; rfl

/-- `irq` follows CTRL.IE, DONE and ERR in every step (10_state.md R43). -/
theorem step_keeps_irqLevel {s t : State} (h : step s = .next t) (hi : s.irq = irqLevel s.ie s.status) :
    t.irq = irqLevel t.ie t.status := by
  cases step_cases h with
  | idle _ _ ht | answer _ _ _ _ ht | violation _ _ _ _ _ _ _ _ ht | store _ _ _ _ _ _ _ ht => rw [ht]; exact hi
  | fails _ _ _ ht | reset _ _ ht => rw [ht]; rfl
  | succeeds _ _ _ _ _ ht => rw [ht]; simp
  | register r v _ _ ht => rw [ht]; exact csrWrite_keeps_irqLevel (s := dropEvent s) hi r _

/-! ### DMEM stays canonical and inside its size -/

theorem MemoryInv.memWrite {size : Nat} {m : Memory} (h : MemoryInv size m) {a : Nat} (ha : a + 8 ≤ size) (w : F64) :
    MemoryInv size (memWrite m a w) :=
  ⟨memWrite_wf h.1 a w, fun x hx => (mem_memWrite hx).elim (h.2 x) fun hr => by omega⟩

/-- The buffers an output goes to, as `Checks` declares them. -/
def Output.shape : Output → OutShape
  | .none => .none
  | .complex y => .complex y.length
  | .real y => .real y.length

/-- A command whose checks pass writes exactly the buffers it declares (30_encoding.md R67). -/
theorem resultOf_shape {s : State} {i : Instr} (hc : failedCheck s (checksOf s i) = none) (d : Draw) :
    (resultOf s d i).shape = (checksOf s i).output := by
  obtain ⟨-, hodd, -⟩ := (failedCheck_eq_none_iff s _).mp hc
  cases i with
  | nop => rfl
  | ifftrealo q =>
    have heven : outlenOf s % 2 = 0 := by simpa [checksOf] using hodd
    simp [resultOf, checksOf, Output.shape, length_inverseOpt, heven]
  | ifftreal q =>
    by_cases heven : outlenOf s % 2 = 0 <;> simp [resultOf, checksOf, Output.shape, length_inverseOpt, heven]
  | _ => simp [resultOf, checksOf, Output.shape]

theorem BufferOk.inside {s : State} {base : Word} {count a : Nat} (h : BufferOk s base count)
    (ha : InBuffer a base count) : a < s.cfg.dmemBytes := by
  rw [BufferOk] at h
  rw [InBuffer] at ha
  omega

/-- An output to legal buffers stays inside DMEM (20_memory.md R49). -/
theorem MemoryInv.writeOutput {s : State} (h : MemoryInv s.cfg.dmemBytes s.dmem) {y : Output}
    (hy : outputLegal s y.shape = true) : MemoryInv s.cfg.dmemBytes (writeOutput s y).dmem := by
  cases y with
  | none => exact h
  | complex y =>
    obtain ⟨hre, him⟩ := Bool.and_eq_true_iff.mp hy
    refine ⟨memWriteC_wf h.1, fun x hx => ?_⟩
    rcases mem_memWriteC hx with hx | hx | hx
    · exact h.2 x hx
    · exact ((bufferLegal_iff s _ _).mp hre).inside hx
    · exact ((bufferLegal_iff s _ _).mp him).inside hx
  | real y =>
    refine ⟨memWriteR_wf h.1, fun x hx => ?_⟩
    rcases mem_memWriteR hx with hx | hx
    · exact h.2 x hx
    · exact ((bufferLegal_iff s _ _).mp hy).inside hx

theorem step_keeps_memoryInv {s t : State} (h : step s = .next t) (hm : MemoryInv s.cfg.dmemBytes s.dmem) :
    MemoryInv t.cfg.dmemBytes t.dmem := by
  cases step_cases h with
  | idle _ _ ht | fails _ _ _ ht | answer _ _ _ _ ht | violation _ _ _ _ _ _ _ _ ht => rw [ht]; exact hm
  | succeeds _ _ i _ hc ht =>
    obtain ⟨-, -, -, -, hlegal, -⟩ := (failedCheck_eq_none_iff _ _).mp hc
    rw [← resultOf_shape hc [s.nanCtr]] at hlegal
    rw [ht, successCompletion_dmem, successCompletion_cfg]
    exact MemoryInv.writeOutput (s := dropEvent s) hm hlegal
  | reset _ _ ht => rw [ht]; exact ⟨List.Pairwise.nil, by simp⟩
  | register r v _ _ ht =>
    obtain ⟨hcfg, hdmem, -⟩ := csrWrite_frame (dropEvent s) r (v.setWidth 32)
    rw [ht, respond_cfg, respond_dmem, hcfg, hdmem]
    exact hm
  | store a v _ _ _ hle _ ht => rw [ht]; exact hm.memWrite hle v

/-- Settles O20: each of the three parts of the invariant is kept by every step. -/
theorem stepKeepsInvariant : Obligations.StepKeepsInvariant := by
  intro s t hs h
  obtain ⟨hstatus, hmemory, hirq⟩ := (inv_iff s).mp hs
  exact (inv_iff t).mpr ⟨step_keeps_statusInv h hstatus, step_keeps_memoryInv h hmemory, step_keeps_irqLevel h hirq⟩

/-! ### The events that change a register or DMEM -/

theorem step_cfg {s t : State} (h : step s = .next t) : t.cfg = s.cfg := by
  cases step_cases h with
  | idle _ _ ht | fails _ _ _ ht | reset _ _ ht | answer _ _ _ _ ht | violation _ _ _ _ _ _ _ _ ht
  | store _ _ _ _ _ _ _ ht => rw [ht]; rfl
  | succeeds _ _ _ _ _ ht => rw [ht, successCompletion_cfg]; rfl
  | register r v _ _ ht => rw [ht, respond_cfg, (csrWrite_frame _ r _).1]; rfl

/-- A register other than `STATUS` changes by reset, `OUTCNT` at completion, or as a host write to it says. -/
theorem csrRead_step_cases {s t : State} (h : step s = .next t) {r : Csr} (hs : r ≠ .status)
    (hne : csrRead t r ≠ csrRead s r) :
    (∃ rest, s.agenda = .rst :: rest) ∨ (r = .outcnt ∧ s.status.busy = true ∧ EngineIsNext s) ∨
      ∃ v rest, s.agenda = .host (.write (s.cfg.base + r.offset) 4 v) :: rest ∧
        csrRead t r = csrRead (csrWrite (dropEvent s) r (v.setWidth 32)) r := by
  have atCompletion (hb : s.status.busy = true) (hn : EngineIsNext s) (ht : HostOwnedUnchanged (dropEvent s) t) :
      r = .outcnt ∧ s.status.busy = true ∧ EngineIsNext s := by
    by_contra hc
    exact hne ((ht.csrRead_eq hs fun hr => hc ⟨hr, hb, hn⟩).trans (csrRead_dropEvent s r))
  cases step_cases h with
  | idle _ _ ht => exact absurd (by rw [ht, csrRead_dropEvent]) hne
  | fails hn hb e ht => exact .inr (.inl (atCompletion hb hn (ht ▸ hostOwned_errorCompletion _ e)))
  | succeeds hn hb i _ _ ht => exact .inr (.inl (atCompletion hb hn (ht ▸ hostOwned_successCompletion _ _)))
  | reset rest ha _ => exact .inl ⟨rest, ha⟩
  | answer _ _ _ _ ht => exact absurd (by rw [ht, csrRead_respond, csrRead_dropEvent]) hne
  | violation _ _ _ _ _ _ _ _ ht =>
    exact absurd (by rw [ht, csrRead_respond, csrRead_setAccv _ hs, csrRead_dropEvent]) hne
  | store _ _ _ _ _ _ _ ht => exact absurd (by rw [ht]; cases r <;> rfl) hne
  | register r' v rest ha ht =>
    rw [ht, csrRead_respond] at hne ⊢
    by_cases hr : r = r'
    · subst hr; exact .inr (.inr ⟨v, rest, ha, rfl⟩)
    · exact absurd (by rw [csrRead_csrWrite_ne hr hs, csrRead_dropEvent]) hne

/-- A byte of DMEM changes by reset, at completion, or by the host's write of its word while BUSY = 0. -/
theorem readByte_step_cases {s t : State} (h : step s = .next t) {a : Nat} (hne : readByte t a ≠ readByte s a) :
    (∃ rest, s.agenda = .rst :: rest) ∨ (s.status.busy = true ∧ EngineIsNext s) ∨
      (s.status.busy = false ∧ ∃ (b : Nat) (v : BitVec 64) (rest : List Event),
        s.agenda = .host (.write (s.cfg.dbase + b) 8 v) :: rest ∧ b ≤ a ∧ a < b + 8) := by
  cases step_cases h with
  | idle _ _ ht | answer _ _ _ _ ht | violation _ _ _ _ _ _ _ _ ht => exact absurd (by rw [ht]; rfl) hne
  | fails hn hb _ _ | succeeds hn hb _ _ _ _ => exact .inr (.inl ⟨hb, hn⟩)
  | reset rest ha _ => exact .inl ⟨rest, ha⟩
  | register r v _ _ ht =>
    obtain ⟨-, hdmem, hepoch⟩ := csrWrite_frame (dropEvent s) r (v.setWidth 32)
    exact absurd (by rw [ht, readByte, respond_dmem, respond_epoch, hdmem, hepoch]; rfl) hne
  | store b v rest hb _ _ ha ht =>
    refine .inr (.inr ⟨hb, b, v, rest, ha, ?_⟩)
    by_contra hout
    exact hne (by rw [ht, readByte, respond_dmem, memGet?_memWrite, if_neg hout]; rfl)

/-- Settles O21: a change of a register is read off `csrRead_step_cases`, one of a byte off `readByte_step_cases`. -/
theorem registersChangeOnlyAtTheirEvents : Obligations.RegistersChangeOnlyAtTheirEvents := by
  intro s t h writes completion reset
  refine ⟨step_cfg h, fun r hr hne => ?_, fun hne => ?_, fun hne => ?_, fun a hne => ?_⟩
  · have hr' : r ∈ .cmd :: operandRegs := List.perm_append_comm (l₁ := operandRegs) (l₂ := [.cmd]) |>.mem_iff.mp hr
    rcases csrRead_step_cases h (by rintro rfl; simp at hr) hne with hreset | ⟨rfl, -⟩ | ⟨v, rest, ha, hw⟩
    · exact .inr hreset
    · simp at hr
    · obtain ⟨hb, hv⟩ := csrRead_csrWrite_stored hr' (by rwa [hw, ← csrRead_dropEvent s] at hne)
      exact .inl ⟨hb, v, ⟨rest, ha⟩, hw.trans hv⟩
  · rcases csrRead_step_cases h (by decide) hne with hreset | ⟨hr, -⟩ | ⟨v, rest, ha, -⟩
    · exact .inr hreset
    · cases hr
    · exact .inl ⟨v, rest, ha⟩
  · rcases csrRead_step_cases h (by decide) hne with hreset | ⟨-, hcompletion⟩ | ⟨v, _, _, hw⟩
    · exact .inr hreset
    · exact .inl hcompletion
    · rw [csrWrite_readOnly (by simp), csrRead_dropEvent] at hw
      exact absurd hw hne
  · rcases readByte_step_cases h hne with hreset | hcompletion | hstore
    · exact .inr (.inl hreset)
    · exact .inl hcompletion
    · exact .inr (.inr hstore)

end Sys2Proof.Machine
end

section
/-! Host accesses to DMEM, legal and malformed (20_memory.md R50, R54, R55), and what they leave a pending command. -/

namespace Sys2Proof.Machine

theorem step_host {s : State} {a : HostAccess} {rest : List Event} (h : s.agenda = .host a :: rest) :
    step s = .next (hostAccess { s with agenda := rest } a) := by
  simp only [step, h]

/-! ### Malformed accesses -/

theorem busAccess_malformed_register {s : State} {address width : Nat} (hlo : s.cfg.base ≤ address)
    (hhi : address < s.cfg.base + 256) (hbad : ¬(width = 4 ∧ (address - s.cfg.base) % 4 = 0))
    (data : Option (BitVec 64)) : busAccess s address width data = respond s .busError := by
  have hroute : busAccess s address width data = csrAccess s (address - s.cfg.base) width data := by
    simp [busAccess, hlo, hhi]
  exact hroute.trans (if_neg (by simpa using hbad))

theorem dmemAccess_malformed {s : State} {a width : Nat} (hbad : ¬(width = 8 ∧ a % 8 = 0 ∧ a + 8 ≤ s.cfg.dmemBytes))
    (data : Option (BitVec 64)) : dmemAccess s a width data = respond s .busError :=
  if_neg (by simpa [and_assoc] using hbad)

/-- An access outside the register window goes to DMEM, and answers a bus error where it is below `DBASE` (log 8). -/
theorem busAccess_malformed_dmem {s : State} {address width : Nat}
    (hout : ¬(s.cfg.base ≤ address ∧ address < s.cfg.base + 256))
    (hbad : ¬(width = 8 ∧ s.cfg.dbase ≤ address ∧ (address - s.cfg.dbase) % 8 = 0 ∧
      address + 8 ≤ s.cfg.dbase + s.cfg.dmemBytes))
    (data : Option (BitVec 64)) : busAccess s address width data = respond s .busError := by
  rw [busAccess, if_neg (by simpa using hout)]
  by_cases hd : s.cfg.dbase ≤ address
  · rw [if_pos hd]
    exact dmemAccess_malformed (by omega) data
  · rw [if_neg hd]

/-- Settles O15: the next state is the bus error's answer to either access. -/
theorem malformedRegisterAccessIsBusError : Obligations.MalformedRegisterAccessIsBusError := by
  intro s address width data rest hlo hhi hbad h
  have herror := busAccess_malformed_register (s := { s with agenda := rest }) hlo hhi hbad
  rcases h with h | h <;> exact (step_host h).trans (congrArg _ (herror _))

/-- Settles O16: no case asks for BUSY. -/
theorem malformedDmemAccessIsBusError : Obligations.MalformedDmemAccessIsBusError := by
  intro s address width data rest hout hbad h
  have herror := busAccess_malformed_dmem (s := { s with agenda := rest }) hout hbad
  rcases h with h | h <;> exact (step_host h).trans (congrArg _ (herror _))

/-! ### Legal accesses to DMEM -/

section Legal
variable {s : State} {a : Nat}

/-- The windows are apart (00_scope.md R5), so an access inside DMEM is routed to it. -/
theorem busAccess_dmem (hc : s.cfg.wf) (hle : a + 8 ≤ s.cfg.dmemBytes) (data : Option (BitVec 64)) :
    busAccess s (s.cfg.dbase + a) 8 data = dmemAccess s a 8 data := by
  obtain ⟨-, -, -, -, -, -, -, hapart⟩ := hc
  have hout : ¬(s.cfg.base ≤ s.cfg.dbase + a ∧ s.cfg.dbase + a < s.cfg.base + 256) := by omega
  rw [busAccess, if_neg (by simpa using hout), if_pos (Nat.le_add_right _ _), Nat.add_sub_cancel_left]

theorem dmemAccess_idle_read (hb : s.status.busy = false) (h8 : a % 8 = 0) (hle : a + 8 ≤ s.cfg.dmemBytes) :
    dmemAccess s a 8 none = respond s (.read64 (memRead s a)) := by
  simp [dmemAccess, hb, h8, hle]

theorem dmemAccess_idle_write (hb : s.status.busy = false) (h8 : a % 8 = 0) (hle : a + 8 ≤ s.cfg.dmemBytes) (v : F64) :
    dmemAccess s a 8 (some v) = respond { s with dmem := memWrite s.dmem a v } .written := by
  simp [dmemAccess, hb, h8, hle]

theorem dmemAccess_busy (hb : s.status.busy = true) (h8 : a % 8 = 0) (hle : a + 8 ≤ s.cfg.dmemBytes)
    (data : Option (BitVec 64)) :
    dmemAccess s a 8 data = respond (setAccv s) (if data = none then .read64 0#64 else .written) := by
  cases data <;> simp [dmemAccess, hb, h8, hle]

end Legal

theorem readByte_memWrite (s : State) (a : Nat) (v : F64) (b : Nat) :
    readByte { s with dmem := memWrite s.dmem a v } b =
      if a ≤ b ∧ b < a + 8 then v.extractLsb' (8 * (b - a)) 8 else readByte s b := by
  simp only [readByte, memGet?_memWrite]
  split_ifs <;> rfl

/-- A word reads back as it was stored (20_memory.md R47). -/
theorem memRead_memWrite (s : State) (a : Nat) (v : F64) : memRead { s with dmem := memWrite s.dmem a v } a = v :=
  memRead_of_bytes fun i hi => by
    rw [readByte_memWrite, if_pos (by omega), Nat.add_sub_cancel_left]

/-- Settles O17: a store writes one word, a read answers it, and every other access is malformed. -/
theorem dmemAccessWhileIdle : Obligations.DmemAccessWhileIdle := by
  intro s rest hc hb
  refine ⟨fun a v h8 hle => ⟨fun h => ?_, fun h => ?_⟩, fun address width data hout hbad h => ?_⟩
  · have hstore := (busAccess_dmem (s := { s with agenda := rest }) hc hle (some v)).trans
      (dmemAccess_idle_write (s := { s with agenda := rest }) hb h8 hle v)
    refine ⟨_, (step_host h).trans (congrArg _ hstore), memRead_memWrite s a v, fun b hout => ?_, rfl⟩
    exact (readByte_memWrite s a v b).trans (if_neg hout)
  · have hread := (busAccess_dmem (s := { s with agenda := rest }) hc hle none).trans
      (dmemAccess_idle_read (s := { s with agenda := rest }) hb h8 hle)
    exact (step_host h).trans (congrArg _ hread)
  · refine malformedDmemAccessIsBusError s address width data rest hout ?_ h
    rintro ⟨hw, hd, h8, hle⟩
    exact hbad ⟨hw, address - s.cfg.dbase, by omega, h8, by omega⟩

/-- Settles O18: either access is `setAccv` with its answer. -/
theorem dmemAccessWhileBusy : Obligations.DmemAccessWhileBusy := by
  intro s a rest hc hb h8 hle
  have hbusy (data : Option (BitVec 64)) :=
    (busAccess_dmem (s := { s with agenda := rest }) hc hle data).trans
      (dmemAccess_busy (s := { s with agenda := rest }) hb h8 hle data)
  exact ⟨fun v h => (step_host h).trans (congrArg _ (hbusy (some v))),
    fun h => (step_host h).trans (congrArg _ (hbusy none))⟩

/-- Settles O19, bit by bit of each of the eight bytes. -/
theorem dmemWordsAreLittleEndian : Obligations.DmemWordsAreLittleEndian := by
  intro s a i hi
  refine BitVec.eq_of_getLsbD_eq fun j hj => ?_
  simp only [memRead, BitVec.getLsbD_append, BitVec.getLsbD_extractLsb']
  interval_cases i <;> interval_cases j <;> rfl

/-! ### A host access while a command is in flight -/

/-- `t` is `s` but for CTRL, the flags of `STATUS` other than BUSY, `irq`, the agenda and the bus's answer: the command
in flight in `s`, its operands and DMEM are untouched. -/
def CommandUndisturbed (s t : State) : Prop :=
  t.status.busy = s.status.busy ∧
    t = { s with ie := t.ie, status := t.status, irq := t.irq, agenda := t.agenda, resp := t.resp }

theorem CommandUndisturbed.respond {s t : State} (h : CommandUndisturbed s t) (r : Response) :
    CommandUndisturbed s (respond t r) :=
  ⟨h.1, congrArg (Machine.respond · r) h.2⟩

/-- While BUSY = 1 a register write reaches CTRL and `STATUS` only (10_state.md R33). -/
theorem commandUndisturbed_csrWrite {s : State} (hb : s.status.busy = true) (r : Csr) (v : Word) :
    CommandUndisturbed s (csrWrite s r v) := by
  cases csrWrite_cases s r v with
  | readOnly _ h | control _ h | acknowledgement _ h | ignored _ _ h => rw [h]; exact ⟨rfl, rfl⟩
  | acceptance _ hidle _ | operand _ hidle _ => rw [hb] at hidle; cases hidle

theorem commandUndisturbed_busAccess {s : State} (hb : s.status.busy = true) (address width : Nat)
    (data : Option (BitVec 64)) : CommandUndisturbed s (busAccess s address width data) := by
  cases busAccess_cases s address width data with
  | answer r ht => rw [ht]; exact ⟨rfl, rfl⟩
  | register r v _ _ _ ht => rw [ht]; exact (commandUndisturbed_csrWrite hb r _).respond _
  | violation a r _ _ _ _ _ ht => rw [ht]; exact ⟨rfl, rfl⟩
  | store _ _ _ _ _ _ _ hidle _ => rw [hb] at hidle; cases hidle

theorem commandUndisturbed_hostAccess {s : State} (hb : s.status.busy = true) (a : HostAccess) :
    CommandUndisturbed s (hostAccess s a) := by
  cases a <;> exact commandUndisturbed_busAccess hb _ _ _

theorem csrAccess_resp_ne_read64 (s : State) (off width : Nat) (data : Option (BitVec 64)) (v : F64) :
    (csrAccess s off width data).resp ≠ .read64 v := by
  unfold csrAccess
  split_ifs
  · cases csrAt off <;> cases data <;> simp
  · simp

theorem dmemAccess_busy_read64 {s : State} (hb : s.status.busy = true) {a width : Nat} {data : Option (BitVec 64)}
    {v : F64} (h : (dmemAccess s a width data).resp = .read64 v) : v = 0#64 := by
  by_cases hlegal : width = 8 ∧ a % 8 = 0 ∧ a + 8 ≤ s.cfg.dmemBytes
  · obtain ⟨rfl, h8, hle⟩ := hlegal
    rw [dmemAccess_busy hb h8 hle] at h
    cases data <;> cases h
    rfl
  · rw [dmemAccess_malformed hlegal] at h
    cases h

theorem busAccess_busy_read64 {s : State} (hb : s.status.busy = true) {address width : Nat}
    {data : Option (BitVec 64)} {v : F64} (h : (busAccess s address width data).resp = .read64 v) : v = 0#64 := by
  rw [busAccess] at h
  split_ifs at h
  · exact absurd h (csrAccess_resp_ne_read64 s _ _ _ v)
  · exact dmemAccess_busy_read64 hb h
  · cases h

/-- While BUSY = 1 the only DMEM word the bus answers is 0 (20_memory.md R54). -/
theorem hostAccess_busy_read64 {s : State} (hb : s.status.busy = true) (a : HostAccess) (v : F64)
    (h : (hostAccess s a).resp = .read64 v) : v = 0#64 := by
  cases a <;> exact busAccess_busy_read64 hb h

/-- Settles O25: the access leaves the command undisturbed, and answers no DMEM word but 0. -/
theorem hostCannotDisturbACommand : Obligations.HostCannotDisturbACommand := by
  intro s a rest hb h
  have hzero := hostAccess_busy_read64 (s := { s with agenda := rest }) hb a
  obtain ⟨hbusy, ht⟩ := commandUndisturbed_hostAccess (s := { s with agenda := rest }) hb a
  refine ⟨_, step_host h, ?_⟩
  rw [ht]
  exact ⟨hbusy.trans hb, rfl, rfl, fun _ => rfl, rfl, rfl, rfl, rfl, rfl, rfl, rfl, rfl, rfl, rfl, hzero⟩

end Sys2Proof.Machine
end

section
/-! What a command leaves of DMEM (20_memory.md R53, 30_encoding.md R67). -/

namespace Sys2Proof.Machine

/-- The commands check and write the output their row of 30_encoding.md R67 declares. -/
theorem checksOf_output (s : State) (i : Instr) : (checksOf s i).output = declaredOutput s i := by
  cases i with
  | fftrealspec q => simp [checksOf, declaredOutput, spectrumCount]
  | _ => rfl

/-- Byte `a` lies in no buffer of an output of the given shape. -/
def OutsideOutput (s : State) (a : Nat) : OutShape → Prop
  | .none => True
  | .complex c => ¬InBuffer a s.dstRe c ∧ ¬InBuffer a s.dstIm c
  | .real c => ¬InBuffer a s.dstRe c

theorem readByte_successCompletion {s : State} {y : Output} {a : Nat} (h : OutsideOutput s a y.shape) :
    readByte (successCompletion s y) a = readByte s a := by
  cases y with
  | none => exact (wroteNothing_successCompletion s).frame a
  | complex y =>
    obtain ⟨hre, him⟩ := h
    simp only [readByte, successCompletion_dmem, writeOutput_dmem_complex, successCompletion_epoch]
    rw [memGet?_memWriteC_outside a hre him]
  | real y => exact (wroteReal_successCompletion s y).frame a h

/-- Settles O22: an error completion writes nothing, a success only the declared output. -/
theorem commandWritesOnlyItsDestination : Obligations.CommandWritesOnlyItsDestination := by
  intro i s t a h hout
  rcases exec_cases h with ⟨e, -, rfl⟩ | ⟨hc, rfl⟩
  · exact (failed_errorCompletion s e).dmem a
  · refine readByte_successCompletion ?_
    rw [resultOf_shape hc, checksOf_output]
    exact hout

end Sys2Proof.Machine
end

section
/-! Decoding through the opcode table (30_encoding.md R65 to R71): a word decodes to a command exactly when the command's
row of the table selects it and its fields hold the command's values. -/

namespace Sys2Proof

/-- `OP` of a command (30_encoding.md R67). -/
def Instr.opcode : Instr → Nat
  | .nop => 0x00
  | .fft _ => 0x01
  | .r2fft => 0x02
  | .bluestein => 0x03
  | .bitrev => 0x04
  | .bfstage _ => 0x05
  | .twtab => 0x06
  | .chirptab => 0x07
  | .fftreal => 0x08
  | .fftrealhalf _ => 0x09
  | .fftrealspec _ => 0x0A
  | .ifftreal _ => 0x0B
  | .ifftreals _ => 0x0C
  | .ifftrealo _ => 0x0D
  | .fftshift => 0x0E

/-- The bits of the fields a command uses (30_encoding.md R68). -/
def Instr.allowed : Instr → Word
  | .fft _ => maskD
  | .fftrealhalf _ | .fftrealspec _ | .ifftreal _ | .ifftreals _ | .ifftrealo _ => maskQ
  | .bfstage _ => maskS
  | .nop | .r2fft | .bluestein | .bitrev | .twtab | .chirptab | .fftreal | .fftshift => maskNone

/-- The command of the same mnemonic whose fields have the values the word holds (30_encoding.md R65). -/
def Instr.readFields (w : Word) : Instr → Instr
  | .fft _ => .fft (dField w)
  | .fftrealhalf _ => .fftrealhalf (qField w)
  | .fftrealspec _ => .fftrealspec (qField w)
  | .ifftreal _ => .ifftreal (qField w)
  | .ifftreals _ => .ifftreals (qField w)
  | .ifftrealo _ => .ifftrealo (qField w)
  | .bfstage _ => .bfstage (sField w)
  | i => i

/-- A command's row of the opcode table: every bit outside its fields is fixed, to `OP` (30_encoding.md R68). -/
def Instr.row (i : Instr) : OpcodeRow := ⟨i.mnemonic, BitVec.ofNat 32 i.opcode, ~~~i.allowed⟩

/-! ### The rows are the table -/

theorem Instr.row_mem (i : Instr) : i.row ∈ opcodeTable := by
  cases i <;> simp only [Instr.row, Instr.mnemonic, Instr.opcode, Instr.allowed] <;> decide

theorem exists_row_of_mem {r : OpcodeRow} (h : r ∈ opcodeTable) : ∃ i : Instr, i.row = r := by
  have htable : opcodeTable = [Instr.nop, .fft true, .r2fft, .bluestein, .bitrev, .bfstage 0, .twtab, .chirptab, .fftreal,
      .fftrealhalf true, .fftrealspec true, .ifftreal true, .ifftreals true, .ifftrealo true, .fftshift].map Instr.row :=
    rfl
  rw [htable] at h
  obtain ⟨i, -, hi⟩ := List.mem_map.mp h
  exact ⟨i, hi⟩

@[simp] theorem Instr.row_readFields (w : Word) (i : Instr) : (i.readFields w).row = i.row := by cases i <;> rfl

@[simp] theorem Instr.readFields_readFields (w : Word) (i : Instr) :
    (i.readFields w).readFields w = i.readFields w := by cases i <;> rfl

/-! ### `OP` and the bits outside the fields -/

theorem Instr.opcode_lt (i : Instr) : i.opcode < 64 := by cases i <;> simp [Instr.opcode]

/-- No field overlaps `OP`. -/
theorem Instr.not_allowed_and_opBits (i : Instr) : ~~~i.allowed &&& 0x3F#32 = 0x3F#32 := by
  cases i <;> simp [Instr.allowed, maskNone, maskD, maskQ, maskS]

theorem and_lowBits (w : Word) (k : Nat) :
    w &&& BitVec.ofNat 32 (2 ^ k - 1) = BitVec.ofNat 32 (w.toNat % 2 ^ k) := by
  apply BitVec.eq_of_getLsbD_eq
  intro j hj
  rw [BitVec.getLsbD_and, BitVec.getLsbD_ofNat, BitVec.getLsbD_ofNat, Nat.testBit_two_pow_sub_one,
    Nat.testBit_mod_two_pow, BitVec.testBit_toNat]
  simp [hj, Bool.and_comm]

theorem and_opBits (w : Word) : w &&& 0x3F#32 = BitVec.ofNat 32 (opField w) := and_lowBits w 6

theorem opField_lt (w : Word) : opField w < 64 := Nat.mod_lt _ (by decide)

theorem opField_ofNat {op : Nat} (h : op < 64) : opField (BitVec.ofNat 32 op) = op := by
  rw [opField, BitVec.toNat_ofNat]
  omega

theorem ofNat_and_opBits {op : Nat} (h : op < 64) : BitVec.ofNat 32 op &&& 0x3F#32 = BitVec.ofNat 32 op := by
  rw [and_opBits, opField_ofNat h]

/-- A word is its `OP` and the bits above. -/
theorem eq_ofNat_iff {w : Word} {op : Nat} (h : op < 64) :
    w = BitVec.ofNat 32 op ↔ opField w = op ∧ w &&& 0xFFFFFFC0#32 = 0#32 := by
  constructor
  · rintro rfl
    refine ⟨opField_ofNat h, ?_⟩
    rw [← ofNat_and_opBits h, BitVec.and_assoc]
    exact BitVec.and_zero
  · rintro ⟨hop, habove⟩
    calc w = w &&& (0x3F#32 ||| 0xFFFFFFC0#32) := BitVec.and_allOnes.symm
      _ = w &&& 0x3F#32 ||| w &&& 0xFFFFFFC0#32 := BitVec.and_or_distrib_left
      _ = BitVec.ofNat 32 op := by rw [habove, and_opBits, hop, BitVec.or_zero]

theorem Instr.ofNat_opcode_and_not_allowed (i : Instr) :
    BitVec.ofNat 32 i.opcode &&& ~~~i.allowed = BitVec.ofNat 32 i.opcode := by
  rw [← ofNat_and_opBits i.opcode_lt, BitVec.and_assoc, BitVec.and_comm 0x3F#32, i.not_allowed_and_opBits]

theorem opField_and_not_allowed (w : Word) (i : Instr) : opField (w &&& ~~~i.allowed) = opField w := by
  have h : BitVec.ofNat 32 (opField (w &&& ~~~i.allowed)) = BitVec.ofNat 32 (opField w) := by
    rw [← and_opBits, BitVec.and_assoc, i.not_allowed_and_opBits, and_opBits]
  rw [← opField_ofNat (opField_lt _), h, opField_ofNat (opField_lt w)]

/-- The row of a command selects a word exactly when `OP` is the command's and no bit is set outside `OP` and the
command's fields (30_encoding.md R68). -/
theorem Instr.row_selects_iff {w : Word} {i : Instr} :
    i.row.selects w = true ↔ opField w = i.opcode ∧ w &&& ~~~i.allowed &&& 0xFFFFFFC0#32 = 0#32 := by
  rw [OpcodeRow.selects, decide_eq_true_iff, Instr.row, eq_ofNat_iff i.opcode_lt, opField_and_not_allowed]

/-! ### The decoder -/

theorem ifOnly_ok_iff {w m : Word} {i j : Instr} :
    ifOnly w m i = .ok j ↔ w &&& ~~~m &&& 0xFFFFFFC0#32 = 0#32 ∧ i = j := by
  rw [ifOnly]
  split <;> simp [*]

theorem decodeWord_of_opField {w : Word} {i : Instr} (h : opField w = i.opcode) :
    decodeWord w = ifOnly w i.allowed (i.readFields w) := by
  cases i <;> simp [decodeWord, h, Instr.opcode, Instr.allowed, Instr.readFields]

theorem opField_of_decodeWord {w : Word} {i : Instr} (h : decodeWord w = .ok i) : opField w = i.opcode := by
  unfold decodeWord at h
  split at h
  case h_16 => cases h
  all_goals
    obtain ⟨-, rfl⟩ := ifOnly_ok_iff.mp h
    assumption

/-- A word decodes to a command exactly when the command's row selects it and it holds the values of the command's
fields. -/
theorem decodeWord_ok_iff {w : Word} {i : Instr} :
    decodeWord w = .ok i ↔ i.row.selects w = true ∧ i.readFields w = i := by
  rw [Instr.row_selects_iff, and_assoc]
  constructor
  · intro h
    have hop := opField_of_decodeWord h
    exact ⟨hop, ifOnly_ok_iff.mp (decodeWord_of_opField hop ▸ h)⟩
  · rintro ⟨hop, hfields⟩
    exact decodeWord_of_opField hop ▸ ifOnly_ok_iff.mpr hfields

/-- A word that a command's row selects decodes to the command of that row with the fields the word holds. -/
theorem decodeWord_of_row_selects {w : Word} {i : Instr} (h : i.row.selects w = true) :
    decodeWord w = .ok (i.readFields w) :=
  decodeWord_ok_iff.mpr ⟨by rwa [i.row_readFields], i.readFields_readFields w⟩

/-! ### The encoder -/

/-- A one-bit field, put back in its place. -/
theorem bit_shiftLeft (w : Word) (k : Nat) :
    BitVec.ofNat 32 (w.getLsbD k).toNat <<< k = w &&& BitVec.twoPow 32 k := by
  rw [BitVec.and_twoPow]
  cases w.getLsbD k
  · exact BitVec.zero_shiftLeft k
  · exact (BitVec.twoPow_eq 32 k).symm ▸ rfl

theorem dField_shiftLeft (w : Word) : BitVec.ofNat 32 (dField w).toNat <<< 6 = w &&& maskD := bit_shiftLeft w 6

theorem qField_shiftLeft (w : Word) : BitVec.ofNat 32 (qField w).toNat <<< 7 = w &&& maskQ := bit_shiftLeft w 7

theorem sField_shiftLeft (w : Word) : BitVec.ofNat 32 (sField w) <<< 8 = w &&& maskS := by
  have hs : BitVec.ofNat 32 (sField w) = w >>> 8 &&& 0x1F#32 := by
    rw [sField, ← Nat.shiftRight_eq_div_pow w.toNat 8]
    exact (and_lowBits (w >>> 8) 5).symm
  rw [hs, BitVec.shiftLeft_and_distrib, BitVec.shiftLeft_ushiftRight, BitVec.and_assoc]
  rfl

/-- The encoding of the fields a word holds: `OP` beside the word's own field bits. -/
theorem encode_readFields (w : Word) (i : Instr) :
    encode (i.readFields w) = BitVec.ofNat 32 i.opcode ||| w &&& i.allowed := by
  cases i <;> simp [Instr.readFields, encode, assembleFields, Instr.opcode, Instr.allowed, maskNone, dField_shiftLeft,
    qField_shiftLeft, sField_shiftLeft]

theorem Instr.wellFormed_readFields (w : Word) (i : Instr) : (i.readFields w).wellFormed = true := by
  cases i with
  | bfstage t => exact decide_eq_true (Nat.mod_lt _ (by decide))
  | _ => rfl

theorem encode_of_decodeWord {w : Word} {i : Instr} (h : decodeWord w = .ok i) : encode i = w := by
  obtain ⟨hrow, hfields⟩ := decodeWord_ok_iff.mp h
  have hop : w &&& ~~~i.allowed = BitVec.ofNat 32 i.opcode := of_decide_eq_true hrow
  calc encode i = BitVec.ofNat 32 i.opcode ||| w &&& i.allowed := by rw [← encode_readFields, hfields]
    _ = w &&& (~~~i.allowed ||| i.allowed) := by rw [← hop, BitVec.and_or_distrib_left]
    _ = w := by rw [BitVec.or_comm, BitVec.or_not_self, BitVec.and_allOnes]

/-- The fields of a well-formed command are read back from its word. -/
theorem Instr.readFields_encode {i : Instr} (h : i.wellFormed = true) : i.readFields (encode i) = i := by
  cases i with
  | fft d => cases d <;> rfl
  | fftrealhalf q | fftrealspec q | ifftreal q | ifftreals q | ifftrealo q => cases q <;> rfl
  | bfstage t =>
    have ht : t < 32 := of_decide_eq_true h
    clear h
    revert t
    decide
  | _ => rfl

/-- The row of a well-formed command selects its word: the word's other bits are field bits. -/
theorem Instr.row_selects_encode {i : Instr} (h : i.wellFormed = true) : i.row.selects (encode i) = true := by
  have hword : encode i = BitVec.ofNat 32 i.opcode ||| encode i &&& i.allowed := by
    rw [← encode_readFields, i.readFields_encode h]
  have hfields : encode i &&& i.allowed &&& ~~~i.allowed = 0#32 := by
    rw [BitVec.and_assoc, BitVec.and_not_self]
    exact BitVec.and_zero
  refine decide_eq_true (?_ : encode i &&& ~~~i.allowed = BitVec.ofNat 32 i.opcode)
  rw [hword, BitVec.and_or_distrib_right, hfields, i.ofNat_opcode_and_not_allowed, BitVec.or_zero]

/-! ### The statements -/

/-- Settles O1: the row of a well-formed command selects its word, which holds the command's own fields; and the word that
decodes is `OP` beside the fields read from it. -/
theorem decodeAndEncodeAgree : Obligations.DecodeAndEncodeAgree := by
  refine ⟨fun i hi => decodeWord_ok_iff.mpr ⟨?_, Instr.readFields_encode hi⟩, fun w i h => ⟨?_, encode_of_decodeWord h⟩⟩
  · exact Instr.row_selects_encode hi
  · rw [← (decodeWord_ok_iff.mp h).2]
    exact i.wellFormed_readFields w

/-- Settles O2: the row that selects a word is the row of the command the word decodes to. -/
theorem decoderFollowsMatchAndMask : Obligations.DecoderFollowsMatchAndMask := by
  refine ⟨fun w i h => ⟨i.row, i.row_mem, rfl, (decodeWord_ok_iff.mp h).1⟩, fun w r hr hsel => ?_⟩
  obtain ⟨i, rfl⟩ := exists_row_of_mem hr
  exact ⟨i.readFields w, decodeWord_of_row_selects hsel, congrArg OpcodeRow.mnemonic (i.row_readFields w)⟩

end Sys2Proof
end

section
/-! The checks of a command are the conditions of 60_exceptions.md R119's table, and what the command does in either case. -/

namespace Sys2Proof.Machine

/-! ### The conditions of the checks -/

theorem checksOf_input (s : State) (i : Instr) : (checksOf s i).input = declaredInput s i := by cases i <;> rfl

theorem checksOf_empty_iff (s : State) (i : Instr) : (checksOf s i).empty = true ↔ EmptyFails s i := by
  cases i <;> simp [checksOf, EmptyFails]

theorem checksOf_oddlen_iff (s : State) (i : Instr) : (checksOf s i).oddlen = true ↔ OddFails s i := by
  cases i <;> simp [checksOf, OddFails]

theorem checksOf_badlen_iff (s : State) (i : Instr) : (checksOf s i).badlen = true ↔ LengthFails s i := by
  have hpow (n : Nat) : isPow2 n = false ↔ ¬IsPowerOfTwo n := by rw [← isPow2_iff, Bool.not_eq_true]
  cases i with
  | bfstage t =>
    by_cases h : IsPowerOfTwo s.len.toNat
    · have hlog : Nat.log2 s.len.toNat ≤ t ↔ s.len.toNat ≤ 2 ^ t := by
        obtain ⟨k, hk⟩ := h
        rw [hk, Nat.log2_two_pow, Nat.pow_le_pow_iff_right (by norm_num)]
      simp [checksOf, LengthFails, hpow, or_assoc, hlog]
    · simp [checksOf, LengthFails, hpow, h]
  | _ => simp [checksOf, LengthFails, hpow, isPow2_iff, or_assoc]

theorem checksOf_buffersLegal_iff (s : State) (i : Instr) :
    (inputLegal s (checksOf s i).input && outputLegal s (checksOf s i).output) = true ↔ ¬AddressFails s i := by
  rw [checksOf_input, checksOf_output, AddressFails, usedBuffers]
  cases declaredInput s i <;> cases declaredOutput s i <;>
    simp [inputLegal, outputLegal, bufferLegal_iff, and_assoc]

theorem checksOf_overlaps_iff (s : State) (i : Instr) :
    outputOverlaps s (checksOf s i).output = true ↔ OverlapFails s i := by
  rw [checksOf_output, OverlapFails]
  cases declaredOutput s i <;> simp [outputOverlaps, ← rangesOverlap_eq_false_iff]

/-- The checks stop a command with `e` exactly when R119's table lists `e` as the first failing check. -/
theorem failedCheck_eq_some_iff_firstFailure (s : State) (i : Instr) (e : ErrCode) :
    failedCheck s (checksOf s i) = some e ↔ FirstFailure s i e := by
  rw [failedCheck_eq_some_iff]
  cases e <;> simp only [FirstFailure, ← checksOf_empty_iff, ← checksOf_oddlen_iff, ← checksOf_badlen_iff,
    ← checksOf_overlaps_iff, ← Bool.not_eq_true, not_not, checksOf_buffersLegal_iff]

theorem failedCheck_eq_none_iff_passes (s : State) (i : Instr) :
    failedCheck s (checksOf s i) = none ↔
      ¬EmptyFails s i ∧ ¬OddFails s i ∧ ¬LengthFails s i ∧ ¬AddressFails s i ∧ ¬OverlapFails s i := by
  rw [failedCheck_eq_none_iff, ← checksOf_empty_iff, ← checksOf_oddlen_iff, ← checksOf_badlen_iff,
    ← checksOf_overlaps_iff, ← checksOf_buffersLegal_iff]
  simp only [Bool.not_eq_true, Bool.and_eq_true, and_assoc]

/-! ### What the command does -/

/-- Every failing check of every command ends it with its code and no other effect (60_exceptions.md R119, R122). -/
theorem failsAsListed (i : Instr) : FailsAsListed i := by
  intro s e h
  refine ⟨errorCompletion s e, ?_, failed_errorCompletion s e⟩
  rw [exec_eq_runCommand, runCommand_of_failed ((failedCheck_eq_some_iff_firstFailure s i e).mpr h)]

theorem exec_of_passes {s : State} {i : Instr} (hc : failedCheck s (checksOf s i) = none) :
    exec i s = .next (successCompletion s (resultOf s [s.nanCtr] i)) := by
  rw [exec_eq_runCommand, runCommand_of_passed hc]

/-- A command that passes its checks and whose result is the complex sequence `y` writes `y`: check 6 keeps the two
arrays apart. -/
theorem exec_writesComplex {s : State} {i : Instr} {y : List Cplx} (hc : failedCheck s (checksOf s i) = none)
    (hy : resultOf s [s.nanCtr] i = .complex y) : ∃ t, exec i s = .next t ∧ WroteComplex s t y := by
  have hshape : (checksOf s i).output = .complex y.length := by rw [← resultOf_shape hc, hy]; rfl
  obtain ⟨-, -, -, -, -, hover⟩ := (failedCheck_eq_none_iff s _).mp hc
  rw [hshape] at hover
  refine ⟨_, exec_of_passes hc, ?_⟩
  rw [hy]
  exact wroteComplex_successCompletion ((rangesOverlap_eq_false_iff _ _ _).mp hover)

end Sys2Proof.Machine
end

section
/-! The twiddle ROM with TWTAB, and the bit-reversal network with its counter (40_units.md R74, R79 to R83). -/

namespace Sys2Proof.Machine

/-! ### The twiddle ROM -/

/-- `ROMRD(n, k) = TRIG(k, n)` for a power of two `n` (40_units.md R74). -/
theorem romRead_eq_trig (c : Config) {n : Nat} (h : IsPowerOfTwo n) (k : Nat) : romRead c n k = trig c k n := by
  obtain ⟨b, rfl⟩ := h
  rw [romRead, romEntry, Nat.log2_two_pow]

theorem twtab_passes {s : State} (hp : IsPowerOfTwo s.len.toNat) (hn : s.len.toNat ≤ 2 * s.cfg.nmax)
    (hd : DestOk s (s.len.toNat / 2)) : failedCheck s (checksOf s .twtab) = none := by
  obtain ⟨hre, him, hapart⟩ := hd
  refine (failedCheck_eq_none_iff_passes s .twtab).mpr ⟨id, id, ?_, ?_, not_not_intro hapart⟩
  · exact not_or_intro (not_not_intro hp) (Nat.not_lt.mpr hn)
  · simp [AddressFails, usedBuffers, declaredInput, declaredOutput, hre, him]

/-- Settles O35: the checks pass, and each entry of the result is the ROM's. -/
theorem twtabWritesTheTwiddleTable : Obligations.TwtabWritesTheTwiddleTable := by
  refine ⟨fun s hp hn hd => ?_, failsAsListed .twtab⟩
  obtain ⟨t, hexec, hwrote⟩ := exec_writesComplex (twtab_passes hp hn hd) rfl
  refine ⟨t, _, hexec, hwrote, length_tabulate _ _, fun k hk => ?_⟩
  rw [cAt_tabulate hk, romRead_eq_trig s.cfg hp]

/-! ### The reversed index -/

theorem bitRev_lt (s i : Nat) : bitRev s i < 2 ^ s := by
  induction s generalizing i with
  | zero => exact Nat.one_pos
  | succ s ih =>
    have hlow := ih (i / 2)
    rw [bitRev, Nat.pow_succ]
    rcases Nat.mod_two_eq_zero_or_one i with h | h <;> rw [h] <;> omega

/-- The top bit of `rev_(s+1)(i)` is the lowest of `i`; the bits below are those of `rev_s(i / 2)`. -/
theorem testBit_bitRev_succ (s i b : Nat) :
    (bitRev (s + 1) i).testBit b = if b < s then (bitRev s (i / 2)).testBit b else (i % 2).testBit (b - s) := by
  rw [bitRev, Nat.mul_comm, Nat.testBit_two_pow_mul_add _ (bitRev_lt s (i / 2))]

theorem testBit_bitRev {s b : Nat} (hb : b < s) (i : Nat) : (bitRev s i).testBit b = i.testBit (s - 1 - b) := by
  induction s generalizing i with
  | zero => exact absurd hb (Nat.not_lt_zero b)
  | succ s ih =>
    rw [testBit_bitRev_succ]
    split
    · next h => rw [ih h, Nat.testBit_div_two]; congr 1; omega
    · next h =>
      obtain rfl : b = s := by omega
      simp [Nat.testBit_zero]

/-- The reversal is its own inverse: bit `b` comes from bit `s-1-b`, which comes from bit `b`. -/
theorem bitRev_bitRev {s i : Nat} (hi : i < 2 ^ s) : bitRev s (bitRev s i) = i := by
  refine Nat.eq_of_testBit_eq fun b => ?_
  rcases Nat.lt_or_ge b s with hb | hb
  · rw [testBit_bitRev hb, testBit_bitRev (by omega)]; congr 1; omega
  · have hpow : 2 ^ s ≤ 2 ^ b := Nat.pow_le_pow_right (by norm_num) hb
    rw [Nat.testBit_lt_two_pow ((bitRev_lt s _).trans_le hpow), Nat.testBit_lt_two_pow (hi.trans_le hpow)]

/-- Settles O50: the bits, the range and the involution, each by its lemma. -/
theorem bitReversalReversesBits : Obligations.BitReversalReversesBits :=
  ⟨rfl, fun s i hi => ⟨bitRev_lt s i, fun _ hb => testBit_bitRev hb i, bitRev_bitRev hi⟩⟩

/-! ### The network -/

theorem cAt_bitRevPermute {s : Nat} {x : List Cplx} (hx : x.length = 2 ^ s) {j : Nat} (hj : j < 2 ^ s) :
    cAt (bitRevPermute x) j = cAt x (bitRev s j) := by
  rw [bitRevPermute, hx, cAt_tabulate hj, Nat.log2_two_pow]

/-- Settles O51: the element at `rev_s(i)` is the one at `rev_s(rev_s(i))` of the input. -/
theorem bitReversalPermutes : Obligations.BitReversalPermutes := by
  refine fun s x hx => ⟨(length_bitRevPermute x).trans hx, fun i hi => ?_, fun j hj => cAt_bitRevPermute hx hj⟩
  rw [cAt_bitRevPermute hx (bitRev_lt s i), bitRev_bitRev hi]

/-! ### The counter -/

theorem bitRev_zero (s : Nat) : bitRev s 0 = 0 := by
  induction s with
  | zero => rfl
  | succ s ih => rw [bitRev, Nat.zero_div, ih, Nat.zero_mod, Nat.zero_mul]

theorem two_pow_or {s r : Nat} (hr : r < 2 ^ s) : 2 ^ s ||| r = 2 ^ s + r := by
  simpa using (Nat.two_pow_add_eq_or_of_lt hr 1).symm

theorem two_pow_add_xor {s r : Nat} (hr : r < 2 ^ s) : (2 ^ s + r) ^^^ 2 ^ s = r := by
  refine Nat.eq_of_testBit_eq fun b => ?_
  rw [← two_pow_or hr, Nat.testBit_xor, Nat.testBit_or, Nat.testBit_two_pow]
  by_cases hb : s = b
  · subst hb; simp [Nat.testBit_lt_two_pow hr]
  · simp [hb]

/-- One step of the counter goes to the next reversed index: the top bit is set where `i` is even, and where `i` is odd it
is cleared and the carry goes on into the bits below, which hold `rev_s(i / 2)`. -/
theorem revCarry_bitRev (s i : Nat) : revCarry s (bitRev s i) = bitRev s (i + 1) := by
  induction s generalizing i with
  | zero => rfl
  | succ s ih =>
    have hlow := bitRev_lt s (i / 2)
    have htop : (bitRev (s + 1) i).testBit s = decide (i % 2 = 1) := by
      rw [testBit_bitRev (Nat.lt_succ_self s)]; simp [Nat.testBit_zero]
    rw [revCarry, htop]
    rcases Nat.mod_two_eq_zero_or_one i with h | h
    · have hnext : (i + 1) % 2 = 1 ∧ (i + 1) / 2 = i / 2 := by omega
      simp only [bitRev, h, hnext]
      simpa [Nat.lor_comm] using two_pow_or hlow
    · have hnext : (i + 1) % 2 = 0 ∧ (i + 1) / 2 = i / 2 + 1 := by omega
      simp only [bitRev, h, hnext, ← ih]
      simp [two_pow_add_xor hlow]

theorem foldl_revCarry (s k : Nat) : (List.range k).foldl (fun i2 _ => revCarry s i2) 0 = bitRev s k := by
  induction k with
  | zero => exact (bitRev_zero s).symm
  | succ k ih => rw [List.range_succ, List.foldl_append, ih]; exact revCarry_bitRev s k

/-- The sequence and the counter before iteration `k` of the counter's loop. -/
def counterState (s : Nat) (x : List Cplx) (k : Nat) : List Cplx × Nat :=
  (List.range k).foldl (fun st i => (st.1.set st.2 (cAt x i), revCarry s st.2)) (x, 0)

theorem bitRevCounterLoop_eq (s : Nat) (x : List Cplx) : bitRevCounterLoop s x = (counterState s x x.length).1 := rfl

theorem counterState_succ (s : Nat) (x : List Cplx) (k : Nat) :
    counterState s x (k + 1) =
      ((counterState s x k).1.set (counterState s x k).2 (cAt x k), revCarry s (counterState s x k).2) := by
  rw [counterState, List.range_succ, List.foldl_append]; rfl

theorem counterState_counter (s : Nat) (x : List Cplx) (k : Nat) : (counterState s x k).2 = bitRev s k := by
  induction k with
  | zero => exact (bitRev_zero s).symm
  | succ k ih => rw [counterState_succ, ih, revCarry_bitRev]

theorem length_counterState (s : Nat) (x : List Cplx) (k : Nat) : (counterState s x k).1.length = x.length := by
  induction k with
  | zero => rfl
  | succ k ih => rw [counterState_succ, List.length_set, ih]

/-- Before iteration `k` the elements below `k` stand at their reversed indices: no two of these are equal, so a later
iteration does not write over them. -/
theorem cAt_counterState {s : Nat} {x : List Cplx} (hx : x.length = 2 ^ s) {j k : Nat} (hj : j < k) (hk : k ≤ 2 ^ s) :
    cAt (counterState s x k).1 (bitRev s j) = cAt x j := by
  induction k with
  | zero => exact absurd hj (Nat.not_lt_zero j)
  | succ k ih =>
    have hin : bitRev s k < (counterState s x k).1.length := by rw [length_counterState, hx]; exact bitRev_lt s k
    rw [counterState_succ, counterState_counter, cAt_set hin]
    split
    · next heq =>
      have hjk : k = j := by rw [← bitRev_bitRev (s := s) (i := k) (by omega), heq, bitRev_bitRev (by omega)]
      rw [hjk]
    · next hne => exact ih (Nat.lt_of_le_of_ne (Nat.le_of_lt_succ hj) fun h => hne (by rw [h])) (by omega)

/-- Settles O52: after the last iteration element `j` is the input's at `rev_s(j)`, which stands at `rev_s(rev_s(j))`. -/
theorem bitReversalCounterRealisesThePermutation : Obligations.BitReversalCounterRealisesThePermutation := by
  refine ⟨fun s i _ => foldl_revCarry s i, fun s x hx => ?_⟩
  have hlen : (bitRevCounterLoop s x).length = x.length := by rw [bitRevCounterLoop_eq, length_counterState]
  refine ext_cAt (hlen.trans (length_bitRevPermute x).symm) fun j hj => ?_
  rw [hlen, hx] at hj
  have hmoved := cAt_counterState hx (bitRev_lt s j) le_rfl
  rwa [bitRev_bitRev hj, ← hx, ← bitRevCounterLoop_eq, ← cAt_bitRevPermute hx hj] at hmoved

end Sys2Proof.Machine
end

section
/-! The butterfly (40_units.md R76) with the twiddle `i`, and the spec's worked example of it (R78). -/

namespace Sys2Proof.Machine

/-! ### Zeros and products by 0 and -1 -/

theorem isFinite_signedZero (neg : Bool) : IsFinite (signedZero neg) := by cases neg <;> exact ⟨rfl, rfl⟩

theorem fMag_signedZero (neg : Bool) : fMag (signedZero neg) = 0 := by cases neg <;> rfl

theorem fInt_signedZero (neg : Bool) : fInt (signedZero neg) = 0 := by cases neg <;> rfl

theorem fRound_zero (neg : Bool) {d : Nat} (hd : 0 < d) : fRound neg 0 d = signedZero neg :=
  fRound_exact (isFinite_signedZero neg) (by cases neg <;> rfl) hd (by rw [fMag_signedZero, Nat.zero_mul])

theorem fAdd_signedZero_left (d : Draw) (neg : Bool) {x : F64} (hx : IsFinite x) (h0 : fMag x ≠ 0) :
    fAdd d (signedZero neg) x = x :=
  fAdd_exact d (isFinite_signedZero neg) hx hx h0 (by rw [fInt_signedZero, zero_add])

theorem fAdd_signedZero_right (d : Draw) (neg : Bool) {x : F64} (hx : IsFinite x) (h0 : fMag x ≠ 0) :
    fAdd d x (signedZero neg) = x :=
  fAdd_exact d hx (isFinite_signedZero neg) hx h0 (by rw [fInt_signedZero, add_zero])

theorem fMul_fZero (d : Draw) {x : F64} (hx : IsFinite x) : fMul d x fZero = signedZero (fSign x) := by
  rw [fMul_finite d hx ⟨rfl, rfl⟩, (fMag_eq_zero_iff fZero).mpr rfl, Nat.mul_zero, fRound_zero _ (by positivity)]
  exact congrArg signedZero (Bool.bne_false _)

theorem fMag_fOne : fMag fOne = 2 ^ 1074 := by
  rw [fMag_eq, show fBits fOne = 1022 * 2 ^ 52 + 2 ^ 52 from rfl, magOf_of_significand (by norm_num) (.inr le_rfl),
    show 1074 = 52 + 1022 from rfl, Nat.pow_add]

theorem fMul_fNeg_fOne (d : Draw) {x : F64} (hx : IsFinite x) : fMul d x (fNeg fOne) = fNeg x := by
  have hone : IsFinite fOne := ⟨rfl, rfl⟩
  rw [fMul_finite d hx hone.fNeg, fMag_fNeg, fMag_fOne]
  refine fRound_exact hx.fNeg ?_ (by positivity) (by rw [fMag_fNeg])
  rw [fSign_fNeg, fSign_fNeg]; exact Bool.bne_true _

/-! ### The butterfly -/

/-- The butterfly with the twiddle `i`: its conjugate turns `(re, im)` into `(im, -re)`, exactly. -/
theorem butterfly_i (d : Draw) (a b : Cplx) (hre : IsFinite b.re) (hre0 : fMag b.re ≠ 0) (him : IsFinite b.im)
    (him0 : fMag b.im ≠ 0) :
    butterfly d a b ⟨fZero, fOne⟩ = (cAdd (1 :: d) a ⟨b.im, fNeg b.re⟩, cSub (2 :: d) a ⟨b.im, fNeg b.re⟩) := by
  have hturn : cMul (0 :: d) b (cConj ⟨fZero, fOne⟩) = ⟨b.im, fNeg b.re⟩ := by
    simp only [cMul, cConj]
    rw [fMul_fZero _ hre, fMul_fZero _ him, fMul_fNeg_fOne _ hre, fMul_fNeg_fOne _ him, fSub_fNeg,
      fAdd_signedZero_left _ _ him him0, fAdd_signedZero_right _ _ hre.fNeg (by rwa [fMag_fNeg])]
  rw [butterfly, hturn]

/-- Settles O49: the ROM entry is `i`, so the outputs are the exact sums `1 + 4`, `2 - 3`, `1 - 4` and `2 + 3`. -/
theorem butterflyWorkedExample : Obligations.ButterflyWorkedExample := by
  intro c d
  have hrom : romRead c 4 1 = ⟨fZero, fOne⟩ := rfl
  rw [hrom, butterfly_i d _ _ ⟨rfl, rfl⟩ (by decide +kernel) ⟨rfl, rfl⟩ (by decide +kernel)]
  simp only [cAdd, cSub, fSub_fNeg]
  refine congrArg₂ Prod.mk (congrArg₂ Cplx.mk ?_ ?_) (congrArg₂ Cplx.mk ?_ ?_)
  all_goals exact fAdd_exact _ ⟨rfl, rfl⟩ ⟨rfl, rfl⟩ ⟨rfl, rfl⟩ (by decide +kernel) (by decide +kernel)

end Sys2Proof.Machine
end

section
/-! The commands that read LEN complex elements and write LEN complex elements (30_encoding.md R67). -/

namespace Sys2Proof.Machine

theorem cAt_complexInput {s : State} {k : Nat} (hk : k < s.len.toNat) :
    cAt (complexInput s) k = ⟨memRead s (s.srcRe.toNat + 8 * k), memRead s (s.srcIm.toNat + 8 * k)⟩ :=
  cAt_tabulate hk _

section
variable {s : State} {i : Instr} (hin : declaredInput s i = .complex s.len.toNat)
  (hout : declaredOutput s i = .complex s.len.toNat)
include hin hout

/-- With checks 2 to 4 passed, legal buffers that are apart pass checks 5 and 6. -/
theorem complexToComplex_passes (hempty : ¬EmptyFails s i) (hodd : ¬OddFails s i) (hlen : ¬LengthFails s i)
    (hsrc : SourceOk s s.len.toNat) (hdst : DestOk s s.len.toNat) : failedCheck s (checksOf s i) = none := by
  obtain ⟨hsre, hsim⟩ := hsrc
  obtain ⟨hdre, hdim, hapart⟩ := hdst
  refine (failedCheck_eq_none_iff_passes s i).mpr ⟨hempty, hodd, hlen, ?_, ?_⟩
  · simp [AddressFails, usedBuffers, hin, hout, hsre, hsim, hdre, hdim]
  · simp [OverlapFails, hout, hapart]

/-- Such a command writes its result, and `OUTCNT` is `LEN`. -/
theorem exec_complexToComplex {y : List Cplx} (hempty : ¬EmptyFails s i) (hodd : ¬OddFails s i)
    (hlen : ¬LengthFails s i) (hsrc : SourceOk s s.len.toNat) (hdst : DestOk s s.len.toNat)
    (hy : resultOf s [s.nanCtr] i = .complex y) :
    ∃ t, exec i s = .next t ∧ t.outcnt = s.len ∧ WroteComplex s t y := by
  have hc := complexToComplex_passes hin hout hempty hodd hlen hsrc hdst
  have hshape := resultOf_shape hc [s.nanCtr]
  rw [hy, checksOf_output, hout] at hshape
  have hcount : y.length = s.len.toNat := OutShape.complex.inj hshape
  obtain ⟨t, hexec, hwrote⟩ := exec_writesComplex hc hy
  refine ⟨t, hexec, ?_, hwrote⟩
  rw [hwrote.done.outcnt, hcount, BitVec.ofNat_toNat, BitVec.setWidth_eq]

end

end Sys2Proof.Machine
end

section
/-! One pass of butterflies (41_radix2.md R84): its pairs are apart, so each butterfly reads the pass's input. -/

namespace Sys2Proof.Machine

/-! ### The butterfly and its twiddle -/

theorem butterfly_eq (d : Draw) (ai aj w : Cplx) :
    butterfly d ai aj w =
      (cAdd (1 :: d) ai (cMul (0 :: d) aj (cConj w)), cSub (2 :: d) ai (cMul (0 :: d) aj (cConj w))) := rfl

/-- The butterfly's outputs with any draw `e` in place of its own (40_units.md R76, 00_scope.md R11). -/
theorem butterfly_sameC (d e : Draw) (ai aj w : Cplx) :
    SameC (butterfly d ai aj w).1 (cAdd e ai (cMul e aj (cConj w))) ∧
    SameC (butterfly d ai aj w).2 (cSub e ai (cMul e aj (cConj w))) := by
  have ht := cMul_same (0 :: d) e (.refl aj) (.refl (cConj w))
  rw [butterfly_eq]
  exact ⟨cAdd_same _ _ (.refl ai) ht, cSub_same _ _ (.refl ai) ht⟩

/-- A pass of half-width `2^t` on `2^s` elements has `2^(s-1-t)` pairs in each group. -/
theorem two_pow_div_two_mul_two_pow {s t : Nat} (h : t < s) : 2 ^ s / (2 * 2 ^ t) = 2 ^ (s - 1 - t) := by
  rw [← Nat.pow_succ', Nat.pow_div h (by norm_num)]
  congr 1
  omega

/-- `TW(2^s, 2^t, m)` (40_units.md R75). -/
theorem twiddle_two_pow (c : Config) {s t : Nat} (h : t < s) (m : Nat) :
    twiddle c (2 ^ s) (2 ^ t) m = trig c (m * 2 ^ (s - 1 - t)) (2 ^ s) := by
  rw [twiddle, two_pow_div_two_mul_two_pow h, romRead_eq_trig c ⟨s, rfl⟩]

/-! ### Butterflies on pairs that are apart -/

theorem cAt_set_ne {i k : Nat} (h : i ≠ k) (x : List Cplx) (v : Cplx) : cAt (x.set i v) k = cAt x k := by
  simp only [cAt, List.getD_eq_getElem?_getD, List.getElem?_set_ne h]

theorem cAt_stagePair_of_ne {i k mMax : Nat} (h1 : i ≠ k) (h2 : i + mMax ≠ k) (d : Draw) (w : Cplx) (b : List Cplx) :
    cAt (stagePair d w mMax b i) k = cAt b k := by
  rw [stagePair, cAt_set_ne h2, cAt_set_ne h1]

theorem cAt_stagePair_pair {i mMax : Nat} {b : List Cplx} (h0 : 0 < mMax) (hi : i + mMax < b.length) (d : Draw)
    (w : Cplx) :
    (cAt (stagePair d w mMax b i) i, cAt (stagePair d w mMax b i) (i + mMax)) =
      butterfly (i :: d) (cAt b i) (cAt b (i + mMax)) w := by
  rw [stagePair, cAt_set_ne (by omega), cAt_set (by omega), if_pos rfl, cAt_set (by rw [List.length_set]; exact hi),
    if_pos rfl]

section
variable {β : Type} (d : Draw) (mMax : Nat) (w : β → Cplx) (f : β → Nat)

/-- The butterflies of the pairs `(f p, f p + mMax)` with the twiddles `w p`, one after the other. -/
def stagePairs (l : List β) (b : List Cplx) : List Cplx := l.foldl (fun b p => stagePair d (w p) mMax b (f p)) b

/-- The pairs that start at `i` and at `j` share no element. -/
def PairsApart (i j : Nat) : Prop := i ≠ j ∧ i ≠ j + mMax ∧ i + mMax ≠ j

variable {d mMax w f}

theorem stagePairs_cons (p : β) (l : List β) (b : List Cplx) :
    stagePairs d mMax w f (p :: l) b = stagePairs d mMax w f l (stagePair d (w p) mMax b (f p)) := rfl

/-- An element of no pair keeps its value. -/
theorem cAt_stagePairs_of_ne {l : List β} {k : Nat} (h : ∀ p ∈ l, f p ≠ k ∧ f p + mMax ≠ k) :
    ∀ b : List Cplx, cAt (stagePairs d mMax w f l b) k = cAt b k := by
  induction l with
  | nil => exact fun b => rfl
  | cons p l ih =>
    intro b
    obtain ⟨⟨hlow, hhigh⟩, hl⟩ := List.forall_mem_cons.mp h
    rw [stagePairs_cons, ih hl, cAt_stagePair_of_ne hlow hhigh]

/-- Each pair ends as the butterfly of what it held before the first one: no other pair's butterfly writes to it. -/
theorem cAt_stagePairs_pair (h0 : 0 < mMax) {l : List β} (hl : l.Pairwise fun p q => PairsApart mMax (f p) (f q))
    {p : β} (hp : p ∈ l) : ∀ {b : List Cplx}, f p + mMax < b.length →
    (cAt (stagePairs d mMax w f l b) (f p), cAt (stagePairs d mMax w f l b) (f p + mMax)) =
      butterfly (f p :: d) (cAt b (f p)) (cAt b (f p + mMax)) (w p) := by
  induction l with
  | nil => cases hp
  | cons q l ih =>
    intro b hb
    obtain ⟨hq, hl⟩ := List.pairwise_cons.mp hl
    rw [stagePairs_cons]
    rcases List.mem_cons.mp hp with rfl | hp
    · have hlow : ∀ q ∈ l, f q ≠ f p ∧ f q + mMax ≠ f p := fun q hmem =>
        have ⟨hne, h, _⟩ := hq q hmem
        ⟨hne.symm, h.symm⟩
      have hhigh : ∀ q ∈ l, f q ≠ f p + mMax ∧ f q + mMax ≠ f p + mMax := fun q hmem =>
        have ⟨hne, _, h⟩ := hq q hmem
        ⟨h.symm, fun heq => hne (Nat.add_right_cancel heq).symm⟩
      rw [cAt_stagePairs_of_ne hlow, cAt_stagePairs_of_ne hhigh, cAt_stagePair_pair h0 hb]
    · obtain ⟨hne, hlow, hhigh⟩ := hq p hp
      rw [ih hl hp (by rwa [length_stagePair]), cAt_stagePair_of_ne hne hhigh,
        cAt_stagePair_of_ne hlow (fun h => hne (Nat.add_right_cancel h))]

end

/-! ### The pairs of a pass -/

/-- The pairs of a pass in the reference order: the group and the place in it. -/
def passPairs (n mMax : Nat) : List (Nat × Nat) := List.range mMax ×ˢ List.range (n / (2 * mMax))

theorem mem_passPairs {n mMax m k : Nat} : (m, k) ∈ passPairs n mMax ↔ m < mMax ∧ k < n / (2 * mMax) := by
  rw [passPairs, List.mem_product, List.mem_range, List.mem_range]

theorem stage_eq_stagePairs (c : Config) (d : Draw) (a : List Cplx) (mMax : Nat) :
    stage c d a mMax =
      stagePairs d mMax (fun p : Nat × Nat => twiddle c a.length mMax p.1) (fun p => p.1 + 2 * mMax * p.2)
        (passPairs a.length mMax) a := by
  simp only [stagePairs, passPairs, SProd.sprod, List.product, List.foldl_flatMap, List.foldl_map]
  rfl

/-- The low elements of two pairs differ in their group or in their place, and a high element's remainder by `2 * mMax`
is that of no low one. -/
theorem pairsApart_of_ne {mMax m m' k k' : Nat} (hm : m < mMax) (hm' : m' < mMax) (h : (m, k) ≠ (m', k')) :
    PairsApart mMax (m + 2 * mMax * k) (m' + 2 * mMax * k') := by
  have hmod {r : Nat} (hr : r < 2 * mMax) (q : Nat) : (r + 2 * mMax * q) % (2 * mMax) = r := by
    rw [Nat.add_mul_mod_self_left, Nat.mod_eq_of_lt hr]
  have hunique {r r' q q' : Nat} (hr : r < 2 * mMax) (hr' : r' < 2 * mMax)
      (heq : r + 2 * mMax * q = r' + 2 * mMax * q') : r = r' := by
    rw [← hmod hr q, heq, hmod hr' q']
  refine ⟨fun heq => h ?_, fun heq => ?_, fun heq => ?_⟩
  · obtain rfl : m = m' := hunique (by omega) (by omega) heq
    rw [Nat.eq_of_mul_eq_mul_left (by omega) (Nat.add_left_cancel heq)]
  · have : m = m' + mMax := hunique (q := k) (q' := k') (by omega) (by omega) (by omega)
    omega
  · have : m + mMax = m' := hunique (q := k) (q' := k') (by omega) (by omega) (by omega)
    omega

theorem pairwise_passPairs (n mMax : Nat) :
    (passPairs n mMax).Pairwise fun p q => PairsApart mMax (p.1 + 2 * mMax * p.2) (q.1 + 2 * mMax * q.2) := by
  refine List.Nodup.pairwise_of_forall_ne (List.nodup_range.product List.nodup_range) ?_
  rintro ⟨m, k⟩ hp ⟨m', k'⟩ hq hne
  exact pairsApart_of_ne (mem_passPairs.mp hp).1 (mem_passPairs.mp hq).1 hne

/-- The last element of a pass's pair is inside the sequence. -/
theorem passPair_lt {n mMax m k : Nat} (hm : m < mMax) (hk : k < n / (2 * mMax)) : m + 2 * mMax * k + mMax < n := by
  have hle : 2 * mMax * (k + 1) ≤ n := (Nat.mul_le_mul_left _ hk).trans (Nat.mul_div_le n (2 * mMax))
  rw [Nat.mul_succ] at hle
  omega

/-- A pass leaves in each pair the butterfly of the pair's input values (41_radix2.md R84). -/
theorem cAt_stage_pair (c : Config) (d : Draw) {a : List Cplx} {mMax m k : Nat} (hm : m < mMax)
    (hk : k < a.length / (2 * mMax)) :
    (cAt (stage c d a mMax) (m + 2 * mMax * k), cAt (stage c d a mMax) (m + 2 * mMax * k + mMax)) =
      butterfly ((m + 2 * mMax * k) :: d) (cAt a (m + 2 * mMax * k)) (cAt a (m + 2 * mMax * k + mMax))
        (twiddle c a.length mMax m) := by
  rw [stage_eq_stagePairs]
  exact cAt_stagePairs_pair (Nat.zero_lt_of_lt hm) (pairwise_passPairs _ _) (mem_passPairs.mpr ⟨hm, hk⟩)
    (passPair_lt hm hk)

/-- Settles O53: the pairs of a pass are apart, and the twiddle of a group is the ROM's entry. -/
theorem stageAppliesEachButterflyOnce : Obligations.StageAppliesEachButterflyOnce := by
  refine ⟨butterfly_sameC, fun c s k _ _ => romRead_eq_trig c ⟨s, rfl⟩ k, fun c d a s t k m ha ht hm hk => ?_⟩
  refine ⟨twiddle_two_pow c ht m, (length_stage c d a _).trans ha, ?_⟩
  rw [cAt_stage_pair c d hm (by rwa [ha, two_pow_div_two_mul_two_pow ht]), ha, twiddle_two_pow c ht m]

end Sys2Proof.Machine
end

section
/-! The commands BITREV, BFSTAGE and R2FFT (41_radix2.md R85 to R89). -/

namespace Sys2Proof.Machine

/-! ### BITREV -/

/-- The length check of R2FFT and BITREV passes for a power of two up to NMAX. -/
theorem not_powerOfTwo_or_lt {s : State} (hp : IsPowerOfTwo s.len.toNat) (hn : s.len.toNat ≤ s.cfg.nmax) :
    ¬(¬IsPowerOfTwo s.len.toNat ∨ s.cfg.nmax < s.len.toNat) :=
  not_or_intro (not_not_intro hp) (Nat.not_lt.mpr hn)

theorem exec_bitrev {s : State} (hp : IsPowerOfTwo s.len.toNat) (hn : s.len.toNat ≤ s.cfg.nmax)
    (hsrc : SourceOk s s.len.toNat) (hdst : DestOk s s.len.toNat) :
    ∃ t, exec .bitrev s = .next t ∧ t.outcnt = s.len ∧ WroteComplex s t (bitRevPermute (complexInput s)) :=
  exec_complexToComplex (i := .bitrev) rfl rfl id id (not_powerOfTwo_or_lt hp hn) hsrc hdst rfl

/-- Settles O33: the output is the permuted input, whose element at `rev_b(k)` is the input's element `k`. -/
theorem bitrevMovesToReversedIndex : Obligations.BitrevMovesToReversedIndex := by
  refine ⟨fun s b hb hn hsrc hdst => ?_, failsAsListed .bitrev⟩
  have hlen : (complexInput s).length = 2 ^ b := (length_complexInput s).trans hb
  obtain ⟨-, hmoved, -⟩ := bitReversalPermutes b (complexInput s) hlen
  obtain ⟨t, hexec, hcount, hwrote⟩ := exec_bitrev ⟨b, hb⟩ hn hsrc hdst
  refine ⟨t, _, hexec, hcount, hwrote, (length_bitRevPermute _).trans (length_complexInput s), fun k hk => ?_⟩
  rw [hmoved k (hb ▸ hk), cAt_complexInput hk]

/-! ### BFSTAGE -/

theorem exec_bfstage {s : State} {t : Nat} (hp : IsPowerOfTwo s.len.toNat) (hn : s.len.toNat ≤ s.cfg.nmax)
    (ht : 2 ^ t < s.len.toNat) (hsrc : SourceOk s s.len.toNat) (hdst : DestOk s s.len.toNat) :
    ∃ u, exec (.bfstage t) s = .next u ∧ u.outcnt = s.len ∧
      WroteComplex s u (stage s.cfg [s.nanCtr] (complexInput s) (2 ^ t)) := by
  have hone : 1 ≤ 2 ^ t := Nat.one_le_two_pow
  have hlen : ¬LengthFails s (.bfstage t) := by
    rintro (h | h | h | h)
    · exact h hp
    all_goals omega
  exact exec_complexToComplex (i := .bfstage t) rfl rfl id id hlen hsrc hdst rfl

/-- Settles O34: the checks pass, and the result is the pass. -/
theorem bfstageWritesOnePass : Obligations.BfstageWritesOnePass :=
  fun t => ⟨fun _ hp hn ht hsrc hdst => exec_bfstage hp hn ht hsrc hdst, failsAsListed (.bfstage t)⟩

/-! ### The radix-2 transform -/

/-- `R2` of `2^b` elements is the bit-reversal and then the `b` passes; for `b = 0` it is a copy, as they are. -/
theorem r2_eq_passes (c : Config) (d : Draw) {b : Nat} {x : List Cplx} (hx : x.length = 2 ^ b) :
    r2 c d x = (List.range b).foldl (fun a t => stage c (t :: d) a (2 ^ t)) (bitRevPermute x) := by
  rw [r2, hx, Nat.log2_two_pow]
  split
  · next hone =>
    obtain rfl : b = 0 := by simpa using hone
    refine ext_cAt (length_bitRevPermute x).symm fun k hk => ?_
    obtain rfl : k = 0 := by omega
    exact (cAt_bitRevPermute hx Nat.one_pos).symm
  · rfl

/-- The passes with any draws in place of the transform's own (41_radix2.md R85, 00_scope.md R11). -/
theorem r2_same_passes (c : Config) (d : Draw) (e : Nat → Draw) {b : Nat} {x : List Cplx} (hx : x.length = 2 ^ b) :
    SameSeq (r2 c d x) ((List.range b).foldl (fun a t => stage c (e t) a (2 ^ t)) (bitRevPermute x)) := by
  rw [r2_eq_passes c d hx]
  exact foldl_same _ (fun _ _ t h => stage_same c (t :: d) (e t) h (2 ^ t)) (.refl _)

theorem exec_r2fft {s : State} (hp : IsPowerOfTwo s.len.toNat) (hn : s.len.toNat ≤ s.cfg.nmax)
    (hsrc : SourceOk s s.len.toNat) (hdst : DestOk s s.len.toNat) :
    ∃ t, exec .r2fft s = .next t ∧ t.outcnt = s.len ∧ WroteComplex s t (r2 s.cfg [s.nanCtr] (complexInput s)) :=
  exec_complexToComplex (i := .r2fft) rfl rfl id id (not_powerOfTwo_or_lt hp hn) hsrc hdst rfl

/-! ### The passes as commands, in place (41_radix2.md R86) -/

theorem HostOwnedUnchanged.refl (s : State) : HostOwnedUnchanged s s := by constructor <;> rfl

theorem HostOwnedUnchanged.trans {s t u : State} (h : HostOwnedUnchanged s t) (h' : HostOwnedUnchanged t u) :
    HostOwnedUnchanged s u :=
  ⟨h'.cfg.trans h.cfg, h'.ie.trans h.ie, h'.cmd.trans h.cmd, h'.len.trans h.len, h'.outlen.trans h.outlen,
    h'.srcRe.trans h.srcRe, h'.srcIm.trans h.srcIm, h'.dstRe.trans h.dstRe, h'.dstIm.trans h.dstIm,
    h'.agenda.trans h.agenda, h'.resp.trans h.resp, h'.epoch.trans h.epoch⟩

theorem DestOk.of_hostOwned {s t : State} {n : Nat} (h : DestOk s n) (ht : HostOwnedUnchanged s t) : DestOk t n := by
  simpa only [DestOk, BufferOk, ht.cfg, ht.dstRe, ht.dstIm] using h

/-- The operand registers are set for passes of BFSTAGE in place: the source is the destination. -/
structure InPlace (s : State) : Prop where
  re : s.srcRe = s.dstRe
  im : s.srcIm = s.dstIm
  pow : IsPowerOfTwo s.len.toNat
  nmax : s.len.toNat ≤ s.cfg.nmax
  dest : DestOk s s.len.toNat

theorem InPlace.source {s : State} (h : InPlace s) : SourceOk s s.len.toNat := by
  obtain ⟨hre, him, -⟩ := h.dest
  exact ⟨h.re ▸ hre, h.im ▸ him⟩

theorem InPlace.of_hostOwned {s t : State} (h : InPlace s) (ht : HostOwnedUnchanged s t) : InPlace t := by
  constructor
  case re => rw [ht.srcRe, ht.dstRe, h.re]
  case im => rw [ht.srcIm, ht.dstIm, h.im]
  case pow => rw [ht.len]; exact h.pow
  case nmax => rw [ht.len, ht.cfg]; exact h.nmax
  case dest => rw [ht.len]; exact h.dest.of_hostOwned ht

/-- The host points the source registers at the destination, so that the next command reads what this one wrote. -/
def sourceAtDest (s : State) : State := { s with srcRe := s.dstRe, srcIm := s.dstIm }

theorem InPlace.sourceAtDest_eq {s : State} (h : InPlace s) : sourceAtDest s = s :=
  congrArg₂ (fun re im => { s with srcRe := re, srcIm := im }) h.re.symm h.im.symm

theorem HostOwnedUnchanged.sourceAtDest {s t : State} (h : HostOwnedUnchanged s t) :
    HostOwnedUnchanged (sourceAtDest s) (sourceAtDest t) :=
  { h with srcRe := h.dstRe, srcIm := h.dstIm }

theorem complexInput_sourceAtDest {s t : State} {y : List Cplx} (h : WroteComplex s t y) (hy : y.length = s.len.toNat) :
    complexInput (sourceAtDest t) = y := by
  have hlen : t.len.toNat = y.length := by rw [h.done.host.len, hy]
  refine ext_cAt ((length_complexInput _).trans hlen) fun k hk => ?_
  rw [length_complexInput] at hk
  have hk' : k < y.length := hlen ▸ hk
  calc cAt (complexInput (sourceAtDest t)) k
      = ⟨memRead t (t.dstRe.toNat + 8 * k), memRead t (t.dstIm.toNat + 8 * k)⟩ := cAt_complexInput hk
    _ = ⟨(cAt y k).re, (cAt y k).im⟩ := by rw [h.done.host.dstRe, h.done.host.dstIm, h.re k hk', h.im k hk']

theorem execAll_cons_of_next {i : Instr} {s t : State} (h : exec i s = .next t) (l : List Instr) :
    execAll (i :: l) s = execAll l t := by
  rw [execAll, h]

/-- `v` is `s` after the passes `ts` in place, one command each, with the sequence `y` left in the buffers up to NaN
encodings. -/
structure RanPasses (s v : State) (ts : List Nat) (y : List Cplx) : Prop where
  exec : execAll (ts.map .bfstage) s = .next v
  host : HostOwnedUnchanged s v
  result : SameSeq (complexInput v) y
  frame : ∀ a, ¬InBuffer a s.dstRe s.len.toNat → ¬InBuffer a s.dstIm s.len.toNat → readByte v a = readByte s a

/-- BFSTAGE commands in place compose the passes, whatever NaN encodings are drawn. -/
theorem InPlace.ranPasses (e : Nat → Draw) {ts : List Nat} : ∀ {s : State} {x : List Cplx}, InPlace s →
    (∀ t ∈ ts, 2 ^ t < s.len.toNat) → SameSeq (complexInput s) x →
    ∃ v, RanPasses s v ts (ts.foldl (fun a t => stage s.cfg (e t) a (2 ^ t)) x) := by
  induction ts with
  | nil => exact fun {s} _ _ _ hx => ⟨s, rfl, .refl s, hx, fun _ _ _ => rfl⟩
  | cons t ts ih =>
    intro s x hs ht hx
    obtain ⟨ht, hts⟩ := List.forall_mem_cons.mp ht
    obtain ⟨u, hexec, -, hwrote⟩ := exec_bfstage hs.pow hs.nmax ht hs.source hs.dest
    have hhost := hwrote.done.host
    have hcount : (stage s.cfg [s.nanCtr] (complexInput s) (2 ^ t)).length = s.len.toNat := by
      rw [length_stage, length_complexInput]
    have hu : SameSeq (complexInput u) (stage s.cfg (e t) x (2 ^ t)) := by
      rw [← (hs.of_hostOwned hhost).sourceAtDest_eq, complexInput_sourceAtDest hwrote hcount]
      exact stage_same s.cfg _ (e t) hx (2 ^ t)
    obtain ⟨v, hv⟩ := ih (hs.of_hostOwned hhost) (hhost.len ▸ hts) hu
    refine ⟨v, (execAll_cons_of_next hexec _).trans hv.exec, hhost.trans hv.host, ?_, fun a hre him => ?_⟩
    · simpa only [List.foldl_cons, hhost.cfg] using hv.result
    · rw [hv.frame a (by rwa [hhost.dstRe, hhost.len]) (by rwa [hhost.dstIm, hhost.len]),
        hwrote.frame a (by rwa [hcount]) (by rwa [hcount])]

/-- BITREV and then the passes `2^0` to `2^(b-1)` in place leave the DMEM that one R2FFT leaves, NaN encodings aside. -/
theorem bitrev_bfstages_same_r2fft {s : State} {b : Nat} (hb : s.len.toNat = 2 ^ b) (hn : s.len.toNat ≤ s.cfg.nmax)
    (hsrc : SourceOk s s.len.toNat) (hdst : DestOk s s.len.toNat) :
    ∃ t u v, exec .r2fft s = .next t ∧ exec .bitrev s = .next u ∧
      execAll ((List.range b).map .bfstage) (sourceAtDest u) = .next v ∧
      (∀ k, k < s.len.toNat →
        SameUpToNaN (memRead v (s.dstRe.toNat + 8 * k)) (memRead t (s.dstRe.toNat + 8 * k)) ∧
        SameUpToNaN (memRead v (s.dstIm.toNat + 8 * k)) (memRead t (s.dstIm.toNat + 8 * k))) ∧
      ∀ a, ¬InBuffer a s.dstRe s.len.toNat → ¬InBuffer a s.dstIm s.len.toNat → readByte v a = readByte t a := by
  have hlen : (complexInput s).length = 2 ^ b := (length_complexInput s).trans hb
  obtain ⟨t, ht, -, hwrote⟩ := exec_r2fft ⟨b, hb⟩ hn hsrc hdst
  obtain ⟨u, hu, -, hwroteU⟩ := exec_bitrev ⟨b, hb⟩ hn hsrc hdst
  have hcount : (r2 s.cfg [s.nanCtr] (complexInput s)).length = s.len.toNat := by rw [length_r2, length_complexInput]
  have hcountU : (bitRevPermute (complexInput s)).length = s.len.toNat := by
    rw [length_bitRevPermute, length_complexInput]
  have hhost : HostOwnedUnchanged (sourceAtDest s) (sourceAtDest u) := hwroteU.done.host.sourceAtDest
  have hplace : InPlace (sourceAtDest s) := ⟨rfl, rfl, ⟨b, hb⟩, hn, hdst⟩
  have hpasses : ∀ j ∈ List.range b, 2 ^ j < (sourceAtDest u).len.toNat := fun j hj => by
    rw [hhost.len]
    exact hb ▸ Nat.pow_lt_pow_right (by norm_num) (List.mem_range.mp hj)
  obtain ⟨v, hv⟩ := (hplace.of_hostOwned hhost).ranPasses (fun j => j :: [s.nanCtr]) hpasses (.refl _)
  have hsame : SameSeq (complexInput v) (r2 s.cfg [s.nanCtr] (complexInput s)) := by
    rw [r2_eq_passes _ _ hlen, ← complexInput_sourceAtDest hwroteU hcountU, ← hwroteU.done.host.cfg]
    exact hv.result
  refine ⟨t, u, v, ht, hu, hv.exec, fun k hk => ?_, fun a hre him => ?_⟩
  · obtain ⟨-, -, -, hlenV, -, hre, him, -⟩ := hhost.trans hv.host
    have hc := hsame.cAt k
    rw [cAt_complexInput (hlenV ▸ hk), hre, him] at hc
    rwa [hwrote.re k (hcount ▸ hk), hwrote.im k (hcount ▸ hk)]
  · have hframe := hwrote.frame a
    have hframeU := hwroteU.frame a
    have hframeV := hv.frame a
    rw [hcount] at hframe
    rw [hcountU] at hframeU
    rw [hhost.dstRe, hhost.dstIm, hhost.len] at hframeV
    calc readByte v a = readByte u a := hframeV hre him
      _ = readByte s a := hframeU hre him
      _ = readByte t a := (hframe hre him).symm

/-- Settles O31: the command's result is `R2`, and `R2` is the passes, as one transform and as commands in place. -/
theorem r2fftWritesTheRadix2Transform : Obligations.R2fftWritesTheRadix2Transform :=
  ⟨fun _ hp hn hsrc hdst => exec_r2fft hp hn hsrc hdst, fun c d e _ _ hx => r2_same_passes c d e hx,
    fun _ _ hb hn hsrc hdst => bitrev_bfstages_same_r2fft hb hn hsrc hdst, failsAsListed .r2fft⟩

end Sys2Proof.Machine
end

section
/-! The chirp and its command CHIRPTAB (42_bluestein.md R91, R98). -/

namespace Sys2Proof.Machine

/-- The phase index is reduced before it is scaled (42_bluestein.md R91). -/
theorem cAt_chirp (c : Config) {n k : Nat} (hk : k < n) : cAt (chirp c n) k = trig c (k * k % (2 * n)) (2 * n) :=
  cAt_tabulate hk _

theorem WroteComplex.outcnt_eq_len {s t : State} {y : List Cplx} (h : WroteComplex s t y)
    (hy : y.length = s.len.toNat) : t.outcnt = s.len := by
  rw [h.done.outcnt, hy, BitVec.ofNat_toNat, BitVec.setWidth_eq]

theorem chirptab_passes {s : State} (hn : s.len.toNat ≤ s.cfg.nmax) (hd : DestOk s s.len.toNat) :
    failedCheck s (checksOf s .chirptab) = none := by
  obtain ⟨hre, him, hapart⟩ := hd
  refine (failedCheck_eq_none_iff_passes s .chirptab).mpr ⟨id, id, Nat.not_lt.mpr hn, ?_, not_not_intro hapart⟩
  simp [AddressFails, usedBuffers, declaredInput, declaredOutput, hre, him]

/-- Settles O36: the checks pass, and the result is the chirp, element by element. -/
theorem chirptabWritesTheChirp : Obligations.ChirptabWritesTheChirp := by
  refine ⟨fun s hn hd => ?_, failsAsListed .chirptab⟩
  obtain ⟨t, hexec, hwrote⟩ := exec_writesComplex (chirptab_passes hn hd) rfl
  have hlen : (chirp s.cfg s.len.toNat).length = s.len.toNat := length_chirp _ _
  exact ⟨t, _, hexec, hwrote.outcnt_eq_len hlen, hwrote, hlen, fun _ hk => cAt_chirp s.cfg hk⟩

end Sys2Proof.Machine
end

section
/-! The working size and the kernel of the Bluestein wrapper (42_bluestein.md R90, R93). -/

namespace Sys2Proof.Machine

/-! ### The working size -/

theorem isPowerOfTwo_bluesteinSize (n : Nat) : IsPowerOfTwo (bluesteinSize n) := ⟨_, rfl⟩

/-- `BSM(n)` is the least power of two above `2n - 4`. -/
theorem bluesteinSize_le_two_pow_iff {n k : Nat} (hn : 3 ≤ n) : bluesteinSize n ≤ 2 ^ k ↔ 2 * n - 4 < 2 ^ k := by
  rw [bluesteinSize, Nat.pow_le_pow_iff_right (by norm_num), Nat.succ_le_iff, Nat.log2_lt (by omega)]

/-- Both sides are even, so `BSM(n)` is past `2n - 4` by at least 2. -/
theorem two_mul_sub_two_le_bluesteinSize {n : Nat} (hn : 3 ≤ n) : 2 * n - 2 ≤ bluesteinSize n := by
  have hlt : 2 * n - 4 < bluesteinSize n := (bluesteinSize_le_two_pow_iff hn).mp le_rfl
  have heven : bluesteinSize n = 2 * 2 ^ Nat.log2 (2 * n - 4) := Nat.pow_succ'
  omega

/-- Settles O54: each bound is the one characterization of the powers of two not below `BSM(n)`. -/
theorem workingSizeIsSmallestPowerOfTwo : Obligations.WorkingSizeIsSmallestPowerOfTwo := by
  intro n hn
  have hle := two_mul_sub_two_le_bluesteinSize hn
  refine ⟨isPowerOfTwo_bluesteinSize n, by omega, hle, fun k hk => ?_, fun c hc => ?_⟩
  · exact (bluesteinSize_le_two_pow_iff hn).mpr (by omega)
  · have hmmax : c.mmax = 2 * c.nmax := Nat.pow_succ'
    exact (bluesteinSize_le_two_pow_iff hn).mpr (show 2 * n - 4 < c.mmax by omega)

/-! ### The kernel -/

/-- Writes of `f 0, …, f (n-1)` from index `i` on replace those elements only. -/
theorem cAt_foldl_set (i : Nat) (f : Nat → Cplx) {n : Nat} {b : List Cplx} (h : i + n ≤ b.length) (p : Nat) :
    cAt ((List.range n).foldl (fun b j => b.set (i + j) (f j)) b) p =
      if i ≤ p ∧ p < i + n then f (p - i) else cAt b p := by
  induction n with
  | zero => rw [if_neg (by omega)]; rfl
  | succ n ih =>
    have hlen := length_foldl (fun b j => b.set (i + j) (f j)) (fun _ _ => List.length_set) (List.range n) b
    rw [List.range_succ, List.foldl_append, List.foldl_cons, List.foldl_nil, cAt_set (by omega), ih (by omega)]
    by_cases hp : i + n = p
    · rw [if_pos hp, if_pos (by omega), ← hp, Nat.add_sub_cancel_left]
    · exact (if_neg hp).trans (if_congr (by omega) rfl rfl)

theorem cAt_replicate_cZero (m p : Nat) : cAt (List.replicate m cZero) p = cZero := by
  rw [cAt, List.getD_eq_getElem?_getD, List.getElem?_replicate]
  split_ifs <;> rfl

/-- The chirp at `0 .. n-1` of a buffer of zeros (42_bluestein.md R93, the first writes). -/
theorem cAt_chirp_writes {ch : List Cplx} {m : Nat} (h : ch.length ≤ m) (p : Nat) :
    cAt ((List.range ch.length).foldl (fun b k => b.set k (cAt ch k)) (List.replicate m cZero)) p =
      if p < ch.length then cAt ch p else cZero := by
  have hset := cAt_foldl_set 0 (cAt ch) (n := ch.length) (b := List.replicate m cZero) (by simpa using h) p
  simpa [cAt_replicate_cZero] using hset

/-- Settles O55: the later writes are the mirror's, at `m-n+1 .. m-1`; below them the first writes stand. -/
theorem kernelIsWrittenInTwoPasses : Obligations.KernelIsWrittenInTwoPasses := by
  intro ch m hn _ hnm
  have hzeros : ((List.range ch.length).foldl (fun b k => b.set k (cAt ch k)) (List.replicate m cZero)).length = m := by
    rw [length_foldl _ fun _ _ => List.length_set, List.length_replicate]
  refine ext_cAt ?_ fun p hp => ?_
  · rw [length_foldl _ fun _ _ => List.length_set, hzeros, bluesteinB, length_tabulate]
  rw [bluesteinB, length_tabulate] at hp
  rw [bluesteinB, cAt_tabulate hp, cAt_foldl_set _ _ (by omega), cAt_chirp_writes hnm]
  by_cases hmirror : m - ch.length + 1 ≤ p
  · rw [if_pos hmirror, if_pos (by omega), Nat.add_sub_cancel' hmirror]
  · exact (if_neg hmirror).trans (if_neg fun h => hmirror h.1).symm

end Sys2Proof.Machine
end

section
/-! Powers of two as binary64 values: their reciprocals are exact, and a product by one is the division (42_bluestein.md
R94). -/

namespace Sys2Proof.Machine

/-! ### Fractions that are not reduced -/

theorem roundQuot_mul_right (n d : Nat) {c : Nat} (hc : 0 < c) : roundQuot (n * c) (d * c) = roundQuot n d := by
  have hlt : d * c < 2 * (n % d * c) ↔ d < 2 * (n % d) := by rw [← Nat.mul_assoc, Nat.mul_lt_mul_right hc]
  have heq : 2 * (n % d * c) = d * c ↔ 2 * (n % d) = d := by rw [← Nat.mul_assoc, Nat.mul_left_inj hc.ne']
  simp only [roundQuot, Nat.mul_div_mul_right _ _ hc, Nat.mul_mod_mul_right, hlt, heq]

/-- Rounding depends on the quotient only. -/
theorem fRound_mul_right (s : Bool) (n d : Nat) {c : Nat} (hc : 0 < c) : fRound s (n * c) (d * c) = fRound s n d := by
  simp only [fRound, roundMag, Nat.mul_div_mul_right _ _ hc, Nat.mul_right_comm d c, roundQuot_mul_right _ _ hc]

theorem fRound_mul_two_pow_sub (s : Bool) (n : Nat) {u k : Nat} (hk : k ≤ u) :
    fRound s (n * 2 ^ (u - k)) (2 ^ u) = fRound s (n * 2 ^ u) (2 ^ (u + k)) := by
  have hn : n * 2 ^ u = n * 2 ^ (u - k) * 2 ^ k := by rw [Nat.mul_assoc, ← Nat.pow_add, Nat.sub_add_cancel hk]
  rw [hn, Nat.pow_add, fRound_mul_right _ _ _ (Nat.two_pow_pos k)]

/-! ### Powers of two -/

/-- `2^e` units of 2^-1074, a normal binary64 value for `e` from 52 to 2097. -/
def unitPow (e : Nat) : F64 := fPack false ((e - 52) * 2 ^ 52 + 2 ^ 52)

section
variable {e : Nat} (hlo : 52 ≤ e) (hhi : e ≤ 2097)

include hhi in
theorem fBits_unitPow : fBits (unitPow e) = (e - 52) * 2 ^ 52 + 2 ^ 52 := fBits_fPack _ (by omega)

include hhi in
theorem fSign_unitPow : fSign (unitPow e) = false := fSign_fPack _ (by omega)

include hhi in
theorem isFinite_unitPow : IsFinite (unitPow e) := by
  rw [isFinite_iff, fBits_unitPow hhi, fInfBits]; omega

include hlo hhi in
theorem fMag_unitPow : fMag (unitPow e) = 2 ^ e := by
  rw [fMag_eq, fBits_unitPow hhi, magOf_of_significand (by norm_num) (.inr le_rfl), ← Nat.pow_add,
    Nat.add_sub_cancel' hlo]

include hlo hhi in
theorem fMag_unitPow_ne_zero : fMag (unitPow e) ≠ 0 := by
  rw [fMag_unitPow hlo hhi]; exact (Nat.two_pow_pos e).ne'

include hlo hhi in
theorem realOf_unitPow : realOf (unitPow e) = 2 ^ e / 2 ^ 1074 := by
  rw [realOf, fInt, fSign_unitPow hhi, fMag_unitPow hlo hhi, if_neg Bool.false_ne_true, Nat.cast_pow, Int.cast_pow]
  rfl

include hlo hhi in
/-- A quotient that is a power of two is that power of two. -/
theorem fRound_eq_unitPow {n d : Nat} (hd : 0 < d) (hn : n = 2 ^ e * d) : fRound false n d = unitPow e :=
  fRound_exact (isFinite_unitPow hhi) (fSign_unitPow hhi).symm hd (by rw [hn, fMag_unitPow hlo hhi])

end

/-! ### Division by a power of two -/

section
variable {k : Nat} (hk : k ≤ 1022)
include hk

theorem fOfNat_two_pow : fOfNat (2 ^ k) = unitPow (1074 + k) :=
  fRound_eq_unitPow (by omega) (by omega) one_pos (by rw [Nat.mul_one, Nat.pow_add, Nat.mul_comm])

theorem fDiv_fOne_two_pow (d : Draw) : fDiv d fOne (unitPow (1074 + k)) = unitPow (1074 - k) := by
  have hmag : fMag (unitPow (1074 + k)) = 2 ^ (1074 + k) := fMag_unitPow (by omega) (by omega)
  have hpow : 2 ^ 1074 * 2 ^ 1074 = 2 ^ (1074 - k) * 2 ^ (1074 + k) := by
    rw [← Nat.pow_add, ← Nat.pow_add]; congr 1; omega
  rw [fDiv_finite d ⟨rfl, rfl⟩ (isFinite_unitPow (by omega)), hmag, if_neg (Nat.two_pow_pos _).ne', fMag_fOne,
    fSign_unitPow (by omega)]
  exact fRound_eq_unitPow (by omega) (by omega) (Nat.two_pow_pos _) hpow

theorem realOf_unitPow_sub : realOf (unitPow (1074 - k)) = 1 / 2 ^ k := by
  rw [realOf_unitPow (by omega) (by omega), pow_sub₀ (2 : ℝ) (by norm_num) (by omega), ← div_eq_mul_inv,
    div_right_comm, div_self (by positivity)]

/-- A product by `2^-k` is the quotient by `2^k`, rounded once either way. -/
theorem fMul_unitPow_sub (d : Draw) (x : F64) :
    SameUpToNaN (fMul d x (unitPow (1074 - k))) (fDiv d x (unitPow (1074 + k))) := by
  have hfin : IsFinite (unitPow (1074 - k)) := isFinite_unitPow (by omega)
  have hfin' : IsFinite (unitPow (1074 + k)) := isFinite_unitPow (by omega)
  have hne : fMag (unitPow (1074 - k)) ≠ 0 := fMag_unitPow_ne_zero (by omega) (by omega)
  have hne' : fMag (unitPow (1074 + k)) ≠ 0 := fMag_unitPow_ne_zero (by omega) (by omega)
  have hsign : fSign (unitPow (1074 - k)) = fSign (unitPow (1074 + k)) :=
    (fSign_unitPow (by omega)).trans (fSign_unitPow (by omega)).symm
  rcases Bool.eq_false_or_eq_true (fIsNaN x) with hnan | hnan
  · exact .inr ⟨fMul_of_nan d (.inl hnan), fDiv_of_nan d (.inl hnan)⟩
  rcases Bool.eq_false_or_eq_true (fIsInf x) with hinf | hinf
  · left
    rw [fMul_inf_left d hinf hfin.1, fDiv_inf_left d hinf hfin'.1, if_neg hne, if_neg (by simp [hfin'.2]), hsign]
  · left
    rw [fMul_finite d ⟨hnan, hinf⟩ hfin, fDiv_finite d ⟨hnan, hinf⟩ hfin', if_neg hne', hsign,
      fMag_unitPow (by omega) (by omega), fMag_unitPow (by omega) (by omega)]
    exact fRound_mul_two_pow_sub _ _ (by omega)

end

/-- Settles O56: the reciprocal is a power of two itself, and both results round the same quotient. -/
theorem scalingByReciprocalIsDivision : Obligations.ScalingByReciprocalIsDivision := by
  intro d d' k x hk
  have hk' : k ≤ 1022 := by omega
  rw [fOfNat_two_pow hk', fDiv_fOne_two_pow hk']
  exact ⟨realOf_unitPow_sub hk', fMul_unitPow_sub hk' d x⟩

end Sys2Proof.Machine
end

section
/-! The chirp transform and its command BLUESTEIN (42_bluestein.md R91 to R95, R99). -/

namespace Sys2Proof.Machine

/-! ### The transforms of the working size -/

section
variable {x : List Cplx} (hp : IsPowerOfTwo x.length) (h2 : 2 ≤ x.length)
include hp h2

theorem ffte_forward_of_pow (c : Config) (d : Draw) : ffte c d x true = r2 c d x := by
  rw [ffte, if_neg (by omega), if_pos rfl, core, if_pos ((isPow2_iff _).mpr hp)]

theorem ffte_inverse_of_pow (c : Config) (d : Draw) : ffte c d x false = r2Inverse c d x := by
  rw [ffte, if_neg (by omega), if_neg Bool.false_ne_true, core, List.length_map, if_pos ((isPow2_iff _).mpr hp),
    r2Inverse]

end

/-! ### The steps of the transform, with any draws -/

/-- Buffer A by the chirp's own formula (42_bluestein.md R92). -/
theorem bluesteinA_same (c : Config) (d e : Draw) (x : List Cplx) (m : Nat) :
    SameSeq (bluesteinA d x (chirp c x.length) m)
      (tabulate m fun k => if k < x.length
        then cMul e (cAt x k) (cConj (trig c (k * k % (2 * x.length)) (2 * x.length))) else cZero) := by
  refine tabulate_same fun k _ => ?_
  split_ifs with hk
  · rw [cAt_chirp c hk]
    exact cMul_same _ _ (.refl _) (.refl _)
  · exact .refl _

/-- Buffer B by the chirp's own formula (42_bluestein.md R93). -/
theorem bluesteinB_chirp (c : Config) {n m : Nat} (hm : n ≤ m) :
    bluesteinB (chirp c n) m =
      tabulate m fun p => if m - n + 1 ≤ p then trig c ((m - p) * (m - p) % (2 * n)) (2 * n)
        else if p < n then trig c (p * p % (2 * n)) (2 * n) else cZero := by
  rw [bluesteinB, length_chirp]
  refine tabulate_congr fun p _ => ?_
  split_ifs with hmirror hp
  · exact cAt_chirp c (by omega)
  · exact cAt_chirp c hp
  · rfl

/-- The scaled convolution by the dispatcher's transforms of the working size (42_bluestein.md R94). -/
theorem cAt_bluesteinConvolve_same (c : Config) (d e : Draw) {a a' b : List Cplx} {m : Nat} (hp : IsPowerOfTwo m)
    (h2 : 2 ≤ m) (ha : SameSeq a a') (ha' : a'.length = m) (hb : b.length = m) {k : Nat} (hk : k < m) :
    SameC (cAt (bluesteinConvolve c d a b m) k)
      (cScale e
        (cAt (ffte c e (tabulate m fun k => cMul e (cAt (ffte c e a' true) k) (cAt (ffte c e b true) k)) false) k)
        (fDiv e fOne (fOfNat m))) := by
  rw [ffte_inverse_of_pow (by rwa [length_tabulate]) (by rwa [length_tabulate]),
    ffte_forward_of_pow (by rwa [ha']) (by rwa [ha']), ffte_forward_of_pow (by rwa [hb]) (by rwa [hb])]
  have hproduct := tabulate_same (n := m) fun k _ =>
    cMul_same (k :: 2 :: d) e ((r2_same c (0 :: d) e ha).cAt k) ((r2_same c (1 :: d) e (.refl b)).cAt k)
  rw [bluesteinConvolve, cAt_tabulate hk]
  exact cScale_same _ _ ((r2Inverse_same c (3 :: d) e hproduct).cAt k) (fDiv_same _ _ (.refl _) (.refl _))

/-- One output element (42_bluestein.md R95). -/
theorem cAt_bluestein (c : Config) (d : Draw) {x : List Cplx} {k : Nat} (hk : k < x.length) :
    cAt (bluestein c d x) k =
      cMul (k :: 2 :: d)
        (cAt (bluesteinConvolve c (1 :: d) (bluesteinA (0 :: d) x (chirp c x.length) (bluesteinSize x.length))
          (bluesteinB (chirp c x.length) (bluesteinSize x.length)) (bluesteinSize x.length)) k)
        (cConj (trig c (k * k % (2 * x.length)) (2 * x.length))) := by
  rw [← cAt_chirp c hk]
  exact cAt_tabulate hk _

/-! ### BLUESTEIN -/

theorem exec_bluestein {s : State} (h3 : 3 ≤ s.len.toNat) (hn : s.len.toNat ≤ s.cfg.nmax)
    (hp : ¬IsPowerOfTwo s.len.toNat) (hsrc : SourceOk s s.len.toNat) (hdst : DestOk s s.len.toNat) :
    ∃ t, exec .bluestein s = .next t ∧ t.outcnt = s.len ∧
      WroteComplex s t (bluestein s.cfg [s.nanCtr] (complexInput s)) :=
  have hlen : ¬LengthFails s .bluestein :=
    not_or_intro (Nat.not_lt.mpr h3) (not_or_intro (Nat.not_lt.mpr hn) hp)
  exec_complexToComplex (i := .bluestein) rfl rfl id id hlen hsrc hdst rfl

/-- Settles O32: the command's result is `BS`, whose buffers and transforms are the spec's, whatever is drawn. -/
theorem bluesteinWritesTheChirpTransform : Obligations.BluesteinWritesTheChirpTransform := by
  refine ⟨fun _ h3 hn hp hsrc hdst => exec_bluestein h3 hn hp hsrc hdst, fun c d e x h3 => ?_, failsAsListed .bluestein⟩
  refine ⟨length_bluestein c d x, fun k hk => ?_⟩
  have hsize := two_mul_sub_two_le_bluesteinSize h3
  have hm : x.length ≤ bluesteinSize x.length := by omega
  rw [cAt_bluestein c d hk, bluesteinB_chirp c hm]
  exact cMul_same _ _ (cAt_bluesteinConvolve_same c (1 :: d) e (isPowerOfTwo_bluesteinSize _) (by omega)
    (bluesteinA_same c (0 :: d) e x _) (length_tabulate _ _) (length_tabulate _ _) (hk.trans_le hm)) (.refl _)

end Sys2Proof.Machine
end

section
/-! The dispatcher and its commands FFT and NOP (43_dispatch.md R101 to R105). -/

namespace Sys2Proof.Machine

/-! ### The strategies -/

section
variable {x : List Cplx}

/-- Lengths 0 and 1 are copied in both directions (43_dispatch.md R102). -/
theorem ffte_of_length_le_one (hx : x.length ≤ 1) (c : Config) (d : Draw) (forward : Bool) : ffte c d x forward = x := by
  rw [ffte, if_pos hx]

theorem ffte_forward_of_not_pow (hp : ¬IsPowerOfTwo x.length) (h2 : 2 ≤ x.length) (c : Config) (d : Draw) :
    ffte c d x true = bluestein c d x := by
  rw [ffte, if_neg (by omega), if_pos rfl, core, if_neg (mt (isPow2_iff _).mp hp)]

/-- The inverse is the forward machinery between two channel swaps; a swap keeps the length, and with it the strategy
(43_dispatch.md R102). -/
theorem ffte_inverse (h2 : 2 ≤ x.length) (c : Config) (d : Draw) :
    ffte c d x false = (ffte c d (x.map cSwap) true).map cSwap := by
  have hlong : ¬x.length ≤ 1 := by omega
  rw [ffte, if_neg hlong, if_neg Bool.false_ne_true, ffte, List.length_map, if_neg hlong, if_pos rfl]

theorem r2Inverse_of_length_one (hx : x.length = 1) (c : Config) (d : Draw) : r2Inverse c d x = x := by
  have hswap : cSwap ∘ cSwap = id := funext cSwap_cSwap
  rw [r2Inverse, r2, List.length_map, if_pos hx, List.map_map, hswap, List.map_id]

/-- The dispatcher's inverse of a power of two is the inverse inside Bluestein, length 1 included. -/
theorem ffte_inverse_eq_r2Inverse (hp : IsPowerOfTwo x.length) (c : Config) (d : Draw) :
    ffte c d x false = r2Inverse c d x := by
  obtain ⟨k, hk⟩ := hp
  rcases Nat.lt_or_ge x.length 2 with hshort | h2
  · have hone : x.length = 1 := by have := Nat.two_pow_pos k; omega
    rw [ffte_of_length_le_one hone.le, r2Inverse_of_length_one hone]
  · exact ffte_inverse_of_pow ⟨k, hk⟩ h2 c d

end

/-- Settles O57: one equation of the dispatcher for each clause. -/
theorem dispatcherChoosesTheStrategy : Obligations.DispatcherChoosesTheStrategy :=
  fun c d _ => ⟨fun hx => ffte_of_length_le_one hx c d, fun h2 hp => ffte_forward_of_pow hp h2 c d,
    fun h2 hp => ffte_forward_of_not_pow hp h2 c d, fun h2 => ffte_inverse h2 c d,
    fun hp => ffte_inverse_eq_r2Inverse hp c d⟩

/-! ### FFT -/

theorem exec_fft (forward : Bool) {s : State} (hn : s.len.toNat ≤ s.cfg.nmax) (hsrc : SourceOk s s.len.toNat)
    (hdst : DestOk s s.len.toNat) :
    ∃ t, exec (.fft forward) s = .next t ∧ t.outcnt = s.len ∧
      WroteComplex s t (ffte s.cfg [s.nanCtr] (complexInput s) forward) :=
  exec_complexToComplex (i := .fft forward) rfl rfl id id (Nat.not_lt.mpr hn) hsrc hdst rfl

/-- Settles O30: the length check admits every length up to NMAX, and the result is `FFTE`. -/
theorem fftWritesTheEngineTransform : Obligations.FftWritesTheEngineTransform :=
  fun forward => ⟨fun _ hn hsrc hdst => exec_fft forward hn hsrc hdst, failsAsListed (.fft forward)⟩

/-! ### NOP -/

/-- `NOP` has no check to fail and no result to write (43_dispatch.md R105). -/
theorem exec_nop (s : State) : exec .nop s = .next (successCompletion s .none) := exec_of_passes rfl

theorem decodeWord_nop_iff {w : Word} : decodeWord w = .ok .nop ↔ w = 0#32 := by
  constructor
  · exact fun h => (encode_of_decodeWord h).symm
  · rintro rfl
    exact decodeAndEncodeAgree.1 .nop rfl

/-- No other command has the opcode 0 (30_encoding.md R67). -/
theorem eq_nop_of_opcode {i : Instr} (h : i.opcode = 0) : i = .nop := by
  cases i with
  | nop => rfl
  | _ => exact absurd h (by simp [Instr.opcode])

/-- Settles O29: a word that decodes holds its command's opcode and is that command's one word, which for `NOP` is 0. -/
theorem nopOnlyCompletes : Obligations.NopOnlyCompletes := by
  refine ⟨fun w hop => ⟨decodeWord_nop_iff, fun i h => ?_⟩, fun s => ⟨_, exec_nop s, wroteNothing_successCompletion s⟩⟩
  exact eq_nop_of_opcode ((opField_of_decodeWord h).symm.trans hop)

end Sys2Proof.Machine
end

section
/-! The commands with a real operand (30_encoding.md R67): their checks, and what they write. -/

namespace Sys2Proof.Machine

/-! ### Real input, complex output -/

/-- With checks 2 to 4 passed, legal buffers and output arrays that are apart pass checks 5 and 6. -/
theorem realToComplex_passes {s : State} {i : Instr} {n : Nat} (hin : declaredInput s i = .real s.len.toNat)
    (hout : declaredOutput s i = .complex n) (hempty : ¬EmptyFails s i) (hodd : ¬OddFails s i)
    (hlen : ¬LengthFails s i) (hsrc : BufferOk s s.srcRe s.len.toNat) (hdst : DestOk s n) :
    failedCheck s (checksOf s i) = none := by
  obtain ⟨hre, him, hapart⟩ := hdst
  refine (failedCheck_eq_none_iff_passes s i).mpr ⟨hempty, hodd, hlen, ?_, ?_⟩
  · simp [AddressFails, usedBuffers, hin, hout, hsrc, hre, him]
  · simp [OverlapFails, hout, hapart]

/-! ### Complex input, real output -/

/-- `OUTCNT` after a real output of `OUTLEN` words. -/
theorem WroteReal.outcnt_eq_outlen {s t : State} {y : List F64} (h : WroteReal s t y)
    (hy : y.length = s.outlen.toNat) : t.outcnt = s.outlen := by
  rw [h.done.outcnt, hy, BitVec.ofNat_toNat, BitVec.setWidth_eq]

/-- The inverse commands, which differ in check 3 and in the result: with legal lengths and buffers, a command whose
check 3 passes ends in the one success completion with its result. -/
theorem exec_complexToReal {s : State} {i : Instr} {y : List F64} (hin : declaredInput s i = .complex s.len.toNat)
    (hout : declaredOutput s i = .real s.outlen.toNat) (hempty : ¬EmptyFails s i) (hodd : ¬OddFails s i)
    (hlen : ¬LengthFails s i) (hsrc : SourceOk s s.len.toNat) (hdst : BufferOk s s.dstRe s.outlen.toNat)
    (hy : resultOf s [s.nanCtr] i = .real y) : exec i s = .next (successCompletion s (.real y)) := by
  obtain ⟨hre, him⟩ := hsrc
  rw [← hy]
  refine exec_of_passes ((failedCheck_eq_none_iff_passes s i).mpr ⟨hempty, hodd, hlen, ?_, ?_⟩)
  · simp [AddressFails, usedBuffers, hin, hout, hre, him, hdst]
  · simp [OverlapFails, hout]

end Sys2Proof.Machine
end

section
/-! The forward transforms of a real signal, FFTREAL and FFTREALHALF (44_real_codec.md R107 to R109). -/

namespace Sys2Proof.Machine

/-! ### FFTREAL -/

/-- Settles O37: the result is `FFTE` of the input words with imaginary parts +0. -/
theorem fftrealWritesTheFullSpectrum : Obligations.FftrealWritesTheFullSpectrum := by
  refine ⟨fun s hn hsrc hdst => ?_, failsAsListed .fftreal⟩
  have hpass := realToComplex_passes (i := .fftreal) rfl rfl id id (Nat.not_lt.mpr hn) hsrc hdst
  obtain ⟨t, hexec, hwrote⟩ := exec_writesComplex hpass rfl
  exact ⟨t, hexec, hwrote.outcnt_eq_len (by simp), hwrote⟩

/-! ### The packed half-length transform -/

/-- The transform of the `h` packed pairs (44_real_codec.md R108). -/
def pairTransform (c : Config) (d : Draw) (x : List F64) (h : Nat) : List Cplx :=
  ffte c d (tabulate h fun k => ⟨rAt x (2 * k), rAt x (2 * k + 1)⟩) true

theorem pairTransform_same (c : Config) (d e : Draw) (x : List F64) (h : Nat) :
    SameSeq (pairTransform c d x h) (pairTransform c e x h) := ffte_same c d e (.refl _) true

section
variable {x : List F64} {h : Nat} (hx : x.length = 2 * h)
include hx

/-- `RH` is its `h` bins and, with `Q = 1`, the Nyquist bin after them. -/
theorem realHalf_eq (c : Config) (d : Draw) (q : Bool) :
    realHalf c d x q =
      tabulate h (fun k => realHalfBin c (k :: 1 :: d) (pairTransform c (0 :: d) x h) (2 * h) k) ++
        if q then
          [⟨fSub (2 :: d) (cAt (pairTransform c (0 :: d) x h) 0).re (cAt (pairTransform c (0 :: d) x h) 0).im, fZero⟩]
        else [] := by
  have hhalf : 2 * h / 2 = h := by omega
  rw [realHalf, hx, hhalf]
  cases q
  · exact (List.append_nil _).symm
  · rfl

theorem cAt_realHalf_bin (c : Config) (d : Draw) (q : Bool) {k : Nat} (hk : k < h) :
    cAt (realHalf c d x q) k = realHalfBin c (k :: 1 :: d) (pairTransform c (0 :: d) x h) (2 * h) k := by
  rw [realHalf_eq hx, cAt, List.getD_append _ _ _ _ (by simpa using hk)]
  exact cAt_tabulate hk _

theorem cAt_realHalf_nyquist (c : Config) (d : Draw) :
    cAt (realHalf c d x true) h =
      ⟨fSub (2 :: d) (cAt (pairTransform c (0 :: d) x h) 0).re (cAt (pairTransform c (0 :: d) x h) 0).im, fZero⟩ := by
  rw [realHalf_eq hx, cAt, List.getD_append_right _ _ _ _ (by simp)]
  simp

end

/-- One bin is `E + O * W` of the even and odd parts, whatever is drawn (44_real_codec.md R108). -/
theorem realHalfBin_same_evenOdd (c : Config) (d e : Draw) {z z' : List Cplx} (hz : SameSeq z z') (h k : Nat) :
    let zc := cConj (cAt z' ((h - k) % h))
    let ev := cScale e (cAdd e (cAt z' k) zc) fHalf
    let df := cScale e (cSub e (cAt z' k) zc) fHalf
    SameC (realHalfBin c d z (2 * h) k) (cAdd e ev (cMul e ⟨df.im, fNeg df.re⟩ (cConj (trig c k (2 * h))))) := by
  have hhalf : 2 * h / 2 = h := by omega
  have hk := hz.cAt k
  have hconj := cConj_same (hz.cAt ((h - k) % h))
  have heven := cScale_same (1 :: d) e (cAdd_same (0 :: d) e hk hconj) (.refl fHalf)
  have hdiff := cScale_same (3 :: d) e (cSub_same (2 :: d) e hk hconj) (.refl fHalf)
  simp only [realHalfBin, hhalf]
  exact cAdd_same _ _ heven (cMul_same _ _ ⟨hdiff.2, fNeg_same hdiff.1⟩ (.refl _))

/-! ### FFTREALHALF -/

theorem exec_fftrealhalf (q : Bool) {s : State} (h0 : s.len.toNat ≠ 0) (heven : s.len.toNat % 2 = 0)
    (hn : s.len.toNat ≤ s.cfg.nmax) (hsrc : BufferOk s s.srcRe s.len.toNat)
    (hdst : DestOk s (s.len.toNat / 2 + q.toNat)) :
    ∃ t, exec (.fftrealhalf q) s = .next t ∧ t.outcnt.toNat = s.len.toNat / 2 + q.toNat ∧
      WroteComplex s t (realHalf s.cfg [s.nanCtr] (realInput s) q) := by
  have hodd : ¬OddFails s (.fftrealhalf q) := by rw [OddFails, heven]; decide
  have hpass := realToComplex_passes (i := .fftrealhalf q) rfl rfl h0 hodd (Nat.not_lt.mpr hn) hsrc hdst
  obtain ⟨t, hexec, hwrote⟩ := exec_writesComplex hpass rfl
  refine ⟨t, hexec, ?_, hwrote⟩
  have hcount : (realHalf s.cfg [s.nanCtr] (inputR s) q).length = s.len.toNat / 2 + q.toNat := by simp
  have hsmall : s.len.toNat / 2 + q.toNat < 2 ^ 32 := by
    have := s.len.isLt
    have := q.toNat_le
    omega
  rw [hwrote.done.outcnt, hcount, BitVec.toNat_ofNat, Nat.mod_eq_of_lt hsmall]

/-- Settles O38: the bins are the even/odd split of the packed pairs' transform, and the last is the Nyquist bin. -/
theorem fftrealhalfWritesTheHalfSpectrum : Obligations.FftrealhalfWritesTheHalfSpectrum := by
  refine ⟨realOf_fHalf, fun q => ⟨fun s h0 heven hn hsrc hdst => exec_fftrealhalf q h0 heven hn hsrc hdst,
    fun c d e x h hx _ => ⟨?_, fun k hk => ?_, ?_⟩, failsAsListed (.fftrealhalf q)⟩⟩
  · rw [length_realHalf, hx, Nat.mul_div_cancel_left h two_pos]
  · rw [cAt_realHalf_bin hx c d q hk]
    exact realHalfBin_same_evenOdd c _ e (pairTransform_same c _ e x h) h k
  · rintro rfl
    rw [cAt_realHalf_nyquist hx]
    have hz := (pairTransform_same c (0 :: d) e x h).cAt 0
    exact ⟨fSub_same _ _ hz.1 hz.2, .refl _⟩

end Sys2Proof.Machine
end

section
/-! The normalized half spectrum and its command FFTREALSPEC (44_real_codec.md R106, R110). -/

namespace Sys2Proof.Machine

/-! ### Lengths as binary64 values -/

theorem realOf_fTwo : realOf fTwo = 2 := by
  rw [realOf_two_zpow (e := 1023) rfl rfl]; norm_num

/-- A length up to 2^28 is exact: with `2^b` its leading power of two, its significand is `n * 2^(52-b)`. -/
theorem realOf_fOfNat {n : Nat} (h1 : 1 ≤ n) (hn : n ≤ 2 ^ 28) : realOf (fOfNat n) = n := by
  obtain ⟨b, hb⟩ : ∃ b, Nat.log2 n = b := ⟨_, rfl⟩
  have hlo : 2 ^ b ≤ n := hb ▸ Nat.log2_self_le (by omega)
  have hhi : n < 2 ^ (b + 1) := hb ▸ Nat.lt_log2_self
  have hb28 : b ≤ 28 := (Nat.pow_le_pow_iff_right (by norm_num)).mp (hlo.trans hn)
  have hsplit : 2 ^ 52 = 2 ^ b * 2 ^ (52 - b) := by rw [← Nat.pow_add]; congr 1; omega
  have hk : 2 ^ 52 ≤ n * 2 ^ (52 - b) := by rw [hsplit]; exact Nat.mul_le_mul_right _ hlo
  have hk' : n * 2 ^ (52 - b) < 2 ^ 53 := by
    have hdouble : 2 ^ 53 = 2 ^ (b + 1) * 2 ^ (52 - b) := by rw [← Nat.pow_add]; congr 1; omega
    rw [hdouble]; exact Nat.mul_lt_mul_of_pos_right hhi (Nat.two_pow_pos _)
  have hmag : magOf ((1022 + b) * 2 ^ 52 + n * 2 ^ (52 - b)) = n * 2 ^ 1074 := by
    rw [magOf_of_significand hk'.le (.inr hk), Nat.mul_assoc, ← Nat.pow_add]; congr 2; omega
  have hfin : (1022 + b) * 2 ^ 52 + n * 2 ^ (52 - b) < fInfBits := by rw [fInfBits]; omega
  have hround := roundMag_magOf hfin one_pos (n := n * 2 ^ 1074) (by rw [hmag, Nat.mul_one])
  rw [fOfNat, fRound, hround, realOf_eq, fSign_fPack _ (by omega), fMag_fPack _ (by omega), hmag,
    if_neg Bool.false_ne_true, one_mul, Nat.cast_mul, Nat.cast_pow, Nat.cast_ofNat,
    mul_div_cancel_right₀ _ (by positivity)]

/-! ### The bins before they are scaled -/

/-- The bins `realSpectrum` scales: `RH` for an even length, the first half of the full transform for an odd one
(44_real_codec.md R110). -/
def spectrumBins (c : Config) (d : Draw) (x : List F64) (q : Bool) : List Cplx :=
  if x.length % 2 = 0 then realHalf c d x q
  else (ffte c d (realToComplex x) true).take ((x.length + 1) / 2)

theorem cAt_take {x : List Cplx} {k n : Nat} (h : k < n) : cAt (x.take n) k = cAt x k := by
  simp [cAt, List.getD_eq_getElem?_getD, h]

/-- The bins of the spectrum, whatever is drawn: below the count the cut of the full transform is not seen. -/
theorem cAt_spectrumBins_same (c : Config) (d e : Draw) (x : List F64) (q : Bool) {k : Nat}
    (hk : k < spectrumCount x.length q) :
    SameC (cAt (spectrumBins c d x q) k)
      (cAt (if x.length % 2 = 0 then realHalf c e x q else ffte c e (realToComplex x) true) k) := by
  rw [spectrumBins]
  split_ifs with heven
  · exact (realHalf_same c d e x q).cAt k
  · rw [cAt_take (by simpa [spectrumCount, heven] using hk)]
    exact (ffte_same c d e (.refl _) true).cAt k

/-- Each bin is scaled by a reciprocal of the length, bin 0 and the Nyquist bin by half of what the others are. -/
theorem cAt_realSpectrum (c : Config) (d : Draw) (x : List F64) (q : Bool) {k : Nat}
    (hk : k < spectrumCount x.length q) :
    cAt (realSpectrum c d x q) k =
      cScale (k :: 3 :: d) (cAt (spectrumBins c (0 :: d) x q) k)
        (if k = 0 ∨ (q = true ∧ x.length % 2 = 0 ∧ k = x.length / 2) then fDiv (1 :: d) fOne (fOfNat x.length)
          else fDiv (2 :: d) fTwo (fOfNat x.length)) := by
  have hbins : k < (spectrumBins c (0 :: d) x q).length := by
    rw [← length_realSpectrum c d] at hk
    exact hk.trans_eq (length_tabulate _ _)
  refine (cAt_tabulate hbins _).trans (congrArg _ (if_congr ?_ rfl rfl))
  simp only [Bool.or_eq_true, Bool.and_eq_true, decide_eq_true_eq]
  tauto

/-- The normalized bin by its own formula, whatever is drawn (44_real_codec.md R110). -/
theorem realSpectrum_same_scaled (c : Config) (d e : Draw) (x : List F64) (q : Bool) {k : Nat}
    (hk : k < spectrumCount x.length q) :
    SameC (cAt (realSpectrum c d x q) k)
      (cScale e (cAt (if x.length % 2 = 0 then realHalf c e x q else ffte c e (realToComplex x) true) k)
        (fDiv e (if k = 0 ∨ (q = true ∧ x.length % 2 = 0 ∧ k = x.length / 2) then fOne else fTwo)
          (fOfNat x.length))) := by
  rw [cAt_realSpectrum c d x q hk]
  refine cScale_same _ _ (cAt_spectrumBins_same c _ e x q hk) ?_
  split_ifs
  · exact fDiv_same _ _ (.refl _) (.refl _)
  · exact fDiv_same _ _ (.refl _) (.refl _)

/-- For an odd length there is no Nyquist bin, so `Q` is ignored (44_real_codec.md R110). -/
theorem realSpectrum_odd (c : Config) (d : Draw) {x : List F64} (hodd : x.length % 2 = 1) (q q' : Bool) :
    realSpectrum c d x q = realSpectrum c d x q' := by
  simp [realSpectrum, hodd]

/-! ### FFTREALSPEC -/

theorem exec_fftrealspec (q : Bool) {s : State} (h0 : s.len.toNat ≠ 0) (hn : s.len.toNat ≤ s.cfg.nmax)
    (hsrc : BufferOk s s.srcRe s.len.toNat) (hdst : DestOk s (spectrumCount s.len.toNat q)) :
    ∃ t, exec (.fftrealspec q) s = .next t ∧ t.outcnt = BitVec.ofNat 32 (spectrumCount s.len.toNat q) ∧
      WroteComplex s t (realSpectrum s.cfg [s.nanCtr] (realInput s) q) := by
  have hout : declaredOutput s (.fftrealspec q) = .complex (spectrumCount s.len.toNat q) :=
    (checksOf_output s (.fftrealspec q)).symm
  have hpass := realToComplex_passes (i := .fftrealspec q) rfl hout h0 id (Nat.not_lt.mpr hn) hsrc hdst
  obtain ⟨t, hexec, hwrote⟩ := exec_writesComplex hpass rfl
  refine ⟨t, hexec, ?_, hwrote⟩
  rw [hwrote.done.outcnt, length_realSpectrum, length_inputR]

/-- For an odd length both forms check the same buffers and give the same result. -/
theorem exec_fftrealspec_odd {s : State} (hodd : s.len.toNat % 2 = 1) (q q' : Bool) :
    exec (.fftrealspec q) s = exec (.fftrealspec q') s := by
  have hcount : spectrumCount s.len.toNat q = spectrumCount s.len.toNat q' := by simp [spectrumCount, hodd]
  have hchecks : checksOf s (.fftrealspec q) = checksOf s (.fftrealspec q') := by simp only [checksOf, hcount]
  have hresult (d : Draw) : resultOf s d (.fftrealspec q) = resultOf s d (.fftrealspec q') :=
    congrArg Output.complex (realSpectrum_odd s.cfg d (by rwa [length_inputR]) q q')
  rw [exec_eq_runCommand, exec_eq_runCommand, hchecks, funext hresult]

/-- Settles O39: the scales are the spec's numbers, and each bin is that of `RH` or of the full transform, scaled. -/
theorem fftrealspecWritesTheNormalizedSpectrum : Obligations.FftrealspecWritesTheNormalizedSpectrum := by
  refine ⟨realOf_fOne, realOf_fTwo, fun _ h1 hn => realOf_fOfNat h1 hn, fun q =>
    ⟨fun _ h0 hn hsrc hdst => exec_fftrealspec q h0 hn hsrc hdst, fun c d e x _ => ⟨?_, fun k hk => ?_⟩,
      fun _ hodd => exec_fftrealspec_odd hodd q !q, failsAsListed (.fftrealspec q)⟩⟩
  · simp [spectrumCount]
  · rw [length_realSpectrum] at hk
    exact realSpectrum_same_scaled c d e x q hk

end Sys2Proof.Machine
end

section
/-! The reconstructions of a real signal, IFFTREALS, IFFTREALO and IFFTREAL (44_real_codec.md R111 to R116). -/

namespace Sys2Proof.Machine

/-! ### The full spectrum -/

section
variable (sp : List Cplx) {n : Nat} (q : Bool)

theorem cAt_fullSpectrum_zero (hn : 1 ≤ n) : cAt (fullSpectrum sp n q) 0 = cAt sp 0 :=
  (cAt_tabulate hn _).trans (if_pos rfl)

theorem cAt_fullSpectrum_bin {k : Nat} (h1 : 1 ≤ k) (hk : k < (n + 1) / 2) :
    cAt (fullSpectrum sp n q) k = cAt sp k := by
  rw [fullSpectrum, cAt_tabulate (by omega), if_neg (by omega), if_pos hk]

theorem cAt_fullSpectrum_mirror {k : Nat} (h1 : 1 ≤ k) (hk : k < (n + 1) / 2) :
    cAt (fullSpectrum sp n q) (n - k) = cConj (cAt sp k) := by
  have hback : n - (n - k) = k := by omega
  rw [fullSpectrum, cAt_tabulate (by omega), if_neg (by omega), if_neg (by omega), if_neg (by omega), hback]

theorem cAt_fullSpectrum_nyquist (hn : 1 ≤ n) (heven : n % 2 = 0) :
    cAt (fullSpectrum sp n q) (n / 2) = if q = true then cAt sp (n / 2) else cZero := by
  rw [fullSpectrum, cAt_tabulate (by omega), if_neg (by omega), if_neg (by omega), if_pos (by omega)]

end

/-- Settles O58: the branches of the spectrum's definition, index by index. -/
theorem fullSpectrumIsConjugateSymmetric : Obligations.FullSpectrumIsConjugateSymmetric :=
  fun sp n q hn => ⟨length_fullSpectrum sp n q, cAt_fullSpectrum_zero sp q hn,
    fun _ h1 hk => ⟨cAt_fullSpectrum_bin sp q h1 hk, cAt_fullSpectrum_mirror sp q h1 hk⟩,
    cAt_fullSpectrum_nyquist sp q hn⟩

/-! ### IFFTREALS -/

theorem rAt_map_re {x : List Cplx} {k : Nat} (h : k < x.length) : rAt (x.map Cplx.re) k = (cAt x k).re := by
  simp [rAt, cAt, List.getD_eq_getElem?_getD, h]

/-- The word `k` of `IS` is the real channel of element `k` of the inverse transform, whatever is drawn
(44_real_codec.md R112). -/
theorem rAt_inverseSimple_same (c : Config) (d e : Draw) (sp : List Cplx) {n : Nat} (q : Bool) {k : Nat} (hk : k < n) :
    SameUpToNaN (rAt (inverseSimple c d sp n q) k) (cAt (ffte c e (fullSpectrum sp n q) false) k).re := by
  rw [inverseSimple, rAt_map_re (by simpa using hk)]
  exact ((ffte_same c d e (.refl _) false).cAt k).1

section
variable (q : Bool) {s : State} (hn : s.len.toNat ≤ s.cfg.nmax) (hno : s.outlen.toNat ≤ s.cfg.nmax)
  (hsrc : SourceOk s s.len.toNat) (hdst : BufferOk s s.dstRe s.outlen.toNat)
include hn hno hsrc hdst

theorem exec_ifftreals :
    exec (.ifftreals q) s =
      .next (successCompletion s (.real (inverseSimple s.cfg [s.nanCtr] (complexInput s) s.outlen.toNat q))) :=
  exec_complexToReal (i := .ifftreals q) rfl rfl id id (not_or_intro (Nat.not_lt.mpr hn) (Nat.not_lt.mpr hno)) hsrc hdst
    rfl

theorem exec_ifftrealo (heven : s.outlen.toNat % 2 = 0) :
    exec (.ifftrealo q) s =
      .next (successCompletion s (.real (inverseOpt s.cfg [s.nanCtr] (complexInput s) s.outlen.toNat q))) :=
  have hodd : ¬OddFails s (.ifftrealo q) := by rw [OddFails, heven]; decide
  exec_complexToReal (i := .ifftrealo q) rfl rfl id hodd (not_or_intro (Nat.not_lt.mpr hn) (Nat.not_lt.mpr hno)) hsrc
    hdst rfl

theorem exec_ifftreal :
    exec (.ifftreal q) s =
      .next (successCompletion s (.real
        (if s.outlen.toNat % 2 = 0 then inverseOpt s.cfg [s.nanCtr] (complexInput s) s.outlen.toNat q
          else inverseSimple s.cfg [s.nanCtr] (complexInput s) s.outlen.toNat q))) :=
  exec_complexToReal (i := .ifftreal q) rfl rfl id id (not_or_intro (Nat.not_lt.mpr hn) (Nat.not_lt.mpr hno)) hsrc hdst
    rfl

/-- IFFTREAL is the command its output length's parity chooses (44_real_codec.md R116). -/
theorem exec_ifftreal_eq_chosen :
    exec (.ifftreal q) s = exec (if s.outlen.toNat % 2 = 0 then .ifftrealo q else .ifftreals q) s := by
  rw [exec_ifftreal q hn hno hsrc hdst]
  split_ifs with heven
  · exact (exec_ifftrealo q hn hno hsrc hdst heven).symm
  · exact (exec_ifftreals q hn hno hsrc hdst).symm

end

/-- Settles O40: the result is `IS`, the real channel of the inverse transform. -/
theorem ifftrealsWritesTheFullReconstruction : Obligations.IfftrealsWritesTheFullReconstruction := by
  refine fun q => ⟨fun s hn hno hsrc hdst => ?_, fun c d e sp n => ⟨length_inverseSimple c d sp n q, fun k hk => ?_⟩,
    failsAsListed (.ifftreals q)⟩
  · have hwrote := wroteReal_successCompletion s (inverseSimple s.cfg [s.nanCtr] (complexInput s) s.outlen.toNat q)
    exact ⟨_, exec_ifftreals q hn hno hsrc hdst, hwrote.outcnt_eq_outlen (length_inverseSimple ..), hwrote⟩
  · exact rAt_inverseSimple_same c d e sp q hk

/-! ### IFFTREALO -/

/-- One packed bin by its own formula, whatever is drawn (44_real_codec.md R113). -/
theorem packedBin_same (c : Config) (d e : Draw) (sp : List Cplx) (h : Nat) (q : Bool) (k : Nat) :
    let x0 : Cplx := ⟨(cAt sp 0).re, fZero⟩
    let xh : Cplx := if q = true then ⟨(cAt sp h).re, fZero⟩ else cZero
    let xk := if k = 0 then x0 else cAt sp k
    let xc := cConj (if k = 0 then xh else cAt sp (h - k))
    let ev := cAdd e xk xc
    let o := cMul e (cSub e xk xc) (trig c k (2 * h))
    SameC (packedBin c d sp (2 * h) q k) ⟨fSub e ev.re o.im, fAdd e ev.im o.re⟩ := by
  intro x0 xh xk xc ev o
  have hhalf : 2 * h / 2 = h := by omega
  have heven : SameC (cAdd (0 :: d) xk xc) ev := cAdd_same _ _ (.refl _) (.refl _)
  have hodd : SameC (cMul (2 :: d) (cSub (1 :: d) xk xc) (trig c k (2 * h))) o :=
    cMul_same _ _ (cSub_same _ _ (.refl _) (.refl _)) (.refl _)
  rw [packedBin, hhalf]
  exact ⟨fSub_same _ _ heven.1 hodd.2, fAdd_same _ _ heven.2 hodd.1⟩

/-- The words `2j` and `2j+1` of `IO` are the parts of element `j` of the inverse transform of the packed bins
(44_real_codec.md R113). -/
theorem rAt_inverseOpt_same (c : Config) (d e : Draw) (sp : List Cplx) (h : Nat) (q : Bool) {packed : Nat → Cplx}
    (hpacked : ∀ d k, SameC (packedBin c d sp (2 * h) q k) (packed k)) {j : Nat} (hj : j < h) :
    SameUpToNaN (rAt (inverseOpt c d sp (2 * h) q) (2 * j)) (cAt (ffte c e (tabulate h packed) false) j).re ∧
    SameUpToNaN (rAt (inverseOpt c d sp (2 * h) q) (2 * j + 1)) (cAt (ffte c e (tabulate h packed) false) j).im := by
  have hhalf : 2 * h / 2 = h := by omega
  rw [inverseOpt, hhalf]
  have hz := (ffte_same c (0 :: d) e (tabulate_same (n := h) fun k _ => hpacked (k :: 1 :: d) k) false).cAt j
  obtain ⟨hre, him⟩ := rAt_flatMap_pair
    (ffte c (0 :: d) (tabulate h fun k => packedBin c (k :: 1 :: d) sp (2 * h) q k) false) j (by simpa using hj)
  rw [hre, him]
  exact hz

/-- Settles O41: the result is `IO`, whose words are the parts of the inverse transform of R113's packed bins. -/
theorem ifftrealoWritesTheHalfReconstruction : Obligations.IfftrealoWritesTheHalfReconstruction := by
  refine fun q => ⟨fun s heven hn hno hsrc hdst => ?_,
    fun c d e sp h => ⟨length_inverseOpt c d sp q (Nat.mul_mod_right 2 h), fun j hj => ?_⟩, failsAsListed (.ifftrealo q)⟩
  · have hwrote := wroteReal_successCompletion s (inverseOpt s.cfg [s.nanCtr] (complexInput s) s.outlen.toNat q)
    exact ⟨_, exec_ifftrealo q hn hno hsrc hdst heven, hwrote.outcnt_eq_outlen (length_inverseOpt _ _ _ q heven), hwrote⟩
  · exact rAt_inverseOpt_same c d e sp h q (fun d' k => packedBin_same c d' e sp h q k) hj

/-! ### IFFTREAL -/

/-- Settles O42: both commands end in the success completion with the words the parity chooses. -/
theorem ifftrealChoosesByParity : Obligations.IfftrealChoosesByParity := by
  refine fun q => ⟨fun s hn hno hsrc hdst => ?_, failsAsListed (.ifftreal q)⟩
  have hexec := exec_ifftreal q hn hno hsrc hdst
  have hwrote := wroteReal_successCompletion s
    (if s.outlen.toNat % 2 = 0 then inverseOpt s.cfg [s.nanCtr] (complexInput s) s.outlen.toNat q
      else inverseSimple s.cfg [s.nanCtr] (complexInput s) s.outlen.toNat q)
  refine ⟨_, hexec, hwrote.outcnt_eq_outlen ?_, (exec_ifftreal_eq_chosen q hn hno hsrc hdst).symm.trans hexec, hwrote⟩
  split_ifs with heven
  · exact length_inverseOpt _ _ _ q heven
  · exact length_inverseSimple ..

end Sys2Proof.Machine
end

section
/-! The rotation by half the length and its command FFTSHIFT (44_real_codec.md R117). -/

namespace Sys2Proof.Machine

/-- Element `k` moves to index `(k + ⌊n/2⌋) mod n`. -/
theorem cAt_shiftHalf {x : List Cplx} {k : Nat} (hk : k < x.length) :
    cAt (shiftHalf x) ((k + x.length / 2) % x.length) = cAt x k := by
  have hsum : k + x.length / 2 + (x.length - x.length / 2) = k + x.length := by omega
  rw [shiftHalf, cAt_tabulate (Nat.mod_lt _ (by omega)), Nat.mod_add_mod, hsum, Nat.add_mod_right, Nat.mod_eq_of_lt hk]

/-- Shifting twice rotates by twice `⌊n/2⌋`. -/
theorem cAt_shiftHalf_shiftHalf {x : List Cplx} {k : Nat} (hk : k < x.length) :
    cAt (shiftHalf (shiftHalf x)) ((k + 2 * (x.length / 2)) % x.length) = cAt x k := by
  have htwice := cAt_shiftHalf (x := shiftHalf x) (k := (k + x.length / 2) % x.length)
    (by rw [length_shiftHalf]; exact Nat.mod_lt _ (by omega))
  rwa [length_shiftHalf, Nat.mod_add_mod, Nat.add_assoc, ← Nat.two_mul, cAt_shiftHalf hk] at htwice

/-- Settles O59: twice `⌊n/2⌋` is `n` for an even length and `n - 1` for an odd one. -/
theorem shiftTwice : Obligations.ShiftTwice := by
  refine fun x => ⟨fun heven => ext_cAt (by simp) fun k hk => ?_, fun hodd k hk => ?_⟩
  · rw [length_shiftHalf, length_shiftHalf] at hk
    have htwice := cAt_shiftHalf_shiftHalf hk
    rwa [Nat.two_mul_div_two_of_even (Nat.even_iff.mpr heven), Nat.add_mod_right, Nat.mod_eq_of_lt hk] at htwice
  · have hdouble : x.length - 1 = 2 * (x.length / 2) := by omega
    rw [hdouble, cAt_shiftHalf_shiftHalf hk]

/-- Settles O43: the result is the shifted input, whose element at the moved index is the input's element `k`. -/
theorem fftshiftRotatesByHalf : Obligations.FftshiftRotatesByHalf := by
  refine ⟨fun s hn hsrc hdst => ?_, failsAsListed .fftshift⟩
  obtain ⟨t, hexec, houtcnt, hwrote⟩ :=
    exec_complexToComplex (i := .fftshift) (y := shiftHalf (complexInput s)) rfl rfl id id (Nat.not_lt.mpr hn) hsrc hdst
      rfl
  have hlen : (complexInput s).length = s.len.toNat := length_complexInput s
  refine ⟨t, _, hexec, houtcnt, hwrote, (length_shiftHalf _).trans hlen, fun k hk => ?_⟩
  rw [← cAt_complexInput hk, ← cAt_shiftHalf (x := complexInput s) (by rwa [hlen]), hlen]

end Sys2Proof.Machine
end

section
/-! The step and the commands' ends (60_exceptions.md): acceptance, the engine's turn, the first failing check, the success
completion, and that no state is stuck. -/

namespace Sys2Proof.Machine

/-! ### The engine's turn -/

theorem step_of_engineIsNext {s : State} (hn : EngineIsNext s) : step s = engineStep (dropEvent s) := by
  cases s
  rcases hn with rfl | ⟨rest, rfl⟩ <;> rfl

theorem engineStep_idle {s : State} (hb : s.status.busy = false) : engineStep s = .next s := by
  simp [engineStep, hb]

theorem engineStep_command {s : State} {i : Instr} (hb : s.status.busy = true) (hi : decodeWord s.cmd = .ok i) :
    engineStep s = exec i s := by
  simp [engineStep, hb, hi]

theorem engineStep_illegal {s : State} {r : Reject} (hb : s.status.busy = true) (hr : decodeWord s.cmd = .error r) :
    engineStep s = .next (errorCompletion s .badcmd) := by
  simp [engineStep, hb, hr]

/-- Settles O4: the step is `engineStep` with the token taken. -/
theorem stepRunsTheCommandInCmd : Obligations.StepRunsTheCommandInCmd := fun s hn =>
  ⟨fun _ hb hi => (step_of_engineIsNext hn).trans (engineStep_command (s := dropEvent s) hb hi),
    fun hb => (step_of_engineIsNext hn).trans (engineStep_idle (s := dropEvent s) hb)⟩

/-! ### Every step answers -/

theorem engineStep_answersNext (s : State) : ∃ t, engineStep s = .next t := by
  rcases engineStep_cases s with ⟨-, h⟩ | ⟨-, ⟨_, h⟩ | ⟨_, -, -, h⟩⟩ <;> exact ⟨_, h⟩

/-- Settles O5: a host access and reset answer by definition, the engine by `engineStep_cases`. -/
theorem stepAlwaysAnswersNext : Obligations.StepAlwaysAnswersNext := by
  intro s
  match ha : s.agenda with
  | [] => exact step_of_engineIsNext (.inl ha) ▸ engineStep_answersNext _
  | .engine :: rest => exact step_of_engineIsNext (.inr ⟨rest, ha⟩) ▸ engineStep_answersNext _
  | .host _ :: _ => exact ⟨_, step_host ha⟩
  | .rst :: _ => exact ⟨_, by rw [step, ha]⟩

/-! ### A pending command completes -/

theorem csrWrite_agenda (s : State) (r : Csr) (v : Word) : (csrWrite s r v).agenda = s.agenda := by
  cases csrWrite_cases s r v with
  | readOnly _ h => rw [h]
  | operand _ _ h => exact h.agenda
  | control _ h | acknowledgement _ h | acceptance _ _ h | ignored _ _ h => rw [h]; rfl

/-- Every step takes the event at the head of the agenda and adds none. -/
theorem step_agenda {s t : State} (h : step s = .next t) : t.agenda = s.agenda.tail := by
  cases step_cases h with
  | idle _ _ ht | fails _ _ _ ht | reset _ _ ht | answer _ _ _ _ ht | violation _ _ _ _ _ _ _ _ ht
  | store _ _ _ _ _ _ _ ht => rw [ht]; rfl
  | succeeds _ _ _ _ _ ht => rw [ht, successCompletion_agenda]; rfl
  | register r v _ _ ht => rw [ht, respond_agenda, csrWrite_agenda]; rfl

/-- After the engine's turn no command is pending (60_exceptions.md R121). -/
theorem busy_eq_false_of_engineIsNext {s t : State} (hn : EngineIsNext s) (h : step s = .next t) :
    t.status.busy = false := by
  rw [step_of_engineIsNext hn] at h
  rcases engineStep_cases (dropEvent s) with ⟨hb, h'⟩ | ⟨-, ⟨_, h'⟩ | ⟨_, -, -, h'⟩⟩ <;> rw [h'] at h <;> cases h
  · exact hb
  · simp [statusFailed]
  · simp [statusDone]

theorem run_succ (M : Host.Core) {s t : M.State} (h : M.step s = .next t) (k : Nat) : M.run (k + 1) s = M.run k t := by
  rw [Host.Core.run, h]

/-- Settles O6, by induction on the agenda: a step that leaves BUSY at 1 shortens it, and with none left the engine's turn
comes. -/
theorem pendingCommandCompletes : Obligations.PendingCommandCompletes := by
  intro s
  generalize hl : s.agenda = l
  induction l generalizing s with
  | nil =>
    intro _
    obtain ⟨t, h⟩ := stepAlwaysAnswersNext s
    exact ⟨1, t, Nat.le_refl _, run_succ Sys2Proof.core h 0, busy_eq_false_of_engineIsNext (.inl hl) h⟩
  | cons e rest ih =>
    intro _
    obtain ⟨t, h⟩ := stepAlwaysAnswersNext s
    cases hb : t.status.busy with
    | false => exact ⟨1, t, Nat.le_add_left _ _, run_succ Sys2Proof.core h 0, hb⟩
    | true =>
      have hrest : t.agenda = rest := by rw [step_agenda h, hl, List.tail_cons]
      obtain ⟨k, u, hk, hrun, hu⟩ := ih t hrest hb
      exact ⟨k + 1, u, Nat.succ_le_succ hk, (run_succ Sys2Proof.core h k).trans hrun, hu⟩

/-! ### Acceptance -/

/-- Settles O12: the write to `CMD` is `acceptCommand`, which leaves DONE and ERR, and so `irq`, at 0; the write to an
operand register is `OperandStored`. -/
theorem writesWhileIdleAcceptOrStore : Obligations.WritesWhileIdleAcceptOrStore := by
  refine ⟨fun s v rest hb h => ?_, fun s r v rest hb hr h => ?_⟩
  · rw [step_csrWrite h, csrWrite_cmd_idle (s := { s with agenda := rest }) hb]
    simp [respond, acceptCommand, updateIrq, irqLevel, statusAccepted]
  · have hstored := operandStored_csrWrite (s := { s with agenda := rest }) hb hr v
    exact ⟨_, step_csrWrite h, hstored.value, hstored.others, hstored.dmem, hstored.irq, hstored.cfg, hstored.agenda,
      hstored.epoch⟩

/-! ### The two completions -/

/-- A word that no row of the opcode table selects is illegal (30_encoding.md R69). -/
theorem decodeWord_error_of_unselected {w : Word} (h : ∀ r ∈ opcodeTable, r.selects w = false) :
    ∃ r, decodeWord w = .error r := by
  cases hd : decodeWord w with
  | error r => exact ⟨r, rfl⟩
  | ok i => exact absurd (decodeWord_ok_iff.mp hd).1 (by simp [h i.row i.row_mem])

/-- Settles O23: check 1 is the decoder's, on a word outside the opcode table; checks 2 to 6 are `failsAsListed`. -/
theorem firstFailingCheckEndsTheCommand : Obligations.FirstFailingCheckEndsTheCommand := by
  refine ⟨fun s hb hn hw => ?_, failsAsListed⟩
  obtain ⟨r, hr⟩ := decodeWord_error_of_unselected hw
  exact ⟨_, (step_of_engineIsNext hn).trans (engineStep_illegal (s := dropEvent s) hb hr), failed_errorCompletion _ _⟩

/-- The number of elements of an output of the given shape. -/
def OutShape.count : OutShape → Nat
  | .none => 0
  | .complex c => c
  | .real c => c

theorem Output.count_shape (y : Output) : y.shape.count = y.count := by cases y <;> rfl

/-- A command that passes its checks completes with the count of the output its row of R67 declares. -/
theorem exec_succeeds {s : State} {i : Instr} (hc : failedCheck s (checksOf s i) = none) :
    ∃ t, exec i s = .next t ∧ Succeeded s t (declaredOutput s i).count := by
  refine ⟨_, exec_of_passes hc, ?_⟩
  rw [← checksOf_output, ← resultOf_shape hc [s.nanCtr], Output.count_shape]
  exact succeeded_successCompletion s _

/-- With no first failure no check fails. -/
theorem failedCheck_eq_none_of_no_firstFailure {s : State} {i : Instr} (h : ∀ e, ¬FirstFailure s i e) :
    failedCheck s (checksOf s i) = none :=
  Option.eq_none_iff_forall_ne_some.mpr fun e he => h e ((failedCheck_eq_some_iff_firstFailure s i e).mp he)

/-- Settles O24: the commands' one shared step, and the declared shape of its output. -/
theorem passingCommandSucceeds : Obligations.PassingCommandSucceeds := fun _ _ h =>
  exec_succeeds (failedCheck_eq_none_of_no_firstFailure h)

end Sys2Proof.Machine
end

section
/-! Reset (70_reset_and_hazards.md R132 to R134): the reset state, and the reset input. -/

namespace Sys2Proof.Machine

/-! ### The reset state -/

/-- The version 1 and the exponent `L` share no bit of `CFG` (10_state.md R25). -/
theorem toNat_cfgWord {L : Nat} (h : L ≤ 28) : (0x00000100#32 ||| BitVec.ofNat 32 L).toNat = 0x100 + L := by
  revert L; decide

theorem statusInv_reset : StatusInv Status.reset := by
  constructor <;> simp [Status.reset]

theorem statusWord_reset : statusWord Status.reset = 0#32 := by decide

/-- The reset state meets the invariant, whatever the configuration. -/
theorem inv_resetWith (c : Config) : Inv (State.resetWith c) :=
  (inv_iff _).mpr ⟨statusInv_reset, ⟨List.Pairwise.nil, fun _ hx => absurd hx List.not_mem_nil⟩, rfl⟩

/-- Settles O7: `CFG` and `DMEMW` by the bounds of R5, every other register by definition. -/
theorem resetRegisterValues : Obligations.ResetRegisterValues := by
  rintro c ⟨-, hL, h8, -, hsize, -⟩
  have hdmemw : (csrRead (State.resetWith c) .dmemw).toNat * 8 = c.dmemBytes := by
    simp only [csrRead, State.resetWith, BitVec.toNat_ofNat]
    omega
  exact ⟨rfl, toNat_cfgWord hL, hdmemw, ctrlWord_eq false, statusWord_reset, rfl, rfl, rfl, rfl, rfl, rfl, rfl, rfl, rfl,
    inv_resetWith c⟩

/-! ### The reset input -/

theorem step_rst {s : State} {rest : List Event} (h : s.agenda = .rst :: rest) :
    step s = .next (assertReset { s with agenda := rest }) := by
  rw [step, h]

theorem csrRead_assertReset (s : State) (r : Csr) : csrRead (assertReset s) r = csrRead (State.resetWith s.cfg) r := by
  cases r <;> rfl

/-- DMEM holds free contents after the reset input (70_reset_and_hazards.md R133). -/
theorem readByte_assertReset (s : State) (a : Nat) : readByte (assertReset s) a = Config.powerOnByte (s.epoch + 1) a := rfl

/-- Settles O8: the step is `assertReset`. -/
theorem resetInputEffect : Obligations.ResetInputEffect := fun s rest h =>
  ⟨_, step_rst h, csrRead_assertReset { s with agenda := rest }, rfl, rfl, rfl, rfl,
    readByte_assertReset { s with agenda := rest }⟩

end Sys2Proof.Machine
end

section
/-! What the outcome of a command depends on (20_memory.md R52; 70_reset_and_hazards.md R133, R138): two runs of one command
from states with the same operands. -/

namespace Sys2Proof.Machine

/-! ### Two runs of one command -/

/-- The two states have one configuration, one length and output length, and the same input elements for the command `i`. -/
structure SameOperands (i : Instr) (s s' : State) : Prop where
  cfg : s'.cfg = s.cfg
  len : s'.len = s.len
  outlen : s'.outlen = s.outlen
  complexInput : ∀ n, declaredInput s i = .complex n → complexInput s' = complexInput s
  realInput : ∀ n, declaredInput s i = .real n → realInput s' = realInput s

section
variable {i : Instr} {s s' : State}

theorem SameOperands.checksOf_eq (h : SameOperands i s s') : checksOf s' i = checksOf s i := by
  cases i <;> simp only [checksOf, lenOf, outlenOf, h.cfg, h.len, h.outlen]

/-- A command's result is a function of its operands and of the name of its NaN draws. -/
theorem SameOperands.resultOf_eq (h : SameOperands i s s') (d : Draw) : resultOf s' d i = resultOf s d i := by
  cases i with
  | nop => rfl
  | twtab | chirptab => simp only [resultOf, lenOf, h.cfg, h.len]
  | fftreal | fftrealhalf _ | fftrealspec _ => simp only [resultOf, inputR_eq, h.cfg, h.realInput _ rfl]
  | _ => simp only [resultOf, inputC_eq, outlenOf, h.cfg, h.outlen, h.complexInput _ rfl]

/-- A run of `i` from `s` ends in `t`, and the run from `s'` ends alike: both fail with one code, or both succeed with one
output of the declared shape. -/
inductive SameOutcome (i : Instr) (s s' t : State) : Prop
  | fails (e : ErrCode) (he : FirstFailure s i e) (ht : t = errorCompletion s e)
      (h' : exec i s' = .next (errorCompletion s' e))
  | succeeds (y : Output) (hc : failedCheck s (checksOf s i) = none) (hy : y.shape = declaredOutput s i)
      (ht : t = successCompletion s y) (h' : exec i s' = .next (successCompletion s' y))

theorem SameOperands.sameOutcome (h : SameOperands i s s') (hctr : s'.nanCtr = s.nanCtr)
    (hin : inputLegal s' (declaredInput s i) = inputLegal s (declaredInput s i))
    (hout : outputLegal s' (declaredOutput s i) = outputLegal s (declaredOutput s i))
    (hover : outputOverlaps s' (declaredOutput s i) = outputOverlaps s (declaredOutput s i))
    {t : State} (ht : exec i s = .next t) : SameOutcome i s s' t := by
  have hcheck : failedCheck s' (checksOf s' i) = failedCheck s (checksOf s i) := by
    simp only [failedCheck, h.checksOf_eq, checksOf_input, checksOf_output, hin, hout, hover]
  rcases exec_cases ht with ⟨e, he, rfl⟩ | ⟨hc, rfl⟩
  · refine .fails e ((failedCheck_eq_some_iff_firstFailure s i e).mp he) rfl ?_
    rw [exec_eq_runCommand, runCommand_of_failed (hcheck.trans he)]
  · refine .succeeds _ hc ((resultOf_shape hc _).trans (checksOf_output s i)) rfl ?_
    rw [exec_of_passes (hcheck.trans hc), hctr, h.resultOf_eq]

end

/-! ### The unused register of a real operand -/

theorem sameOutcome_srcIm {i : Instr} {s t : State} {n : Nat} (v : Word) (hin : declaredInput s i = .real n)
    (ht : exec i s = .next t) : SameOutcome i s { s with srcIm := v } t := by
  have hops : SameOperands i s { s with srcIm := v } :=
    ⟨rfl, rfl, rfl, fun _ hc => (nomatch hin.symm.trans hc), fun _ _ => rfl⟩
  exact hops.sameOutcome rfl (by rw [hin]; rfl) rfl rfl ht

theorem sameOutcome_dstIm {i : Instr} {s t : State} {n : Nat} (v : Word) (hout : declaredOutput s i = .real n)
    (ht : exec i s = .next t) : SameOutcome i s { s with dstIm := v } t := by
  have hops : SameOperands i s { s with dstIm := v } := ⟨rfl, rfl, rfl, fun _ _ => rfl, fun _ _ => rfl⟩
  exact hops.sameOutcome rfl rfl (by rw [hout]; rfl) (by rw [hout]; rfl) ht

theorem successCompletion_srcIm_update (s : State) (v : Word) (y : Output) :
    successCompletion { s with srcIm := v } y = { successCompletion s y with srcIm := v } := by
  cases y <;> rfl

/-- A real output is written at `DST_RE` only, so `DST_IM` is carried along (44_real_codec.md R114). -/
theorem successCompletion_dstIm_update (s : State) (v : Word) {y : Output} {n : Nat} (hy : y.shape = .real n) :
    successCompletion { s with dstIm := v } y = { successCompletion s y with dstIm := v } := by
  cases y with
  | real y => rfl
  | none | complex _ => cases hy

/-- Settles O28: the register is neither an operand nor checked, and each completion carries it along. -/
theorem realOperandsIgnoreTheImaginaryRegister : Obligations.RealOperandsIgnoreTheImaginaryRegister := by
  refine ⟨fun i s t n v hin ht => ?_, fun i s t n v hout ht => ?_⟩
  · cases sameOutcome_srcIm v hin ht with
    | fails e _ ht h' => rw [h', ht]; rfl
    | succeeds y _ _ ht h' => rw [h', ht, successCompletion_srcIm_update]
  · cases sameOutcome_dstIm v hout ht with
    | fails e _ ht h' => rw [h', ht]; rfl
    | succeeds y _ hy ht h' => rw [h', ht, successCompletion_dstIm_update s v (hy.trans hout)]

/-! ### The same machine with another DMEM -/

/-- `s` with the DMEM `m`, its unwritten bytes those of the epoch `e`. -/
def withDmem (s : State) (m : Memory) (e : Nat) : State := { s with dmem := m, epoch := e }

/-- Byte `a` lies in a buffer of an input of the given shape. -/
def InInput (s : State) (a : Nat) : InShape → Prop
  | .none => False
  | .complex n => InBuffer a s.srcRe n ∨ InBuffer a s.srcIm n
  | .real n => InBuffer a s.srcRe n

/-- Byte `a` lies in a buffer of an output of the given shape. -/
def InOutput (s : State) (a : Nat) : OutShape → Prop
  | .none => False
  | .complex c => InBuffer a s.dstRe c ∨ InBuffer a s.dstIm c
  | .real c => InBuffer a s.dstRe c

theorem declaredInput_complex {s : State} {i : Instr} {n : Nat} (h : declaredInput s i = .complex n) :
    n = s.len.toNat := by
  cases i <;> cases h <;> rfl

theorem declaredInput_real {s : State} {i : Instr} {n : Nat} (h : declaredInput s i = .real n) : n = s.len.toNat := by
  cases i <;> cases h <;> rfl

section
variable {i : Instr} {s : State} {m : Memory} {e : Nat}

/-- Word `k` of a buffer whose bytes agree reads the same in both memories. -/
theorem memRead_withDmem {base : Word} {n k : Nat}
    (h : ∀ a, InBuffer a base n → readByte (withDmem s m e) a = readByte s a) (hk : k < n) :
    memRead (withDmem s m e) (base.toNat + 8 * k) = memRead s (base.toNat + 8 * k) :=
  memRead_congr fun j hj => h _ ⟨by omega, by omega⟩

/-- Memories that agree on the bytes of a command's input buffers hold the same input. -/
theorem sameOperands_withDmem
    (h : ∀ a, InInput s a (declaredInput s i) → readByte (withDmem s m e) a = readByte s a) :
    SameOperands i s (withDmem s m e) := by
  refine ⟨rfl, rfl, rfl, fun n hn => ?_, fun n hn => ?_⟩
  · obtain rfl := declaredInput_complex hn
    rw [hn] at h
    refine List.map_congr_left fun k hk => ?_
    have hlt := List.mem_range.mp hk
    exact congrArg₂ Cplx.mk (memRead_withDmem (fun a ha => h a (.inl ha)) hlt)
      (memRead_withDmem (fun a ha => h a (.inr ha)) hlt)
  · obtain rfl := declaredInput_real hn
    rw [hn] at h
    exact List.map_congr_left fun k hk => memRead_withDmem h (List.mem_range.mp hk)

theorem successCompletion_withDmem (y : Output) :
    successCompletion (withDmem s m e) y =
      { successCompletion s y with dmem := (successCompletion (withDmem s m e) y).dmem, epoch := e } := by
  cases y <;> rfl

/-- The bytes of the output buffers are those of the output, whatever DMEM held before. -/
theorem readByte_successCompletion_withDmem {y : Output} (hover : outputOverlaps s y.shape = false) {a : Nat}
    (ha : InOutput s a y.shape) :
    readByte (successCompletion (withDmem s m e) y) a = readByte (successCompletion s y) a := by
  cases y with
  | none => cases ha
  | real y =>
    simp only [readByte, successCompletion_dmem, writeOutput_dmem_real, withDmem, memGet?_memWriteR]
    have hre : s.dstRe.toNat ≤ a ∧ a < s.dstRe.toNat + 8 * y.length := ha
    simp only [if_pos hre, Option.getD_some]
  | complex y =>
    have hd := (rangesOverlap_eq_false_iff _ _ _).mp hover
    simp only [InOutput, Output.shape, InBuffer] at ha
    simp only [readByte, successCompletion_dmem, writeOutput_dmem_complex, withDmem]
    rw [memGet?_memWriteC a (hd.resolve_left (by omega)), memGet?_memWriteC a (hd.resolve_left (by omega))]
    by_cases hre : s.dstRe.toNat ≤ a ∧ a < s.dstRe.toNat + 8 * y.length
    · simp only [if_pos hre, Option.getD_some]
    · simp only [if_neg hre, if_pos (ha.resolve_left hre), Option.getD_some]

end

/-- Settles O27: the two runs have the same operands, so they fail alike or write the same output. -/
theorem outputDependsOnInputBuffersOnly : Obligations.OutputDependsOnInputBuffersOnly := by
  intro i s t m e ht h
  cases (sameOperands_withDmem (m := m) (e := e) h).sameOutcome rfl rfl rfl rfl ht with
  | fails c hfail ht h' => exact ⟨_, h', by rw [ht]; rfl, fun hpass => absurd hfail (hpass c)⟩
  | succeeds y hc hy ht h' =>
    refine ⟨_, h', ht ▸ successCompletion_withDmem y, fun _ a ha => ?_⟩
    obtain ⟨-, -, -, -, -, hover⟩ := (failedCheck_eq_none_iff s _).mp hc
    rw [checksOf_output, ← hy] at hover
    have ha' : InOutput s a (declaredOutput s i) := ha
    rw [← hy] at ha'
    rw [ht]
    exact readByte_successCompletion_withDmem hover ha'

end Sys2Proof.Machine
end

section
/-! The host's reading of a row of the opcode table is the decoding of the row's word (30_encoding.md R64, R65). -/

namespace Sys2Proof

/-- The bytes of a word, put together again as the decoder reads them (20_memory.md R47). -/
theorem append_bytes_of_word (w : Word) :
    w.extractLsb' 24 8 ++ w.extractLsb' 16 8 ++ w.extractLsb' 8 8 ++ w.extractLsb' 0 8 = w := by
  rw [BitVec.extractLsb'_append_extractLsb'_eq_extractLsb', BitVec.extractLsb'_append_extractLsb'_eq_extractLsb',
    BitVec.extractLsb'_append_extractLsb'_eq_extractLsb']
  · exact BitVec.extractLsb'_eq_self
  all_goals rfl

theorem decodeBytes_wordBytes (w : Word) : decodeBytes (wordBytes w) = (decodeWord w).map (·, []) := by
  rw [wordBytes, decodeBytes, append_bytes_of_word]
  cases decodeWord w <;> rfl

theorem tableWord_toNat (w : Word) : tableWord 32 w.toNat = w := by
  rw [tableWord, Nat.mod_eq_of_lt w.isLt, BitVec.ofNat_toNat, BitVec.setWidth_eq]

theorem decodeTableWord_toNat (w : Word) : decodeTableWord 32 w.toNat = (decodeWord w).toOption := by
  rw [decodeTableWord, tableWord_toNat, decodeBytes_wordBytes]
  cases decodeWord w <;> rfl

/-- The word of a well-formed command, as a row of the table, is read as that command (30_encoding.md R70). -/
theorem decodeTableWord_encode {i : Instr} (h : i.wellFormed = true) : decodeTableWord 32 (encode i).toNat = some i := by
  rw [decodeTableWord_toNat, decodeAndEncodeAgree.1 i h]
  rfl

theorem decodeTableWord_of_unselected {w : Word} (h : ∀ r ∈ opcodeTable, r.selects w = false) :
    decodeTableWord 32 w.toNat = none := by
  obtain ⟨e, he⟩ := Machine.decodeWord_error_of_unselected h
  rw [decodeTableWord_toNat, he]
  rfl

/-- Settles O3: five of the words are encodings of the commands, and the sixth, `R2FFT` with Q set, is in no row of the
opcode table. -/
theorem writtenOutWordsDecode : Obligations.WrittenOutWordsDecode :=
  ⟨decodeTableWord_encode (i := .fft true) rfl, decodeTableWord_encode (i := .fft false) rfl,
    decodeTableWord_encode (i := .bfstage 2) rfl, decodeTableWord_encode (i := .fftrealspec true) rfl,
    decodeTableWord_encode (i := .chirptab) rfl, decodeTableWord_of_unselected (w := 0x82#32) (by decide)⟩

end Sys2Proof
end
